-- ==== Sys2Proof/Word.lean ====
section
/-! DEFINITION. The words of the machine: bytes, 16-bit and 32-bit fields. Bit 0 is the least significant bit, every value is unsigned (00_scope.md R6). -/

namespace Sys2Proof

/-- One cell of a byte-addressed space (20_memory.md R40, R43). -/
abbrev Byte := BitVec 8

/-- A 16-bit field: sequence number, extension profile, extension length-in-words (00_scope.md R4). -/
abbrev Half := BitVec 16

/-- A 32-bit field: timestamp, SSRC, CSRC identifier, extension word (00_scope.md R4). -/
abbrev Word := BitVec 32

end Sys2Proof
end

