-- ==== Sys2Proof/Config.lean ====
section
/-! DEFINITION. The derived constants of 00_scope.md R5, the free values of the host's reads, and the named parameters of R4. The parameters are plain data that State carries and no step writes, so that a statement about every state covers every value of them (log 3). -/

namespace Sys2Proof.Config

/-- `FIXED_HDR`: the fixed header is 12 bytes (R5). -/
abbrev fixedHdr : Nat := 12

/-- `MAX_CSRC`: at most 15 contributing sources (R5). -/
abbrev maxCsrc : Nat := 15

/-- `EXT_HDR`: the extension header is 4 bytes (R5). -/
abbrev extHdr : Nat := 4

/-- `MAX_EXT_WORDS`: at most 65535 extension data words (R5). -/
abbrev maxExtWords : Nat := 65535

/-- What a host's read of something nothing has written comes to: the `k`-th such read gives a value of which nothing is known (log 5). It has no body, so that no proof can see a value of it. -/
opaque freeRead : Nat → Nat

end Sys2Proof.Config

namespace Sys2Proof

/-- The parameters of 00_scope.md R4 that are fixed for one machine. `WIRE_SIZE` is not among them: it may differ per command and stands in the instance's state (20_memory.md R40). -/
structure Params where
  /-- `LEN_W`: width in bits of every length and offset register (R4, U17). -/
  lenW : Nat
  /-- `TXPAY_SIZE`: cells of `TXPAY` (R4, U19). -/
  txpaySize : Nat
  /-- `N_CODEC`: instances sharing one context (R4, U20). -/
  nCodec : Nat
  deriving DecidableEq, Repr

/-- The largest value a length register holds, `2^LEN_W - 1` (R4). -/
def Params.maxLen (p : Params) : Nat := 2 ^ p.lenW - 1

/-- The constraints of R4's table. -/
def Params.ok (p : Params) : Bool :=
  decide (19 ≤ p.lenW) && decide (p.txpaySize ≤ p.maxLen) && decide (1 ≤ p.nCodec)

/-- The defaults: `LEN_W = 32` and `N_CODEC = 1` are R4's. `TXPAY_SIZE` is left open there; DESIGN CHOICE (log 4): the largest R4 allows. -/
def Params.default : Params := { lenW := 32, txpaySize := 2 ^ 32 - 1, nCodec := 1 }

end Sys2Proof
end

