-- ==== Sys2Proof/Syntax.lean ====
section
/-! DEFINITION. The instructions: one constructor per row of spec/opcode_table.json, and the ports through which an instruction's bytes reach the block. -/

namespace Sys2Proof

/-- The four present bits of a command word (30_encoding.md R69, R70): 1 when the source would call the reference present. -/
structure Present where
  /-- bit 2: the context -/
  c : Bool
  /-- bit 3: the packet -/
  k : Bool
  /-- bit 4: the buffer -/
  b : Bool
  /-- bit 5: the capacity reference -/
  l : Bool
  deriving DecidableEq, Repr

/-- The fields of the fixed header (30_encoding.md R60). The version is no field: it is the constant 2 (10_state.md R13). Each field is exactly as wide as on the wire, so an out-of-range value cannot be held (D9). -/
structure Header where
  p : Bool
  x : Bool
  cc : BitVec 4
  m : Bool
  pt : BitVec 7
  seq : Half
  ts : Word
  ssrc : Word
  deriving DecidableEq, Repr

/-- What an instruction's bytes are read as: a command word written to `CMD`, or the image of one section of a packet. A section's image does not say by itself where it lies or, for the payload, whether it is padded: the port carries what the sections before it declared (30_encoding.md R66). -/
inductive Port where
  /-- the command word `CMDW` (R69) -/
  | cmd
  /-- format `FIXED` (R60) -/
  | fixed
  /-- format `CSRC` (R62) -/
  | csrc
  /-- format `EXT` (R63), after `cc` identifiers -/
  | ext (cc : BitVec 4)
  /-- format `PAYLOAD` (R64), after `cc` identifiers and, when there is one, an extension of `n` words; `p` is the padding flag -/
  | payload (cc : BitVec 4) (n : Option Half) (p : Bool)
  deriving DecidableEq, Repr

/-- One constructor per row of the opcode table. -/
inductive Instr where
  /-- `INIT` (41_init.md R100); it ignores `k`, `b` and `l` and keeps them so that no bit of its word is lost -/
  | init (p : Present)
  /-- `SERIALIZE` (42_serialize.md R121) -/
  | serialize (p : Present)
  /-- `SIZEQ`, the pseudo-command `SERIALIZE C,K,L` (30_encoding.md R75) -/
  | sizeq
  /-- `DESERIALIZE` (43_deserialize.md R143); it ignores `l` -/
  | deserialize (p : Present)
  /-- a word with `OP = 00` and bits 7:6 `00` (30_encoding.md R72); it keeps the bits 5:2 -/
  | reservedOp00 (p : Present)
  /-- a word with bits 7:6 not `00`, whatever its `OP` (R72) -/
  | reservedHighBits (w : Byte)
  /-- `rdBE32(WIRE, a)` (40_word_codec.md R90) -/
  | rdBE32 (a : Nat)
  /-- `wrBE32(v, WIRE, a)` (R91) -/
  | wrBE32 (v : Word) (a : Nat)
  /-- `rdBE16(WIRE, a)` (R92) -/
  | rdBE16 (a : Nat)
  /-- `wrBE16(h, WIRE, a)` (R93) -/
  | wrBE16 (h : Half) (a : Nat)
  /-- a fixed header (30_encoding.md R60) -/
  | fixed (h : Header)
  /-- a contributing-source list (R62) -/
  | csrc (ids : List Word)
  /-- an extension section after `cc` identifiers (R63) -/
  | ext (cc : BitVec 4) (profile : Half) (words : List Word)
  /-- a payload-plus-padding region after `cc` identifiers and, when there is one, an extension of `n` words; `p` is the padding flag (R64) -/
  | payload (cc : BitVec 4) (n : Option Half) (p : Bool) (bytes : List Byte)
  deriving DecidableEq, Repr

end Sys2Proof
end

