-- ==== Sys2Proof/WellFormed.lean ====
section
/-! DEFINITION. Which terms of `Instr` stand for something the encodings of 30_encoding.md can say. -/

namespace Sys2Proof

/-- The pad count of a payload-plus-padding region (30_encoding.md R64): nothing to check when the padding flag is clear or the region is empty; otherwise the last byte is between 1 and the region's length. -/
def padOk (p : Bool) (bytes : List Byte) : Bool :=
  !p || match bytes.getLast? with
    | none => true
    | some c => decide (1 ≤ c.toNat) && decide (c.toNat ≤ bytes.length)

/-- Well-formedness of an instruction on a machine whose lengths have `lenW` bits.
A `SERIALIZE` with exactly `C,K,L` present has `SIZEQ`'s word and is written `sizeq` (R75); a word of `reservedHighBits` has bits 7:6 not `00` (R72); offsets are `LEN_W`-bit numbers (40_word_codec.md R90); list lengths are R62's and R63's; a payload's length is a `LEN_W`-bit number and its pad count is R64's. -/
def Instr.wellFormed (lenW : Nat) : Instr → Bool
  | .init _ => true
  | .serialize p => !(p.c && p.k && p.l && !p.b)
  | .sizeq => true
  | .deserialize _ => true
  | .reservedOp00 _ => true
  | .reservedHighBits w => decide (w.extractLsb' 6 2 ≠ 0)
  | .rdBE32 a => decide (a < 2 ^ lenW)
  | .wrBE32 _ a => decide (a < 2 ^ lenW)
  | .rdBE16 a => decide (a < 2 ^ lenW)
  | .wrBE16 _ a => decide (a < 2 ^ lenW)
  | .fixed _ => true
  | .csrc ids => decide (ids.length ≤ Config.maxCsrc)
  | .ext _ _ words => decide (words.length ≤ Config.maxExtWords)
  | .payload _ _ p bytes => decide (bytes.length < 2 ^ lenW) && padOk p bytes

end Sys2Proof
end

