-- ==== Sys2Proof/Decode.lean ====
section
/-! DEFINITION. Bytes to instructions and back, from the encodings of 30_encoding.md: the big-endian byte helpers, the bit fields of the command word and of the fixed header, the decoder (total on any bytes, rejecting by name) and, after it, the encoder. -/

namespace Sys2Proof

/-! ## Byte order (20_memory.md R44, 30_encoding.md R67) -/

/-- The big-endian image of a 16-bit value (40_word_codec.md R93). -/
def be16 (h : Half) : List Byte := [h.extractLsb' 8 8, h.extractLsb' 0 8]

/-- The big-endian image of a 32-bit value (40_word_codec.md R91). -/
def be32 (v : Word) : List Byte :=
  [v.extractLsb' 24 8, v.extractLsb' 16 8, v.extractLsb' 8 8, v.extractLsb' 0 8]

/-- The 16-bit value of two bytes, the first most significant (R92). -/
def ofBe16 (b0 b1 : Byte) : Half := b0 ++ b1

/-- The 32-bit value of four bytes, the first most significant (R90). -/
def ofBe32 (b0 b1 b2 b3 : Byte) : Word := b0 ++ b1 ++ b2 ++ b3

/-- The image of a list of 32-bit values, in order (R62, R63). -/
def wordBytes : List Word → List Byte
  | [] => []
  | v :: vs => be32 v ++ wordBytes vs

/-- The list of 32-bit values of an image; none when its length is no multiple of 4. -/
def wordsOf : List Byte → Option (List Word)
  | [] => some []
  | b0 :: b1 :: b2 :: b3 :: rest => (wordsOf rest).map (ofBe32 b0 b1 b2 b3 :: ·)
  | _ => none

/-! ## The fixed header (30_encoding.md R60) -/

/-- Byte 0, bits 7:6: the version. -/
def versionOf (b0 : Byte) : BitVec 2 := b0.extractLsb' 6 2

/-- The version the block emits and accepts (10_state.md R13). -/
def rtpVersion : BitVec 2 := 2

/-- `byte0 = (2 << 6) | (P << 5) | (X << 4) | CC`. -/
def Header.byte0 (h : Header) : Byte :=
  rtpVersion ++ BitVec.ofBool h.p ++ BitVec.ofBool h.x ++ h.cc

/-- `byte1 = (M << 7) | PT`. -/
def Header.byte1 (h : Header) : Byte := BitVec.ofBool h.m ++ h.pt

/-- The twelve bytes of the fixed header (R60, 42_serialize.md R117). -/
def Header.bytes (h : Header) : List Byte :=
  h.byte0 :: h.byte1 :: (be16 h.seq ++ be32 h.ts ++ be32 h.ssrc)

/-- The fields of a fixed header from its bytes 0 and 1 and its three multi-byte fields (43_deserialize.md R134). -/
def Header.ofFields (b0 b1 : Byte) (seq : Half) (ts ssrc : Word) : Header where
  p := b0.getLsbD 5
  x := b0.getLsbD 4
  cc := b0.extractLsb' 0 4
  m := b1.getLsbD 7
  pt := b1.extractLsb' 0 7
  seq := seq
  ts := ts
  ssrc := ssrc

/-! ## The command word (30_encoding.md R69, R71) -/

/-- Bits 1:0 of a command word. -/
def opOf (w : Byte) : BitVec 2 := w.extractLsb' 0 2

/-- Bits 5:2 of a command word. -/
def presentOf (w : Byte) : Present where
  c := w.getLsbD 2
  k := w.getLsbD 3
  b := w.getLsbD 4
  l := w.getLsbD 5

/-- The word `00LBKCOO`. -/
def cmdWord (p : Present) (op : BitVec 2) : Byte :=
  (0 : BitVec 2) ++ BitVec.ofBool p.l ++ BitVec.ofBool p.b ++ BitVec.ofBool p.k ++ BitVec.ofBool p.c ++ op

/-- The word of `SIZEQ`, `SERIALIZE C,K,L` (R74, R75). -/
def sizeqWord : Byte := 0x2E

/-- The instruction a command word stands for. Bits 7:6 are asked first, then `OP = 00` (R72, log 7); `SIZEQ`'s word is read as `SIZEQ` (R75, log 6). -/
def decodeCmd (w : Byte) : Instr :=
  if w.extractLsb' 6 2 ≠ 0 then .reservedHighBits w
  else if opOf w = 0 then .reservedOp00 (presentOf w)
  else if w = sizeqWord then .sizeq
  else if opOf w = 1 then .init (presentOf w)
  else if opOf w = 2 then .serialize (presentOf w)
  else .deserialize (presentOf w)

/-! ## The decoder -/

/-- Why bytes are not an instruction of the port they came through. -/
inductive DecodeError where
  /-- not one byte at `CMD`, not twelve in a `FIXED` image, fewer than four in an `EXT` image -/
  | wrongLength
  /-- a `FIXED` image whose version is not 2 (30_encoding.md R68) -/
  | wrongVersion
  /-- a `CSRC` or `EXT` image that does not end on a 32-bit word (R62, R63) -/
  | raggedWords
  /-- a `CSRC` image of more than 15 identifiers (R62) -/
  | tooManyIds
  /-- an `EXT` image whose length-in-words is not the number of its data words (R63) -/
  | extLengthMismatch
  /-- a `PAYLOAD` image whose pad count is 0 or larger than the region (R64) -/
  | badPadCount
  /-- a `PAYLOAD` image whose length no `LEN_W`-bit register holds (00_scope.md R4) -/
  | tooLong
  deriving DecidableEq, Repr

/-- The `CSRC` image (R62). -/
def decodeCsrc (bytes : List Byte) : Except DecodeError Instr :=
  match wordsOf bytes with
  | none => .error .raggedWords
  | some ids => if ids.length ≤ Config.maxCsrc then .ok (.csrc ids) else .error .tooManyIds

/-- The `EXT` image: profile, length-in-words, data words (R63). -/
def decodeExt (cc : BitVec 4) : List Byte → Except DecodeError Instr
  | b0 :: b1 :: b2 :: b3 :: rest =>
    match wordsOf rest with
    | none => .error .raggedWords
    | some words =>
      if words.length = (ofBe16 b2 b3).toNat then .ok (.ext cc (ofBe16 b0 b1) words)
      else .error .extLengthMismatch
  | _ => .error .wrongLength

/-- The `FIXED` image: twelve bytes, version 2 (R60, R68). -/
def decodeFixed : List Byte → Except DecodeError Instr
  | [b0, b1, b2, b3, b4, b5, b6, b7, b8, b9, b10, b11] =>
    if versionOf b0 = rtpVersion then
      .ok (.fixed (Header.ofFields b0 b1 (ofBe16 b2 b3) (ofBe32 b4 b5 b6 b7) (ofBe32 b8 b9 b10 b11)))
    else .error .wrongVersion
  | _ => .error .wrongLength

/-- The decoder: what a port makes of any bytes, on a machine whose lengths have `lenW` bits. -/
def decode (lenW : Nat) (port : Port) (bytes : List Byte) : Except DecodeError Instr :=
  match port with
  | .cmd =>
    match bytes with
    | [w] => .ok (decodeCmd w)
    | _ => .error .wrongLength
  | .fixed => decodeFixed bytes
  | .csrc => decodeCsrc bytes
  | .ext cc => decodeExt cc bytes
  | .payload cc n p =>
    if ¬ bytes.length < 2 ^ lenW then .error .tooLong
    else if padOk p bytes then .ok (.payload cc n p bytes)
    else .error .badPadCount

/-! ## The encoder -/

/-- The image of an extension section (R63). -/
def extBytes (profile : Half) (words : List Word) : List Byte :=
  be16 profile ++ be16 (BitVec.ofNat 16 words.length) ++ wordBytes words

/-- The bytes of an instruction and the port they go through; none for the four internal primitives, which have no command code (40_word_codec.md R90 to R93). -/
def encode : Instr → Option (Port × List Byte)
  | .init p => some (.cmd, [cmdWord p 1])
  | .serialize p => some (.cmd, [cmdWord p 2])
  | .sizeq => some (.cmd, [sizeqWord])
  | .deserialize p => some (.cmd, [cmdWord p 3])
  | .reservedOp00 p => some (.cmd, [cmdWord p 0])
  | .reservedHighBits w => some (.cmd, [w])
  | .rdBE32 _ => none
  | .wrBE32 _ _ => none
  | .rdBE16 _ => none
  | .wrBE16 _ _ => none
  | .fixed h => some (.fixed, h.bytes)
  | .csrc ids => some (.csrc, wordBytes ids)
  | .ext cc profile words => some (.ext cc, extBytes profile words)
  | .payload cc n p bytes => some (.payload cc n p, bytes)

/-! ## The opcode table's numbering -/

/-- The bytes of an instruction numbered as the opcode table numbers bits: byte `i` is bits `8*i+7 : 8*i`. -/
def bytesOfTableWord (n w : Nat) : List Byte :=
  (List.range n).map fun i => BitVec.ofNat 8 (w >>> (8 * i))

/-- The port of a table row: one byte is a command word; the one wider row is `FIXED`, twelve bytes. -/
def portOfTableWord (nbits w : Nat) : Port × List Byte :=
  if nbits ≤ 8 then (.cmd, bytesOfTableWord 1 w) else (.fixed, bytesOfTableWord 12 w)

/-- The instruction the decoder reads from a table row's word. -/
def decodeTableWord (nbits w : Nat) : Option Instr :=
  match decode Params.default.lenW (portOfTableWord nbits w).1 (portOfTableWord nbits w).2 with
  | .ok i => some i
  | .error _ => none

end Sys2Proof
end

