-- ==== Sys2Proof/Machine/State.lean ====
section
/-! DEFINITION. The state of RTP-HSD as plain data (10_state.md R10, 20_memory.md R40 to R43, 60_exceptions.md R166), the reasons a step can stop, and the state right after reset (R34). -/

namespace Sys2Proof.Machine

/-- The five result kinds (60_exceptions.md R150). The numeric codes are at the register boundary only (D4): `ResultKind.code` in Machine/Flags.lean. -/
inductive ResultKind where
  | ok
  | badParam
  | outOfMemory
  | wrongVersion
  | malformedPacket
  deriving DecidableEq, Repr

/-- A register. `written` says whether anything has written it since reset: until then it holds no value in the sense of 10_state.md R33 and a command that reads it is refused. `val` is the value it holds; while `written` is false nothing can read it (log 2). -/
structure Reg (α : Type) where
  written : Bool
  val : α
  deriving DecidableEq, Repr

/-- A sparse memory: cells by address, strictly rising, and no entry for a cell that holds no value (10_state.md R33). `Memory Byte` is a list of `Host.Cell`. -/
abbrev Memory (α : Type) := List (Nat × α)

/-- The packet descriptor registers `PKT.*` (10_state.md R17 to R30). Length and offset registers have `LEN_W` bits and hold natural numbers below `2^LEN_W` (log 3). -/
structure Pkt where
  p : Reg Bool
  x : Reg Bool
  m : Reg Bool
  cc : Reg (BitVec 4)
  pt : Reg (BitVec 7)
  seq : Reg Half
  ts : Reg Word
  ssrc : Reg Word
  extProfile : Reg Half
  extLen : Reg Half
  payLen : Reg Nat
  csrcOff : Reg Nat
  extOff : Reg Nat
  payOff : Reg Nat
  deriving DecidableEq, Repr

/-- What one instance has for itself (60_exceptions.md R166). `CMD` stores nothing (10_state.md R11) and has no field. -/
structure Codec where
  /-- `RESULT` (R14) -/
  result : Reg ResultKind
  /-- `CAP` (R15) -/
  cap : Reg Nat
  /-- `IN_LEN` (R16) -/
  inLen : Reg Nat
  /-- `PKT.*` -/
  pkt : Pkt
  /-- `WIRE` (20_memory.md R40) -/
  wire : Memory Byte
  /-- `WIRE_SIZE`: the cells of the buffer now behind `WIRE` (00_scope.md R4) -/
  wireSize : Nat
  /-- `TXCSRC` (R42) -/
  txcsrc : Memory Word
  /-- `TXEXT` (R42) -/
  txext : Memory Word
  /-- `TXPAY` (R43) -/
  txpay : Memory Byte
  deriving DecidableEq, Repr

/-- The byte-addressed spaces (R40, R43). -/
inductive ByteSpace where
  | wire
  | txpay
  deriving DecidableEq, Repr

/-- The word-addressed operand memories (R42). -/
inductive WordSpace where
  | txcsrc
  | txext
  deriving DecidableEq, Repr

/-- The three views a successful DESERIALIZE reports (20_memory.md R49). -/
inductive View where
  | csrc
  | ext
  | payload
  deriving DecidableEq, Repr

/-- What the host can do between commands (70_reset_and_hazards.md R189; `WR`, `LD`, `RD` of 30_encoding.md R74). -/
inductive HostAction where
  /-- write the value `v` to the register of number `n` (10_state.md R10's table); number 0 is `CMD`, and writing it issues a command (R11) -/
  | wr (n : Nat) (v : Nat)
  /-- read the register of number `n` -/
  | rd (n : Nat)
  /-- load bytes from an offset on -/
  | ldBytes (sp : ByteSpace) (off : Nat) (bytes : List Byte)
  /-- load words from an index on -/
  | ldWords (sp : WordSpace) (off : Nat) (words : List Word)
  /-- read one byte -/
  | rdByte (sp : ByteSpace) (off : Nat)
  /-- read one word -/
  | rdWord (sp : WordSpace) (off : Nat)
  /-- read element `i` of a view (20_memory.md R49) -/
  | rdView (v : View) (i : Nat)
  /-- load the image of one packet section at the place its format gives it (log 9) -/
  | image (port : Port) (bytes : List Byte)
  /-- point `WIRE` at another buffer, of `size` cells with these contents (R40) -/
  | repoint (size : Nat) (cells : List (Nat × Byte))
  /-- address the next actions to instance `k` (60_exceptions.md R166) -/
  | select (k : Nat)
  /-- issue the INIT word `w` on the active instance without waiting for its end (70_reset_and_hazards.md R178, log 18) -/
  | beginInit (w : Byte)
  /-- the INIT running on the active instance ends -/
  | endInit
  /-- apply the reset (R170) -/
  | reset
  deriving DecidableEq, Repr

/-- The whole machine. -/
structure State where
  /-- `LEN_W`, `TXPAY_SIZE`, `N_CODEC` (00_scope.md R4): no step writes them (log 3) -/
  params : Params
  /-- `CTX.INIT`, shared by all instances (10_state.md R12, 60_exceptions.md R166) -/
  ctxInit : Bool
  /-- the instance the host's next action goes to (log 17) -/
  active : Nat
  /-- that instance's own state -/
  codec : Codec
  /-- the other instances' own states, by number -/
  parked : Memory Codec
  /-- the INITs issued and not yet ended, by instance number (20_memory.md R53, log 18) -/
  running : Memory Byte
  /-- the host's pending actions, oldest first (log 1) -/
  host : List HostAction
  /-- the value the last read handed out, to the host or to the caller of a reading primitive (log 8) -/
  readData : Nat
  /-- how many free values the host's reads have drawn (log 5) -/
  draws : Nat
  deriving DecidableEq, Repr

/-- Where the machine stops because what is accessed does not exist. All are safe: nothing can be proved past them (log 16). -/
inductive Fault where
  /-- A memory cell outside its space (20_memory.md R40, R42, R43): raised by the Word Codec primitives and the wire formats run as instructions, and by the host's loads, reads and buffer contents. Safe. -/
  | noSuchCell
  /-- A register number that is not assigned (10_state.md R10): raised by the host's register reads and writes. Safe. -/
  | noSuchRegister
  /-- An instance number not below `N_CODEC` (60_exceptions.md R166): raised by the host's choice of an instance. Safe. -/
  | noSuchCodec
  /-- An element past the end of a view (20_memory.md R49): raised by the host's read of a view element. Safe. -/
  | noSuchElement
  deriving DecidableEq, Repr

/-- Where there is no behaviour to go on with (00_scope.md R8 (c)). All are safe: nothing can be proved past them. The first six after `notModelled` are the spec's own (60_exceptions.md R167); the others are the host port's. -/
inductive Refusal where
  /-- An instruction without a meaning. Raised by no arm of this model. Safe. -/
  | notModelled (mnemonic : String)
  /-- SERIALIZE, SIZEQ or DESERIALIZE past its BAD_PARAM checks with `CTX.INIT = 0` (42_serialize.md R111, 43_deserialize.md R131). Safe. -/
  | useBeforeInit
  /-- A command word with `OP = 00` or bits 7:6 not `00` (30_encoding.md R72). Safe. -/
  | reservedCommand
  /-- A command's or a Word Codec primitive's read of a register or cell nothing has written (10_state.md R33, 40_word_codec.md R90), or a host read of `CMD` (R11). Safe. -/
  | unwrittenRead
  /-- A required length above `2^LEN_W - 1` (42_serialize.md R113). Safe. -/
  | lengthOverflow
  /-- A declared length larger than the buffer (20_memory.md R56). Safe. -/
  | bufferBound
  /-- SERIALIZE, SIZEQ or DESERIALIZE while the first INIT still runs on another instance (70_reset_and_hazards.md R178). Safe. -/
  | initRace
  /-- A host write of `RESULT` or `CTX`, which "it cannot" (R189). Safe. -/
  | hostReadOnly
  /-- A host write of a value its register has no bits for, or of a buffer size above `2^LEN_W - 1` (log 15). Safe. -/
  | valueTooWide
  /-- A host action on an instance that is inside a command (R186, log 18). Safe. -/
  | codecBusy
  /-- A reset while an INIT is running: "no defined effect" (R170, log 19). Safe. -/
  | resetInCommand
  /-- An overlapped issue of a word that is no INIT, or the end of an INIT that does not run (log 18). Safe. -/
  | noOverlappedInit
  /-- An image that is not of its format (30_encoding.md R60 to R64, log 9). Safe. -/
  | notAnImage
  deriving DecidableEq, Repr

/-- A register nothing has written: no value (10_state.md R33). The stored value is DESIGN CHOICE and unreadable (log 2). -/
def Reg.unwritten {α : Type} (stored : α) : Reg α := { written := false, val := stored }

/-- Every `PKT.*` register after reset: no value (R34). -/
def Pkt.reset : Pkt where
  p := Reg.unwritten false
  x := Reg.unwritten false
  m := Reg.unwritten false
  cc := Reg.unwritten 0
  pt := Reg.unwritten 0
  seq := Reg.unwritten 0
  ts := Reg.unwritten 0
  ssrc := Reg.unwritten 0
  extProfile := Reg.unwritten 0
  extLen := Reg.unwritten 0
  payLen := Reg.unwritten 0
  csrcOff := Reg.unwritten 0
  extOff := Reg.unwritten 0
  payOff := Reg.unwritten 0

/-- One instance after reset with a buffer of `size` cells behind `WIRE`: no register and no cell holds a value (R34). -/
def Codec.reset (size : Nat) : Codec where
  result := Reg.unwritten .ok
  cap := Reg.unwritten 0
  inLen := Reg.unwritten 0
  pkt := Pkt.reset
  wire := []
  wireSize := size
  txcsrc := []
  txext := []
  txpay := []

/-- The machine after power-on with given parameters: `CTX.INIT = 0`, nothing else holds a value (R34), no INIT runs, the host has nothing pending. DESIGN CHOICE (log 4): the buffers are as large as R4 allows; (log 17): instance 0 is addressed first. -/
def State.resetWith (p : Params) : State where
  params := p
  ctxInit := false
  active := 0
  codec := Codec.reset p.maxLen
  parked := (List.range (p.nCodec - 1)).map fun k => (k + 1, Codec.reset p.maxLen)
  running := []
  host := []
  readData := 0
  draws := 0

/-- The machine right after reset, with R4's default parameters. -/
def State.reset : State := State.resetWith Params.default

end Sys2Proof.Machine
end

