-- ==== Sys2Proof/Machine/Flags.lean ====
section
/-! DEFINITION. The block's only status flag is `RESULT` (10_state.md R14): its codes at the register boundary (60_exceptions.md R150). There are no condition codes (R35). -/

namespace Sys2Proof.Machine

/-- The code of a result kind in `RESULT` (60_exceptions.md R150). -/
def ResultKind.code : ResultKind → BitVec 3
  | .ok => 0
  | .badParam => 1
  | .outOfMemory => 2
  | .wrongVersion => 3
  | .malformedPacket => 4

/-- A failure kind: any kind but OK (R150). -/
def ResultKind.failure (k : ResultKind) : Bool := decide (k ≠ .ok)

/-- A pad count against the length of the region it closes (42_serialize.md R116, 43_deserialize.md R139; 90_conflicts.md C1: 0 is rejected). -/
def padConsistent (pad : Byte) (region : Nat) : Bool :=
  decide (1 ≤ pad.toNat) && decide (pad.toNat ≤ region)

end Sys2Proof.Machine
end

