-- ==== Sys2Proof/Machine/Ops.lean ====
section
/-! DEFINITION. The named operations every meaning is written over: the sparse memories and their canonical form, reading a register or a cell that may hold no value, the big-endian accesses, the updates of the active instance, and the two ways a command ends: a failure result (60_exceptions.md R155), which is how this block takes an exception, and success. -/

namespace Sys2Proof.Machine

/-- What a step answers. -/
abbrev Out := Host.Outcome State Fault Refusal

/-! ## Sparse memories -/

/-- The value of a cell; none when it holds no value (10_state.md R33). -/
def Memory.read {α : Type} : Memory α → Nat → Option α
  | [], _ => none
  | (k, v) :: m, a => if a = k then some v else Memory.read m a

/-- Write one cell, keeping the addresses strictly rising. -/
def Memory.write {α : Type} : Memory α → Nat → α → Memory α
  | [], a, v => [(a, v)]
  | (k, w) :: m, a, v =>
    if a < k then (a, v) :: (k, w) :: m
    else if a = k then (a, v) :: m
    else (k, w) :: Memory.write m a v

/-- Take a cell's value away. -/
def Memory.erase {α : Type} (m : Memory α) (a : Nat) : Memory α :=
  m.filter fun e => decide (e.1 ≠ a)

/-- Read `n` cells from `a` on; none when one of them holds no value. -/
def Memory.readN {α : Type} (m : Memory α) (a : Nat) : Nat → Option (List α)
  | 0 => some []
  | n + 1 =>
    match Memory.read m a, Memory.readN m (a + 1) n with
    | some v, some vs => some (v :: vs)
    | _, _ => none

/-- Write a list of values to consecutive cells from `a` on. -/
def Memory.writeN {α : Type} (m : Memory α) (a : Nat) : List α → Memory α
  | [] => m
  | v :: vs => Memory.writeN (Memory.write m a v) (a + 1) vs

/-- Every address of the list is above `a`. -/
def Memory.above {α : Type} (a : Nat) (m : Memory α) : Bool := m.all fun e => decide (a < e.1)

/-- The canonical form: addresses strictly rising. An unlisted cell holds no value and every entry holds one, so equal contents are equal lists. -/
def Memory.wf {α : Type} : Memory α → Bool
  | [] => true
  | (k, _) :: m => Memory.above k m && Memory.wf m

/-- Every listed cell exists in a space of `size` cells. -/
def Memory.within {α : Type} (size : Nat) (m : Memory α) : Bool := m.all fun e => decide (e.1 < size)

/-! ## Values that may be missing -/

/-- The value of a register; none when nothing has written it since reset (10_state.md R33). -/
def Reg.read {α : Type} (r : Reg α) : Option α := if r.written then some r.val else none

/-- A register after a write of `v`. -/
def Reg.holding {α : Type} (v : α) : Reg α := { written := true, val := v }

/-- Go on with a value, or refuse, as the spec says: a command that reads a register or cell nothing has written "is refused (`UnwrittenRead`); a model must not substitute zero or any other value" (10_state.md R33); "reading a register that holds no value is a refusal `UnwrittenRead`" (00_scope.md R7; 93_implementation_defined.md U3). -/
def need {α : Type} (o : Option α) (k : α → Out) : Out :=
  match o with
  | some v => k v
  | none => .refused .unwrittenRead

/-- One more free value drawn (log 5). -/
def State.withDraw (s : State) : State := { s with draws := s.draws + 1 }

/-- The next free value, of `w` bits: nothing but its width is known of it (DESIGN CHOICE, log 5). -/
def State.freeValue (s : State) (w : Nat) : Nat := Config.freeRead s.draws % 2 ^ w

/-- Go on with a value, or where there is none with a free value of `w` bits: how the host reads (70_reset_and_hazards.md R189, log 5). -/
def orFree (o : Option Nat) (w : Nat) (k : Nat → State → Out) (s : State) : Out :=
  match o with
  | some v => k v s
  | none => k (s.freeValue w) s.withDraw

/-! ## Big-endian accesses (20_memory.md R44, 40_word_codec.md) -/

/-- `rdBE16` (R92). -/
def Memory.readBE16 (m : Memory Byte) (a : Nat) : Option Half :=
  match m.read a, m.read (a + 1) with
  | some b0, some b1 => some (ofBe16 b0 b1)
  | _, _ => none

/-- `rdBE32` (R90). -/
def Memory.readBE32 (m : Memory Byte) (a : Nat) : Option Word :=
  match m.read a, m.read (a + 1), m.read (a + 2), m.read (a + 3) with
  | some b0, some b1, some b2, some b3 => some (ofBe32 b0 b1 b2 b3)
  | _, _, _, _ => none

/-- `wrBE16` (R93). -/
def Memory.writeBE16 (m : Memory Byte) (h : Half) (a : Nat) : Memory Byte := m.writeN a (be16 h)

/-- `wrBE32` (R91). -/
def Memory.writeBE32 (m : Memory Byte) (v : Word) (a : Nat) : Memory Byte := m.writeN a (be32 v)

/-! ## Updates -/

/-- The active instance replaced. -/
def State.withCodec (s : State) (c : Codec) : State := { s with codec := c }

/-- `CTX.INIT <- 1` (41_init.md R101). -/
def State.setInit (s : State) : State := { s with ctxInit := true }

/-- The value handed out by a read. -/
def State.withReadData (s : State) (v : Nat) : State := { s with readData := v }

/-- The host's pending actions replaced. -/
def State.withHost (s : State) (q : List HostAction) : State := { s with host := q }

/-- The running INITs replaced. -/
def State.withRunning (s : State) (r : Memory Byte) : State := { s with running := r }

/-- `RESULT <- k`. -/
def Codec.withResult (c : Codec) (k : ResultKind) : Codec := { c with result := Reg.holding k }

/-- `CAP <- v`. -/
def Codec.withCap (c : Codec) (v : Nat) : Codec := { c with cap := Reg.holding v }

/-- The contents of `WIRE` replaced. -/
def Codec.withWire (c : Codec) (m : Memory Byte) : Codec := { c with wire := m }

/-- The packet registers replaced. -/
def Codec.withPkt (c : Codec) (p : Pkt) : Codec := { c with pkt := p }

/-! ## How a command ends -/

/-- `raise K` (60_exceptions.md R155): `RESULT <- code(K)` and nothing else; control returns to the host. -/
def State.raise (s : State) (k : ResultKind) : State := s.withCodec (s.codec.withResult k)

/-- `done OK`, the ordinary return: `RESULT <- 0` after the writes the command lists (00_scope.md R7). -/
def State.done (s : State) : State := s.withCodec (s.codec.withResult .ok)

/-- A SERIALIZE or DESERIALIZE issued while the first INIT still runs on another instance (20_memory.md R53, 70_reset_and_hazards.md R178). -/
def State.initRace (s : State) : Bool :=
  !s.ctxInit && s.running.any fun e => decide (e.1 ≠ s.active)

end Sys2Proof.Machine
end

