-- ==== Sys2Proof/Machine/Operands.lean ====
section
/-! DEFINITION. The operands of the commands: where each section of a packet lies (30_encoding.md R60 to R65), the length a packet needs (42_serialize.md R112), the operands an emission reads (R122), the fields and views DESERIALIZE delivers. -/

namespace Sys2Proof.Machine

/-! ## Places of the sections (30_encoding.md R62 to R64, 20_memory.md R48) -/

/-- Where the extension section starts: `E = 12 + 4*CC` (R63). -/
def extStart (cc : BitVec 4) : Nat := Config.fixedHdr + 4 * cc.toNat

/-- Length of the extension section: `4 + 4*N` with an extension of `N` words, else 0 (R63). -/
def extSize (n : Option Half) : Nat :=
  match n with
  | some n => Config.extHdr + 4 * n.toNat
  | none => 0

/-- Where the payload region starts: `S = 12 + 4*CC + (X ? 4 + 4*N : 0)` (R64). -/
def payStart (cc : BitVec 4) (n : Option Half) : Nat := extStart cc + extSize n

/-! ## What SERIALIZE reads -/

/-- The extension length as SERIALIZE reads it: `PKT.EXT_LEN` only when `PKT.X = 1` (42_serialize.md R112). The outer option is a missing value, the inner one a missing section. -/
def Pkt.extOperand (p : Pkt) : Option (Option Half) :=
  match p.x.read with
  | none => none
  | some false => some none
  | some true => p.extLen.read.map some

/-- `requiredLength` (42_serialize.md R112), in natural-number arithmetic; none when a register it reads holds no value. -/
def Pkt.requiredLength (p : Pkt) : Option Nat :=
  match p.extOperand, p.cc.read, p.payLen.read with
  | some n, some cc, some len => some (payStart cc n + len)
  | _, _, _ => none

/-- The packet an emission puts on the wire (42_serialize.md R117, R118). -/
structure TxPacket where
  header : Header
  csrc : List Word
  ext : Option (Half × List Word)
  payload : List Byte
  deriving DecidableEq, Repr

/-- The packet's bytes: `FIXED`, then `CSRC`, then `EXT`, then `PAYLOAD`, with no gaps (30_encoding.md R65, 42_serialize.md R117, R118). -/
def TxPacket.bytes (t : TxPacket) : List Byte :=
  t.header.bytes ++ (wordBytes t.csrc
    ++ ((match t.ext with
        | some e => extBytes e.1 e.2
        | none => [])
      ++ t.payload))

/-- The fixed header from the registers (R117). -/
def Pkt.header (p : Pkt) : Option Header :=
  match p.p.read, p.x.read, p.cc.read, p.m.read, p.pt.read, p.seq.read, p.ts.read, p.ssrc.read with
  | some p, some x, some cc, some m, some pt, some seq, some ts, some ssrc =>
    some { p := p, x := x, cc := cc, m := m, pt := pt, seq := seq, ts := ts, ssrc := ssrc }
  | _, _, _, _, _, _, _, _ => none

/-- The extension section from the registers and `TXEXT[0 .. EXT_LEN-1]`, only when `PKT.X = 1` (R118). -/
def Codec.extPacket (c : Codec) : Option (Option (Half × List Word)) :=
  match c.pkt.extOperand with
  | none => none
  | some none => some none
  | some (some n) =>
    match c.pkt.extProfile.read, c.txext.readN 0 n.toNat with
    | some profile, some words => some (some (profile, words))
    | _, _ => none

/-- Every operand of an emission, read before its first write (42_serialize.md R121, R122): the header's registers, `TXCSRC[0 .. CC-1]`, the extension, `TXPAY[0 .. PAY_LEN-1]`. -/
def Codec.txPacket (c : Codec) : Option TxPacket :=
  match c.pkt.header, c.extPacket, c.pkt.payLen.read with
  | some h, some e, some len =>
    match c.txcsrc.readN 0 h.cc.toNat, c.txpay.readN 0 len with
    | some ids, some bytes => some { header := h, csrc := ids, ext := e, payload := bytes }
    | _, _ => none
  | _, _, _ => none

/-! ## What DESERIALIZE delivers -/

/-- The fixed header on `WIRE` (43_deserialize.md R134), read byte by byte and through the Word Codec. -/
def readHeader (m : Memory Byte) : Option Header :=
  match m.read 0, m.read 1, m.readBE16 2, m.readBE32 4, m.readBE32 8 with
  | some b0, some b1, some seq, some ts, some ssrc => some (Header.ofFields b0 b1 seq ts ssrc)
  | _, _, _, _, _ => none

/-- The fourteen packet registers of a successful DESERIALIZE (R140): the header's fields, the extension's profile and length, the three view offsets and the payload length. -/
def Pkt.decoded (h : Header) (profile extLen : Half) (extOff payOff payLen : Nat) : Pkt where
  p := Reg.holding h.p
  x := Reg.holding h.x
  m := Reg.holding h.m
  cc := Reg.holding h.cc
  pt := Reg.holding h.pt
  seq := Reg.holding h.seq
  ts := Reg.holding h.ts
  ssrc := Reg.holding h.ssrc
  extProfile := Reg.holding profile
  extLen := Reg.holding extLen
  payLen := Reg.holding payLen
  csrcOff := Reg.holding Config.fixedHdr
  extOff := Reg.holding extOff
  payOff := Reg.holding payOff

/-! ## Views (20_memory.md R49) -/

/-- The number of elements of a view. -/
def Pkt.viewCount (p : Pkt) : View → Option Nat
  | .csrc => p.cc.read.map BitVec.toNat
  | .ext => p.extLen.read.map BitVec.toNat
  | .payload => p.payLen.read

/-- The offset in `WIRE` of a view's first byte. -/
def Pkt.viewOffset (p : Pkt) : View → Option Nat
  | .csrc => p.csrcOff.read
  | .ext => p.extOff.read
  | .payload => p.payOff.read

/-- The value of element `i` of a view that starts at `off`: the big-endian reading of its four bytes, or one payload byte (R49). -/
def viewElement (m : Memory Byte) (v : View) (off i : Nat) : Option Nat :=
  match v with
  | .csrc => (m.readBE32 (off + 4 * i)).map BitVec.toNat
  | .ext => (m.readBE32 (off + 4 * i)).map BitVec.toNat
  | .payload => (m.read (off + i)).map BitVec.toNat

end Sys2Proof.Machine
end

