-- ==== Sys2Proof/Machine/Deserialize.lean ====
section
/-! DEFINITION. DESERIALIZE (43_deserialize.md R143), stage by stage in the order of R130 to R140 (60_exceptions.md R157). The cursor is a value handed from stage to stage and survives no command (10_state.md R31). -/

namespace Sys2Proof.Machine

/-- Stage 10 (R140): all fourteen packet registers are written together, then OK. -/
def deserializeCommit (h : Header) (profile extLen : Half) (extOff payOff payLen : Nat) (s : State) : Out :=
  .next (s.withCodec (s.codec.withPkt (Pkt.decoded h profile extLen extOff payOff payLen))).done

/-- Stages 8 and 9 (R138, R139): what remains after the sections is the payload-plus-padding region; its last byte is the pad count when the padding flag is set and the region is not empty. -/
def deserializePayload (h : Header) (profile extLen : Half) (extOff inLen : Nat) (s : State) : Out :=
  let payOff := extOff + 4 * extLen.toNat
  let rem := inLen - payOff
  if rem = 0 then deserializeCommit h profile extLen extOff payOff 0 s
  else if h.p then
    need (s.codec.wire.read (inLen - 1)) fun pad =>
      if padConsistent pad rem then deserializeCommit h profile extLen extOff payOff (rem - pad.toNat) s
      else .next (s.raise .malformedPacket)
  else deserializeCommit h profile extLen extOff payOff rem s

/-- Stages 6 and 7 (R136, R137): the extension header and the room for its data, from cursor `cur` on; without an extension, profile and length-in-words are 0 (D10, log 11). -/
def deserializeExt (h : Header) (cur inLen : Nat) (s : State) : Out :=
  if h.x then
    if inLen - cur < Config.extHdr then .next (s.raise .malformedPacket)
    else need (s.codec.wire.readBE16 cur) fun profile =>
      need (s.codec.wire.readBE16 (cur + 2)) fun extLen =>
        if inLen - (cur + Config.extHdr) < 4 * extLen.toNat then .next (s.raise .malformedPacket)
        else deserializePayload h profile extLen (cur + Config.extHdr) inLen s
  else deserializePayload h 0 0 cur inLen s

/-- Stage 5 (R135): the room for the contributing-source list. -/
def deserializeCsrc (h : Header) (inLen : Nat) (s : State) : Out :=
  if 0 < h.cc.toNat ∧ inLen - Config.fixedHdr < 4 * h.cc.toNat then .next (s.raise .malformedPacket)
  else deserializeExt h (extStart h.cc) inLen s

/-- Stages 2 to 4 (R131 to R134): the context, the declared length inside the buffer, the version, the fixed header's fields. -/
def deserializeReady (inLen : Nat) (s : State) : Out :=
  if s.ctxInit then
    if s.codec.wireSize < inLen then .refused .bufferBound
    else need (s.codec.wire.read 0) fun b0 =>
      if versionOf b0 = rtpVersion then
        need (readHeader s.codec.wire) fun h => deserializeCsrc h inLen s
      else .next (s.raise .wrongVersion)
  else .refused .useBeforeInit

/-- DESERIALIZE (43_deserialize.md R143), stage 1 (R130): the references, and an input shorter than the fixed header. `L` is ignored (30_encoding.md R71). -/
def execDeserialize (p : Present) (s : State) : Out :=
  if s.initRace then .refused .initRace
  else if p.c ∧ p.b ∧ p.k then
    need s.codec.inLen.read fun inLen =>
      if inLen < Config.fixedHdr then .next (s.raise .badParam)
      else deserializeReady inLen s
  else .next (s.raise .badParam)

end Sys2Proof.Machine
end

