-- ==== Sys2Proof/Machine/Init.lean ====
section
/-! DEFINITION. INIT (41_init.md). -/

namespace Sys2Proof.Machine

/-- INIT (41_init.md R101): BAD_PARAM when the context is absent, else `CTX.INIT <- 1` and OK. It reads nothing but `C` (R100). -/
def execInit (p : Present) (s : State) : Out :=
  if p.c then .next s.setInit.done
  else .next (s.raise .badParam)

end Sys2Proof.Machine
end

