-- ==== Sys2Proof/Machine/Reserved.lean ====
section
/-! DEFINITION. The reserved command encodings (30_encoding.md R72): "it is refused (`ReservedCommand`); in particular it is not defined to be a no-operation and not defined to write `RESULT`". -/

namespace Sys2Proof.Machine

/-- A word with `OP = 00` (R72). -/
def execReservedOp00 (_ : State) : Out := .refused .reservedCommand

/-- A word with bits 7:6 not `00` (R72). -/
def execReservedHighBits (_ : State) : Out := .refused .reservedCommand

end Sys2Proof.Machine
end

