-- ==== Sys2Proof/Machine/Serialize.lean ====
section
/-! DEFINITION. SERIALIZE and its sizing query SIZEQ (42_serialize.md R121), stage by stage in the order of R110 to R119, which decides what a command with several defects returns (60_exceptions.md R156). -/

namespace Sys2Proof.Machine

/-- Stages 7 and 8 (R117 to R119): the packet's bytes go to `WIRE` from offset 0 on, `CAP` receives the count of bytes written, and the command ends with OK. -/
def serializeWrite (t : TxPacket) (s : State) : Out :=
  .next (s.withCodec ((s.codec.withWire (s.codec.wire.writeN 0 t.bytes)).withCap t.bytes.length)).done

/-- The operands of the emission, all read before its first write (R121, last paragraph). -/
def serializeEmit (s : State) : Out :=
  need s.codec.txPacket fun t => serializeWrite t s

/-- Stage 6 (R116): the declared lengths lie inside the buffers, then the padding consistency of a packet with its padding flag set and a payload. -/
def serializeChecked (req : Nat) (s : State) : Out :=
  need s.codec.pkt.payLen.read fun len =>
    if s.codec.wireSize < req ∨ s.params.txpaySize < len then .refused .bufferBound
    else need s.codec.pkt.p.read fun p =>
      if p ∧ 0 < len then
        need (s.codec.txpay.read (len - 1)) fun last =>
          if padConsistent last len then serializeEmit s
          else .next (s.raise .malformedPacket)
      else serializeEmit s

/-- Stages 2 to 5 (R111 to R115): the context, the required length, the sizing query when the buffer is absent, the capacity. -/
def serializeReady (buffer : Bool) (s : State) : Out :=
  if s.ctxInit then
    need s.codec.pkt.requiredLength fun req =>
      if s.params.maxLen < req then .refused .lengthOverflow
      else if buffer then
        need s.codec.cap.read fun cap =>
          if cap < req then .next (s.raise .outOfMemory)
          else serializeChecked req s
      else .next (s.withCodec (s.codec.withCap req)).done
  else .refused .useBeforeInit

/-- Stage 1 (R110): the references, and a buffer of zero capacity. `CAP` is read only when `B = 1`. -/
def serializeCommand (p : Present) (s : State) : Out :=
  if s.initRace then .refused .initRace
  else if p.c ∧ p.k ∧ p.l then
    if p.b then
      need s.codec.cap.read fun cap =>
        if cap = 0 then .next (s.raise .badParam)
        else serializeReady true s
    else serializeReady false s
  else .next (s.raise .badParam)

/-- SERIALIZE (42_serialize.md R121). -/
def execSerialize (p : Present) (s : State) : Out := serializeCommand p s

/-- SIZEQ, which stands for `SERIALIZE C,K,L` (30_encoding.md R75): the sizing query of R114. -/
def execSizeq (s : State) : Out := serializeCommand { c := true, k := true, b := false, l := true } s

end Sys2Proof.Machine
end

