-- ==== Sys2Proof/Machine/WordCodec.lean ====
section
/-! DEFINITION. The four Word Codec primitives (40_word_codec.md R90 to R94) on `WIRE`. The commands use them through `Memory.readBE32`, `Memory.readBE16`, `be32` and `be16`; here each is run by itself (log 8). They check nothing of their own (R94): a cell outside the buffer does not exist, and a cell without a value is refused (R33). -/

namespace Sys2Proof.Machine

/-- Whether the `n` cells of `WIRE` from `a` on exist (20_memory.md R40). -/
def Codec.wireHas (c : Codec) (a n : Nat) : Bool := decide (n = 0) || decide (a + n ≤ c.wireSize)

/-- A value handed out, when the cells it is read from exist and hold values. -/
def handOut {w : Nat} (here : Bool) (v : Option (BitVec w)) (s : State) : Out :=
  if here then need v fun v => .next (s.withReadData v.toNat)
  else .fault .noSuchCell

/-- Bytes laid on `WIRE` from an offset on, when the cells exist. -/
def layOnWire (off : Nat) (bytes : List Byte) (s : State) : Out :=
  if s.codec.wireHas off bytes.length then
    .next (s.withCodec (s.codec.withWire (s.codec.wire.writeN off bytes)))
  else .fault .noSuchCell

/-- `rdBE32` (R90). -/
def execRdBE32 (a : Nat) (s : State) : Out := handOut (s.codec.wireHas a 4) (s.codec.wire.readBE32 a) s

/-- `wrBE32` (R91). -/
def execWrBE32 (v : Word) (a : Nat) (s : State) : Out := layOnWire a (be32 v) s

/-- `rdBE16` (R92). -/
def execRdBE16 (a : Nat) (s : State) : Out := handOut (s.codec.wireHas a 2) (s.codec.wire.readBE16 a) s

/-- `wrBE16` (R93). -/
def execWrBE16 (h : Half) (a : Nat) (s : State) : Out := layOnWire a (be16 h) s

end Sys2Proof.Machine
end

