-- ==== Sys2Proof/Machine/WireFormat.lean ====
section
/-! DEFINITION. The wire formats (30_encoding.md R60 to R64) run as instructions: each lays its bytes on `WIRE` at the place the format gives it, as stage 7 of SERIALIZE does (42_serialize.md R117, R118) and as a host does that puts a packet into `WIRE` (log 9). -/

namespace Sys2Proof.Machine

/-- `FIXED`: the twelve bytes at offsets 0 to 11 (R60). -/
def execFixed (h : Header) (s : State) : Out := layOnWire 0 h.bytes s

/-- `CSRC`: identifier `i` at offsets `12 + 4*i` to `12 + 4*i + 3` (R62). -/
def execCsrc (ids : List Word) (s : State) : Out := layOnWire Config.fixedHdr (wordBytes ids) s

/-- `EXT`: profile, length-in-words and data words from `E = 12 + 4*CC` on (R63). -/
def execExt (cc : BitVec 4) (profile : Half) (words : List Word) (s : State) : Out :=
  layOnWire (extStart cc) (extBytes profile words) s

/-- `PAYLOAD`: the region's bytes, padding included, from `S` on (R64). -/
def execPayload (cc : BitVec 4) (n : Option Half) (bytes : List Byte) (s : State) : Out :=
  layOnWire (payStart cc n) bytes s

end Sys2Proof.Machine
end

