-- ==== Sys2Proof/Machine/Dispatch.lean ====
section
/-! DEFINITION. One arm per constructor of Instr, each one direct call of that instruction's meaning. -/

namespace Sys2Proof.Machine

def exec (i : Instr) (s : State) : Host.Outcome State Fault Refusal :=
  match i with
  | .init p => Sys2Proof.Machine.execInit p s
  | .serialize p => Sys2Proof.Machine.execSerialize p s
  | .sizeq => Sys2Proof.Machine.execSizeq s
  | .deserialize p => Sys2Proof.Machine.execDeserialize p s
  | .reservedOp00 _ => Sys2Proof.Machine.execReservedOp00 s
  | .reservedHighBits _ => Sys2Proof.Machine.execReservedHighBits s
  | .rdBE32 a => Sys2Proof.Machine.execRdBE32 a s
  | .wrBE32 v a => Sys2Proof.Machine.execWrBE32 v a s
  | .rdBE16 a => Sys2Proof.Machine.execRdBE16 a s
  | .wrBE16 h a => Sys2Proof.Machine.execWrBE16 h a s
  | .fixed h => Sys2Proof.Machine.execFixed h s
  | .csrc ids => Sys2Proof.Machine.execCsrc ids s
  | .ext cc profile words => Sys2Proof.Machine.execExt cc profile words s
  | .payload cc n _ bytes => Sys2Proof.Machine.execPayload cc n bytes s

end Sys2Proof.Machine
end

