-- ==== Sys2Proof/Machine/HostPort.lean ====
section
/-! DEFINITION. The host's side (70_reset_and_hazards.md R189): the register numbers of 10_state.md, the reads, loads, buffer changes, instance choice and reset, and the fetch, which takes the host's oldest pending action and either finds the instruction it issues or performs it. -/

namespace Sys2Proof.Machine

/-! ## Registers by number (10_state.md R10) -/

/-- The registers of the table of R10. -/
inductive RegName where
  | cmd | result | ctx | cap | inLen
  | p | x | m | cc | pt | seq | ts | ssrc | extProfile | extLen | payLen | csrcOff | extOff | payOff
  deriving DecidableEq, Repr

/-- The register of a number; numbers 5 to 7 and 22 upward "are not assigned; no register exists there" (R10). -/
def RegName.ofNumber : Nat → Option RegName
  | 0 => some .cmd
  | 1 => some .result
  | 2 => some .ctx
  | 3 => some .cap
  | 4 => some .inLen
  | 8 => some .p
  | 9 => some .x
  | 10 => some .m
  | 11 => some .cc
  | 12 => some .pt
  | 13 => some .seq
  | 14 => some .ts
  | 15 => some .ssrc
  | 16 => some .extProfile
  | 17 => some .extLen
  | 18 => some .payLen
  | 19 => some .csrcOff
  | 20 => some .extOff
  | 21 => some .payOff
  | _ => none

/-- The width column of R10's table, with lengths of `lenW` bits. -/
def RegName.width (lenW : Nat) : RegName → Nat
  | .cmd => 8
  | .result => 3
  | .ctx => 1
  | .p | .x | .m => 1
  | .cc => 4
  | .pt => 7
  | .seq | .extProfile | .extLen => 16
  | .ts | .ssrc => 32
  | .cap | .inLen | .payLen | .csrcOff | .extOff | .payOff => lenW

/-- The host column of R10's table: the registers it can write to store a value. -/
def RegName.hostWritable : RegName → Bool
  | .cmd | .result | .ctx => false
  | _ => true

/-- The value of a register, zero-extended; none when it holds none. `CMD` stores nothing (R11). -/
def State.readReg (s : State) : RegName → Option Nat
  | .cmd => none
  | .result => s.codec.result.read.map fun k => k.code.toNat
  | .ctx => some s.ctxInit.toNat
  | .cap => s.codec.cap.read
  | .inLen => s.codec.inLen.read
  | .p => s.codec.pkt.p.read.map Bool.toNat
  | .x => s.codec.pkt.x.read.map Bool.toNat
  | .m => s.codec.pkt.m.read.map Bool.toNat
  | .cc => s.codec.pkt.cc.read.map BitVec.toNat
  | .pt => s.codec.pkt.pt.read.map BitVec.toNat
  | .seq => s.codec.pkt.seq.read.map BitVec.toNat
  | .ts => s.codec.pkt.ts.read.map BitVec.toNat
  | .ssrc => s.codec.pkt.ssrc.read.map BitVec.toNat
  | .extProfile => s.codec.pkt.extProfile.read.map BitVec.toNat
  | .extLen => s.codec.pkt.extLen.read.map BitVec.toNat
  | .payLen => s.codec.pkt.payLen.read
  | .csrcOff => s.codec.pkt.csrcOff.read
  | .extOff => s.codec.pkt.extOff.read
  | .payOff => s.codec.pkt.payOff.read

/-- The instance after a host write of `v`, a value its register has bits for; a register the host cannot write keeps what it has. -/
def Codec.writeReg (c : Codec) (r : RegName) (v : Nat) : Codec :=
  match r with
  | .cmd | .result | .ctx => c
  | .cap => { c with cap := Reg.holding v }
  | .inLen => { c with inLen := Reg.holding v }
  | .p => c.withPkt { c.pkt with p := Reg.holding (decide (v = 1)) }
  | .x => c.withPkt { c.pkt with x := Reg.holding (decide (v = 1)) }
  | .m => c.withPkt { c.pkt with m := Reg.holding (decide (v = 1)) }
  | .cc => c.withPkt { c.pkt with cc := Reg.holding (BitVec.ofNat 4 v) }
  | .pt => c.withPkt { c.pkt with pt := Reg.holding (BitVec.ofNat 7 v) }
  | .seq => c.withPkt { c.pkt with seq := Reg.holding (BitVec.ofNat 16 v) }
  | .ts => c.withPkt { c.pkt with ts := Reg.holding (BitVec.ofNat 32 v) }
  | .ssrc => c.withPkt { c.pkt with ssrc := Reg.holding (BitVec.ofNat 32 v) }
  | .extProfile => c.withPkt { c.pkt with extProfile := Reg.holding (BitVec.ofNat 16 v) }
  | .extLen => c.withPkt { c.pkt with extLen := Reg.holding (BitVec.ofNat 16 v) }
  | .payLen => c.withPkt { c.pkt with payLen := Reg.holding v }
  | .csrcOff => c.withPkt { c.pkt with csrcOff := Reg.holding v }
  | .extOff => c.withPkt { c.pkt with extOff := Reg.holding v }
  | .payOff => c.withPkt { c.pkt with payOff := Reg.holding v }

/-! ## Memories -/

/-- Cells of a byte-addressed space: `WIRE_SIZE` or `TXPAY_SIZE` (20_memory.md R40, R43). -/
def State.byteSpaceSize (s : State) : ByteSpace → Nat
  | .wire => s.codec.wireSize
  | .txpay => s.params.txpaySize

/-- Cells of a word-addressed space: 15 or 65535 (R42). -/
def WordSpace.size : WordSpace → Nat
  | .txcsrc => Config.maxCsrc
  | .txext => Config.maxExtWords

/-- The contents of a byte-addressed space. -/
def Codec.bytesOf (c : Codec) : ByteSpace → Memory Byte
  | .wire => c.wire
  | .txpay => c.txpay

/-- The contents of a word-addressed space. -/
def Codec.wordsIn (c : Codec) : WordSpace → Memory Word
  | .txcsrc => c.txcsrc
  | .txext => c.txext

/-- `LD` of bytes: one host action, all cells or none (log 15). -/
def hostLoadBytes (sp : ByteSpace) (off : Nat) (bytes : List Byte) (s : State) : Out :=
  if bytes.length = 0 ∨ off + bytes.length ≤ s.byteSpaceSize sp then
    match sp with
    | .wire => .next (s.withCodec { s.codec with wire := s.codec.wire.writeN off bytes })
    | .txpay => .next (s.withCodec { s.codec with txpay := s.codec.txpay.writeN off bytes })
  else .fault .noSuchCell

/-- `LD` of words. -/
def hostLoadWords (sp : WordSpace) (off : Nat) (words : List Word) (s : State) : Out :=
  if words.length = 0 ∨ off + words.length ≤ sp.size then
    match sp with
    | .txcsrc => .next (s.withCodec { s.codec with txcsrc := s.codec.txcsrc.writeN off words })
    | .txext => .next (s.withCodec { s.codec with txext := s.codec.txext.writeN off words })
  else .fault .noSuchCell

/-- The host receives a value. -/
def receive (v : Nat) (s : State) : Out := .next (s.withReadData v)

/-- `RD` of a byte; a free one where nothing has written the cell (log 5). -/
def hostReadByte (sp : ByteSpace) (off : Nat) (s : State) : Out :=
  if off < s.byteSpaceSize sp then orFree (((s.codec.bytesOf sp).read off).map BitVec.toNat) 8 receive s
  else .fault .noSuchCell

/-- `RD` of a word; a free one where nothing has written the cell (log 5). -/
def hostReadWord (sp : WordSpace) (off : Nat) (s : State) : Out :=
  if off < sp.size then orFree (((s.codec.wordsIn sp).read off).map BitVec.toNat) 32 receive s
  else .fault .noSuchCell

/-- Bytes of `WIRE` one element of a view takes (20_memory.md R49). -/
def View.elementSize : View → Nat
  | .csrc => 4
  | .ext => 4
  | .payload => 1

/-- Bits of the register that holds the number of elements of a view (10_state.md R20, R26, R27). -/
def View.countWidth (lenW : Nat) : View → Nat
  | .csrc => 4
  | .ext => 16
  | .payload => lenW

/-- The value of element `i` of a view that starts at `off`: `rdBE32(WIRE, off + 4*i)`, which refuses a cell without a value (40_word_codec.md R90), or the host's read of one payload byte (20_memory.md R49). -/
def hostReadElement (v : View) (off i : Nat) (s : State) : Out :=
  if s.codec.wireHas (off + v.elementSize * i) v.elementSize then
    match v with
    | .csrc | .ext => need (viewElement s.codec.wire v off i) fun value => receive value s
    | .payload => orFree (viewElement s.codec.wire v off i) 8 receive s
  else .fault .noSuchCell

/-- Read element `i` of a view (20_memory.md R49): the host reads the view's two registers and then the element. -/
def hostReadView (v : View) (i : Nat) (s : State) : Out :=
  orFree (s.codec.pkt.viewCount v) (v.countWidth s.params.lenW) (fun n s =>
    if i < n then
      orFree (s.codec.pkt.viewOffset v) s.params.lenW (fun off s => hostReadElement v off i s) s
    else .fault .noSuchElement) s

/-- The contents of a buffer, cell by cell. -/
def bufferContents (cells : List (Nat × Byte)) : Memory Byte :=
  cells.foldl (fun m e => m.write e.1 e.2) []

/-- Point `WIRE` at another buffer (20_memory.md R40): its size and its contents change together. -/
def hostRepoint (size : Nat) (cells : List (Nat × Byte)) (s : State) : Out :=
  if s.params.maxLen < size then .refused .valueTooWide
  else if cells.all fun e => decide (e.1 < size) then
    .next (s.withCodec { s.codec with wire := bufferContents cells, wireSize := size })
  else .fault .noSuchCell

/-! ## Instances and reset -/

/-- Address the next actions to instance `k` (60_exceptions.md R166): its own state takes the place of the active one, which is put away under its number. -/
def hostSelect (k : Nat) (s : State) : Out :=
  if k = s.active then .next s
  else match s.parked.read k with
    | some c =>
      .next { s with active := k, codec := c, parked := (s.parked.erase k).write s.active s.codec }
    | none => .fault .noSuchCodec

/-- An instance after the reset: no register and no cell holds a value (10_state.md R34); the buffer the platform has put behind `WIRE` keeps its size. -/
def Codec.afterReset (c : Codec) : Codec := Codec.reset c.wireSize

/-- The reset event (70_reset_and_hazards.md R170), between commands only. It reaches every instance and the shared context (log 19). -/
def hostReset (s : State) : Out :=
  if s.running = [] then
    .next { s with
      ctxInit := false
      codec := s.codec.afterReset
      parked := s.parked.map fun e => (e.1, e.2.afterReset) }
  else .refused .resetInCommand

/-! ## Fetch -/

/-- What the host's oldest action comes to: an instruction to run, or an outcome of its own. -/
inductive Fetched where
  /-- run `i` in `s` -/
  | run (i : Instr) (s : State)
  /-- the action was no instruction; this is its outcome -/
  | ended (o : Out)

/-- The instruction some bytes are at a port, or a refusal (log 9). A one-byte word at `CMD` always is one. -/
def fetchDecoded (port : Port) (bytes : List Byte) (s : State) : Fetched :=
  match decode s.params.lenW port bytes with
  | .ok i => .run i s
  | .error _ => .ended (.refused .notAnImage)

/-- The load of one section's image (log 9). A command word is no section: it goes through `CMD`. -/
def hostImage (port : Port) (bytes : List Byte) (s : State) : Fetched :=
  if port = .cmd then .ended (.refused .notAnImage) else fetchDecoded port bytes s

/-- A host write to the register of number `n`; a write to `CMD` issues the command it encodes (10_state.md R11). -/
def hostWrite (n v : Nat) (s : State) : Fetched :=
  match RegName.ofNumber n with
  | none => .ended (.fault .noSuchRegister)
  | some r =>
    if 2 ^ r.width s.params.lenW ≤ v then .ended (.refused .valueTooWide)
    else if r = .cmd then fetchDecoded .cmd [BitVec.ofNat 8 v] s
    else if r.hostWritable then .ended (.next (s.withCodec (s.codec.writeReg r v)))
    else .ended (.refused .hostReadOnly)

/-- A host read of the register of number `n`: the value it holds, a free one where nothing has written it (log 5). A read of `CMD` "returns no value (refusal `UnwrittenRead`)" (10_state.md R11). -/
def hostRead (n : Nat) (s : State) : Out :=
  match RegName.ofNumber n with
  | none => .fault .noSuchRegister
  | some r =>
    if r = .cmd then .refused .unwrittenRead
    else orFree (s.readReg r) (r.width s.params.lenW) receive s

/-- The issue of an INIT that is not waited for (70_reset_and_hazards.md R178, log 18). -/
def hostBeginInit (w : Byte) (s : State) : Out :=
  match decodeCmd w with
  | .init _ => .next (s.withRunning (s.running.write s.active w))
  | _ => .refused .noOverlappedInit

/-- The end of the INIT that runs on the active instance: there it has its effect. -/
def hostEndInit (s : State) : Fetched :=
  match s.running.read s.active with
  | some w => .run (decodeCmd w) (s.withRunning (s.running.erase s.active))
  | none => .ended (.refused .noOverlappedInit)

/-- Between the issue of a command and its end the host can neither read nor write any state of that instance (70_reset_and_hazards.md R186). -/
def unlessBusy (s : State) (f : Fetched) : Fetched :=
  match s.running.read s.active with
  | some _ => .ended (.refused .codecBusy)
  | none => f

/-- One host action. -/
def hostAction (a : HostAction) (s : State) : Fetched :=
  match a with
  | .wr n v => unlessBusy s (hostWrite n v s)
  | .rd n => unlessBusy s (.ended (hostRead n s))
  | .ldBytes sp off bytes => unlessBusy s (.ended (hostLoadBytes sp off bytes s))
  | .ldWords sp off words => unlessBusy s (.ended (hostLoadWords sp off words s))
  | .rdByte sp off => unlessBusy s (.ended (hostReadByte sp off s))
  | .rdWord sp off => unlessBusy s (.ended (hostReadWord sp off s))
  | .rdView v i => unlessBusy s (.ended (hostReadView v i s))
  | .image port bytes => unlessBusy s (hostImage port bytes s)
  | .repoint size cells => unlessBusy s (.ended (hostRepoint size cells s))
  | .select k => .ended (hostSelect k s)
  | .beginInit w => unlessBusy s (.ended (hostBeginInit w s))
  | .endInit => hostEndInit s
  | .reset => .ended (hostReset s)

/-- Take the host's oldest pending action. With nothing pending the block stays as it is (log 1). -/
def fetch (s : State) : Fetched :=
  match s.host with
  | [] => .ended (.next s)
  | a :: rest => hostAction a (s.withHost rest)

/-- The host action that brings a table row's word to the block: a write of `CMD`, or the image of a fixed header. -/
def actionOfTableWord (nbits w : Nat) : HostAction :=
  if nbits ≤ 8 then .wr 0 (w % 256) else .image .fixed (bytesOfTableWord 12 w)

/-- The state whose next step runs a table row's word: the action stands first in the host's queue, and the active instance is not inside a command. -/
def placeTableWord (s : State) (nbits w : Nat) : State :=
  (s.withHost (actionOfTableWord nbits w :: s.host)).withRunning (s.running.erase s.active)

end Sys2Proof.Machine
end

