-- ==== Sys2Proof/Safety.lean ====
section
/-! DEFINITION. What claims are stated in: the invariant of the machine's state, the part of a state that can be seen, runs and safe states. -/

namespace Sys2Proof.Machine

/-- The length and offset registers of an instance hold `LEN_W`-bit numbers (00_scope.md R4). -/
def Codec.lengthsFit (p : Params) (c : Codec) : Bool :=
  decide (c.cap.val ≤ p.maxLen) && decide (c.inLen.val ≤ p.maxLen) && decide (c.pkt.payLen.val ≤ p.maxLen)
    && decide (c.pkt.csrcOff.val ≤ p.maxLen) && decide (c.pkt.extOff.val ≤ p.maxLen)
    && decide (c.pkt.payOff.val ≤ p.maxLen)

/-- The four memories of an instance are in canonical form and list only cells that exist (20_memory.md R40, R42, R43). -/
def Codec.memoriesFit (p : Params) (c : Codec) : Bool :=
  Memory.wf c.wire && Memory.within c.wireSize c.wire && decide (c.wireSize ≤ p.maxLen)
    && Memory.wf c.txcsrc && Memory.within Config.maxCsrc c.txcsrc
    && Memory.wf c.txext && Memory.within Config.maxExtWords c.txext
    && Memory.wf c.txpay && Memory.within p.txpaySize c.txpay

/-- One instance's part of the invariant. -/
def Codec.sound (p : Params) (c : Codec) : Bool := c.lengthsFit p && c.memoriesFit p

/-- Whether a command word is an INIT. -/
def isInitWord (w : Byte) : Bool :=
  match decodeCmd w with
  | .init _ => true
  | _ => false

/-- The invariant of the machine: the parameters meet R4's constraints, every instance is sound, the instances are numbered `0 .. N_CODEC-1` with the active one apart (60_exceptions.md R166), and what runs on an instance is an INIT. -/
def State.sound (s : State) : Bool :=
  s.params.ok && s.codec.sound s.params
    && s.parked.all (fun e => e.2.sound s.params && decide (e.1 < s.params.nCodec) && decide (e.1 ≠ s.active))
    && Memory.wf s.parked && decide (s.parked.length + 1 = s.params.nCodec)
    && decide (s.active < s.params.nCodec)
    && Memory.wf s.running
    && s.running.all (fun e => decide (e.1 < s.params.nCodec) && isInitWord e.2)

/-! ## What can be seen of a state -/

/-- A register with the stored value of an unwritten one replaced (10_state.md R33: it holds no value). -/
def Reg.forget {α : Type} (stored : α) (r : Reg α) : Reg α :=
  if r.written then r else Reg.unwritten stored

/-- The packet registers without the values no one wrote. -/
def Pkt.forget (p : Pkt) : Pkt where
  p := p.p.forget false
  x := p.x.forget false
  m := p.m.forget false
  cc := p.cc.forget 0
  pt := p.pt.forget 0
  seq := p.seq.forget 0
  ts := p.ts.forget 0
  ssrc := p.ssrc.forget 0
  extProfile := p.extProfile.forget 0
  extLen := p.extLen.forget 0
  payLen := p.payLen.forget 0
  csrcOff := p.csrcOff.forget 0
  extOff := p.extOff.forget 0
  payOff := p.payOff.forget 0

/-- An instance without the values no one wrote. -/
def Codec.forget (c : Codec) : Codec :=
  { c with
    result := c.result.forget .ok
    cap := c.cap.forget 0
    inLen := c.inLen.forget 0
    pkt := c.pkt.forget }

/-- A state without the values no one wrote. -/
def State.forget (s : State) : State :=
  { s with codec := s.codec.forget, parked := s.parked.map fun e => (e.1, e.2.forget) }

/-- An outcome with its next state replaced. -/
def mapNext (f : State → State) (o : Out) : Out :=
  match o with
  | .next s => .next (f s)
  | .fault r => .fault r
  | .refused r => .refused r

/-! ## Runs -/

/-- `t` is reached from `s` by steps that answer a next state. -/
inductive Reaches : State → State → Prop where
  | here (s : State) : Reaches s s
  | step {s t u : State} : step s = .next t → Reaches t u → Reaches s u

/-- A state from which no run comes to a fault: everything the host accesses exists. -/
def SafeFrom (s : State) : Prop := ∀ t, Reaches s t → ∀ f, step t ≠ .fault f

end Sys2Proof.Machine
end

