-- ==== Sys2Proof/Certificates/Slice0/Obligations.lean ====
section
/-! DEFINITION. The statements for the provers. Each docstring names the rule of spec/ a statement formalises; where a clause rests on a choice of the model or of the spec (a decision D<n> of 92_eei_decisions.md), it says so. -/

open Sys2Proof Sys2Proof.Machine

namespace Sys2Proof.Machine

/-! ## What the statements are written in -/

/-- A bit as a number. -/
def bit (b : Bool) : Nat := if b then 1 else 0

/-- The commands of 30_encoding.md R71 and R75. -/
def isCommand : Instr → Bool
  | .init _ | .serialize _ | .sizeq | .deserialize _ => true
  | _ => false

/-- A command that meets the race of 70_reset_and_hazards.md R178 in `s`: an INIT never does. -/
def meetsRace (i : Instr) (s : State) : Bool :=
  match i with
  | .serialize _ | .sizeq | .deserialize _ => s.initRace
  | _ => false

/-- No register and no cell of the instance holds a value (10_state.md R33, R34). -/
def HoldsNothing (c : Codec) : Prop :=
  c.result.read = none ∧ c.cap.read = none ∧ c.inLen.read = none
  ∧ c.pkt.p.read = none ∧ c.pkt.x.read = none ∧ c.pkt.m.read = none ∧ c.pkt.cc.read = none
  ∧ c.pkt.pt.read = none ∧ c.pkt.seq.read = none ∧ c.pkt.ts.read = none ∧ c.pkt.ssrc.read = none
  ∧ c.pkt.extProfile.read = none ∧ c.pkt.extLen.read = none ∧ c.pkt.payLen.read = none
  ∧ c.pkt.csrcOff.read = none ∧ c.pkt.extOff.read = none ∧ c.pkt.payOff.read = none
  ∧ (∀ a, c.wire.read a = none) ∧ (∀ a, c.txcsrc.read a = none) ∧ (∀ a, c.txext.read a = none)
  ∧ (∀ a, c.txpay.read a = none)

/-- `t` is `s` but for `WIRE`, and there only the `n` cells from `off` on differ. -/
def OnlyWireCells (s t : State) (off n : Nat) : Prop :=
  t = { s with codec := { s.codec with wire := t.codec.wire } }
  ∧ ∀ a, ¬ (off ≤ a ∧ a < off + n) → t.codec.wire.read a = s.codec.wire.read a

/-- `t` is `s` but for `RESULT`, which holds `k`: what a failure does (60_exceptions.md R155). -/
def OnlyResult (s t : State) (k : ResultKind) : Prop :=
  t = { s with codec := { s.codec with result := Reg.holding k } }

/-- Every cause of BAD_PARAM (60_exceptions.md R151). -/
def BadParamCause (i : Instr) (s : State) : Prop :=
  match i with
  | .init p => p.c = false
  | .serialize p => p.c = false ∨ p.k = false ∨ p.l = false ∨ (p.b = true ∧ s.codec.cap.read = some 0)
  | .deserialize p => p.c = false ∨ p.b = false ∨ p.k = false ∨ ∃ n, s.codec.inLen.read = some n ∧ n < 12
  | _ => False

/-- A SERIALIZE with a buffer that has come past its parameter checks, the context check and the length check (42_serialize.md R110 to R113), with required length `req` and capacity `cap`. -/
def SerializePast (i : Instr) (s : State) (req cap : Nat) : Prop :=
  i = .serialize { c := true, k := true, b := true, l := true } ∧ s.ctxInit = true
  ∧ s.codec.cap.read = some cap ∧ cap ≠ 0 ∧ s.codec.pkt.requiredLength = some req ∧ req ≤ s.params.maxLen

/-- A SERIALIZE that has come past the capacity check and the bounds as well (R115, R116), with payload length `len`. -/
def SerializeOpen (i : Instr) (s : State) (req cap len : Nat) : Prop :=
  SerializePast i s req cap ∧ req ≤ cap ∧ req ≤ s.codec.wireSize
  ∧ s.codec.pkt.payLen.read = some len ∧ len ≤ s.params.txpaySize

/-- The padding of the packet to be emitted is consistent (R116). -/
def PaddingConsistent (s : State) (len : Nat) : Prop :=
  ∃ p, s.codec.pkt.p.read = some p
    ∧ (p = true → 0 < len → ∃ last, s.codec.txpay.read (len - 1) = some last ∧ 1 ≤ last.toNat ∧ last.toNat ≤ len)

/-- The padding of the packet to be emitted is inconsistent (R116). -/
def PaddingInconsistent (s : State) (len : Nat) : Prop :=
  s.codec.pkt.p.read = some true ∧ 0 < len
    ∧ ∃ last, s.codec.txpay.read (len - 1) = some last ∧ (last.toNat < 1 ∨ len < last.toNat)

/-- A DESERIALIZE that has come past its parameter checks, the context check and the bound (43_deserialize.md R130 to R132), with input length `n`. -/
def DeserializePast (i : Instr) (s : State) (n : Nat) : Prop :=
  (∃ p : Present, i = .deserialize p ∧ p.c = true ∧ p.b = true ∧ p.k = true)
  ∧ s.codec.inLen.read = some n ∧ 12 ≤ n ∧ s.ctxInit = true ∧ n ≤ s.codec.wireSize

/-- The first twelve cells of `WIRE` hold a header of version 2 with the fields of `h`, field by field as 30_encoding.md R60 places them. -/
def WireHolds (m : Memory Byte) (h : Header) : Prop :=
  ∃ b0 b1, m.read 0 = some b0 ∧ m.read 1 = some b1
    ∧ b0.toNat = 2 * 64 + bit h.p * 32 + bit h.x * 16 + h.cc.toNat
    ∧ b1.toNat = bit h.m * 128 + h.pt.toNat
    ∧ m.readBE16 2 = some h.seq ∧ m.readBE32 4 = some h.ts ∧ m.readBE32 8 = some h.ssrc

/-- What the extension section of a received packet declares (43_deserialize.md R136, R137): profile, length-in-words, and the offset of its data. Without an extension profile and length are 0, the spec's choice D10. -/
def ExtDeclared (m : Memory Byte) (h : Header) (profile extLen : Half) (extOff : Nat) : Prop :=
  if h.x then
    m.readBE16 (12 + 4 * h.cc.toNat) = some profile ∧ m.readBE16 (12 + 4 * h.cc.toNat + 2) = some extLen
      ∧ extOff = 12 + 4 * h.cc.toNat + 4
  else profile = 0 ∧ extLen = 0 ∧ extOff = 12 + 4 * h.cc.toNat

/-- Every cause of MALFORMED_PACKET (60_exceptions.md R154): (a) to (d) of DESERIALIZE, (e) of SERIALIZE. -/
def MalformedCause (i : Instr) (s : State) : Prop :=
  (∃ n h, DeserializePast i s n ∧ WireHolds s.codec.wire h
    ∧ ((0 < h.cc.toNat ∧ n < 12 + 4 * h.cc.toNat)
      ∨ (12 + 4 * h.cc.toNat ≤ n ∧ h.x = true ∧ n < 12 + 4 * h.cc.toNat + 4)
      ∨ (∃ profile extLen extOff, ExtDeclared s.codec.wire h profile extLen extOff ∧ h.x = true ∧ extOff ≤ n
          ∧ n < extOff + 4 * extLen.toNat)
      ∨ (∃ profile extLen extOff pad, ExtDeclared s.codec.wire h profile extLen extOff
          ∧ h.p = true ∧ extOff + 4 * extLen.toNat < n ∧ s.codec.wire.read (n - 1) = some pad
          ∧ (pad.toNat < 1 ∨ n - (extOff + 4 * extLen.toNat) < pad.toNat))))
  ∨ (∃ req cap len, SerializeOpen i s req cap len ∧ PaddingInconsistent s len)

/-- A register that the required length is computed from holds no value (42_serialize.md R112): `PKT.EXT_LEN` counts only when `PKT.X = 1`. -/
def LengthUnwritten (r : Pkt) : Prop :=
  r.x.read = none ∨ r.cc.read = none ∨ r.payLen.read = none ∨ (r.x.read = some true ∧ r.extLen.read = none)

/-- The registers that the required length is computed from hold values, and `req` is what they give (42_serialize.md R112). -/
def LengthWritten (r : Pkt) (req : Nat) : Prop :=
  ∃ (x : Bool) (cc : BitVec 4) (len : Nat) (n : Half), r.x.read = some x ∧ r.cc.read = some cc ∧ r.payLen.read = some len
    ∧ (x = true → r.extLen.read = some n) ∧ req = 12 + 4 * cc.toNat + (if x then 4 + 4 * n.toNat else 0) + len

/-- Everything `SERIALIZE C,K,B,L` may read has been written (70_reset_and_hazards.md R173). -/
def SerializeReadSetWritten (c : Codec) : Prop :=
  c.cap.read ≠ none ∧ c.pkt.p.read ≠ none ∧ c.pkt.m.read ≠ none ∧ c.pkt.pt.read ≠ none ∧ c.pkt.seq.read ≠ none
  ∧ c.pkt.ts.read ≠ none ∧ c.pkt.ssrc.read ≠ none
  ∧ (∀ cc k, c.pkt.cc.read = some cc → k < cc.toNat → c.txcsrc.read k ≠ none)
  ∧ (∀ len j, c.pkt.payLen.read = some len → j < len → c.txpay.read j ≠ none)
  ∧ (c.pkt.x.read = some true → c.pkt.extProfile.read ≠ none
      ∧ ∀ n k, c.pkt.extLen.read = some n → k < n.toNat → c.txext.read k ≠ none)

/-- The pad count a DESERIALIZE takes off the region that starts at `payOff` (43_deserialize.md R139): nothing for an empty region or a clear padding flag. -/
def PadTaken (m : Memory Byte) (h : Header) (payOff n d : Nat) : Prop :=
  if h.p = true ∧ payOff < n then
    ∃ pad, m.read (n - 1) = some pad ∧ 1 ≤ pad.toNat ∧ pad.toNat ≤ n - payOff ∧ d = pad.toNat
  else d = 0

end Sys2Proof.Machine

/-! ## Reset -/

/-- 10_state.md R34: after reset `CTX.INIT = 0`, and every other register and every cell holds no value, on every instance and for every value of the parameters. (R34 is the spec's decision D13.) -/
def Obligations.ResetHoldsNothing : Prop :=
  ∀ p : Params, (State.resetWith p).ctxInit = false ∧ HoldsNothing (State.resetWith p).codec
    ∧ ∀ k c, (k, c) ∈ (State.resetWith p).parked → HoldsNothing c

/-- 70_reset_and_hazards.md R170: applying the reset between commands brings the state to R34's values. That the one reset reaches every instance is the model's reading (DESIGN CHOICE, log 19, its unsafe point), and so is the refusal while an INIT runs ("no defined effect", log 19); that every buffer keeps its size is the model's as well (log 4). The instances keep their numbers, and no parameter changes. -/
def Obligations.ResetActionBringsResetValues : Prop :=
  ∀ (s : State) (rest : List HostAction), s.host = .reset :: rest →
    (s.running = [] → ∃ t, step s = .next t ∧ t.ctxInit = false ∧ HoldsNothing t.codec
      ∧ (∀ k c, (k, c) ∈ t.parked → HoldsNothing c)
      ∧ t.parked.map (fun e => (e.1, e.2.wireSize)) = s.parked.map (fun e => (e.1, e.2.wireSize))
      ∧ t.params = s.params ∧ t.active = s.active
      ∧ t.codec.wireSize = s.codec.wireSize ∧ t.host = rest ∧ t.running = [])
    ∧ (s.running ≠ [] → step s = .refused .resetInCommand)

/-! ## Encoding -/

/-- The command words of 95_test_vectors.md section 2.2, V-C1 to V-C13 in order, every word of each, and the header bytes of its scenario S1, decode to what they stand for. (Which of the two reserved rows a word with `OP = 00` and bits 7:6 not `00` falls under is the model's, log 7; no word here is one.) -/
def Obligations.TestVectorWordsDecode : Prop :=
  decodeCmd 0x05 = .init { c := true, k := false, b := false, l := false }
  ∧ decodeCmd 0x01 = .init { c := false, k := false, b := false, l := false }
  ∧ decodeCmd 0x3D = .init { c := true, k := true, b := true, l := true }
  ∧ decodeCmd 0x3E = .serialize { c := true, k := true, b := true, l := true }
  ∧ decodeCmd 0x2E = .sizeq
  ∧ decodeCmd 0x3A = .serialize { c := false, k := true, b := true, l := true }
  ∧ decodeCmd 0x36 = .serialize { c := true, k := false, b := true, l := true }
  ∧ decodeCmd 0x1E = .serialize { c := true, k := true, b := true, l := false }
  ∧ decodeCmd 0x1F = .deserialize { c := true, k := true, b := true, l := false }
  ∧ decodeCmd 0x3F = .deserialize { c := true, k := true, b := true, l := true }
  ∧ decodeCmd 0x0F = .deserialize { c := true, k := true, b := false, l := false }
  ∧ decodeCmd 0x00 = .reservedOp00 { c := false, k := false, b := false, l := false }
  ∧ decodeCmd 0x04 = .reservedOp00 { c := true, k := false, b := false, l := false }
  ∧ decodeCmd 0x3C = .reservedOp00 { c := true, k := true, b := true, l := true }
  ∧ decodeCmd 0x45 = .reservedHighBits 0x45
  ∧ decodeCmd 0x81 = .reservedHighBits 0x81
  ∧ decodeCmd 0xFF = .reservedHighBits 0xFF
  ∧ decode 32 .fixed [0x80, 0x60, 0x04, 0xD2, 0x12, 0x34, 0x56, 0x78, 0x87, 0x65, 0x43, 0x21]
      = .ok (.fixed { p := false, x := false, cc := 0, m := false, pt := 96, seq := 1234,
                      ts := 0x12345678, ssrc := 0x87654321 })

/-- Decode and encode agree, for every well-formed instruction of every family: the decoder reads the encoder's bytes, at the encoder's port, back to the instruction; only the four internal primitives have no bytes ("internal primitive, no command code", 40_word_codec.md). -/
def Obligations.DecodeOfEncodeIsTheInstruction : Prop :=
  ∀ (lenW : Nat) (i : Instr), i.wellFormed lenW = true →
    (∃ port bytes, encode i = some (port, bytes) ∧ decode lenW port bytes = .ok i)
    ∨ (encode i = none ∧ ((∃ a, i = .rdBE32 a) ∨ (∃ v a, i = .wrBE32 v a) ∨ (∃ a, i = .rdBE16 a)
        ∨ (∃ h a, i = .wrBE16 h a)))

/-- The other direction, for any bytes at any port: what the decoder accepts is a well-formed instruction, and its encoding is those bytes at that port. So no two byte strings mean the same instruction. -/
def Obligations.EncodeOfDecodeIsTheBytes : Prop :=
  ∀ (lenW : Nat) (port : Port) (bytes : List Byte) (i : Instr), decode lenW port bytes = .ok i →
    i.wellFormed lenW = true ∧ encode i = some (port, bytes)

/-- 30_encoding.md R72: every byte with `OP = 00` or bits 7:6 not `00`, written to `CMD`, is refused, in every state whose active instance is not inside a command; no other byte is refused under that name. (The command word is the spec's decision D3, the refusal D15.) -/
def Obligations.ReservedWordsAreRefused : Prop :=
  ∀ (s : State) (v : Nat) (rest : List HostAction), s.host = .wr 0 v :: rest → v < 256 →
    s.running.read s.active = none →
    (step s = .refused .reservedCommand ↔ (v % 4 = 0 ∨ 64 ≤ v))

/-- Both reserved rows of the opcode table stop in every state: "it is refused (`ReservedCommand`)" (R72). -/
def Obligations.ReservedRowsStop : Prop :=
  ∀ (s : State) (p : Present) (w : Byte),
    exec (.reservedOp00 p) s = .refused .reservedCommand ∧ exec (.reservedHighBits w) s = .refused .reservedCommand

/-! ## Word Codec -/

/-- 40_word_codec.md R90: `rdBE32` hands out `S[a]*2^24 + S[a+1]*2^16 + S[a+2]*2^8 + S[a+3]` and writes no state; a cell that holds no value makes the read a refusal. (`readData`, where the value is handed out, is the model's, log 8.) -/
def Obligations.RdBE32HandsOutTheWord : Prop :=
  ∀ (s : State) (a : Nat), a + 4 ≤ s.codec.wireSize →
    (∀ b0 b1 b2 b3, s.codec.wire.read a = some b0 → s.codec.wire.read (a + 1) = some b1 →
      s.codec.wire.read (a + 2) = some b2 → s.codec.wire.read (a + 3) = some b3 →
      exec (.rdBE32 a) s = .next { s with
        readData := b0.toNat * 2 ^ 24 + b1.toNat * 2 ^ 16 + b2.toNat * 2 ^ 8 + b3.toNat })
    ∧ (∀ i, i < 4 → s.codec.wire.read (a + i) = none → exec (.rdBE32 a) s = .refused .unwrittenRead)

/-- 40_word_codec.md R92: `rdBE16` hands out `S[a]*256 + S[a+1]`, the matching half of the enclosing `rdBE32`, and writes no state. (The primitive is the spec's decision D19.) -/
def Obligations.RdBE16HandsOutTheHalf : Prop :=
  ∀ (s : State) (a : Nat), a + 2 ≤ s.codec.wireSize →
    (∀ b0 b1, s.codec.wire.read a = some b0 → s.codec.wire.read (a + 1) = some b1 →
      exec (.rdBE16 a) s = .next { s with readData := b0.toNat * 256 + b1.toNat })
    ∧ (∀ v : Word, s.codec.wire.readBE32 a = some v →
        s.codec.wire.readBE16 a = some (v.extractLsb' 16 16)
        ∧ s.codec.wire.readBE16 (a + 2) = some (v.extractLsb' 0 16))
    ∧ (∀ i, i < 2 → s.codec.wire.read (a + i) = none → exec (.rdBE16 a) s = .refused .unwrittenRead)

/-- 40_word_codec.md R91: `wrBE32` makes the four cells the value's bytes, most significant first, whatever they held, and changes nothing else. -/
def Obligations.WrBE32WritesFourCells : Prop :=
  ∀ (s : State) (v : Word) (a : Nat), a + 4 ≤ s.codec.wireSize →
    ∃ t, exec (.wrBE32 v a) s = .next t ∧ OnlyWireCells s t a 4
      ∧ t.codec.wire.read a = some (v.extractLsb' 24 8) ∧ t.codec.wire.read (a + 1) = some (v.extractLsb' 16 8)
      ∧ t.codec.wire.read (a + 2) = some (v.extractLsb' 8 8) ∧ t.codec.wire.read (a + 3) = some (v.extractLsb' 0 8)

/-- 40_word_codec.md R93: `wrBE16` makes the two cells the value's bytes and changes nothing else, and two adjacent `wrBE16` are one `wrBE32` of the concatenation. (The primitive is the spec's decision D19.) -/
def Obligations.WrBE16WritesTwoCells : Prop :=
  ∀ (s : State) (h l : Half) (a : Nat),
    (a + 2 ≤ s.codec.wireSize → ∃ t, exec (.wrBE16 h a) s = .next t ∧ OnlyWireCells s t a 2
      ∧ t.codec.wire.read a = some (h.extractLsb' 8 8) ∧ t.codec.wire.read (a + 1) = some (h.extractLsb' 0 8))
    ∧ (a + 4 ≤ s.codec.wireSize → ∃ t u, exec (.wrBE16 h a) s = .next t ∧ exec (.wrBE16 l (a + 2)) t = .next u
        ∧ exec (.wrBE32 (h ++ l : Word) a) s = .next u)

/-- 40_word_codec.md R94 (d): the primitives are inverse to each other: a read after a write hands out the value written, and writing back what was read changes nothing of the machine, memory in its canonical form. -/
def Obligations.WordCodecPairsAreInverse : Prop :=
  ∀ (s : State) (a : Nat),
    (∀ (v : Word) (t : State), exec (.wrBE32 v a) s = .next t →
      exec (.rdBE32 a) t = .next { t with readData := v.toNat })
    ∧ (∀ (h : Half) (t : State), exec (.wrBE16 h a) s = .next t →
      exec (.rdBE16 a) t = .next { t with readData := h.toNat })
    ∧ (Memory.wf s.codec.wire = true → ∀ (v : Word) (t : State), exec (.rdBE32 a) s = .next t →
      t.readData = v.toNat → exec (.wrBE32 v a) s = .next s)
    ∧ (Memory.wf s.codec.wire = true → ∀ (h : Half) (t : State), exec (.rdBE16 a) s = .next t →
      t.readData = h.toNat → exec (.wrBE16 h a) s = .next s)

/-- The model's choice (log 16): a Word Codec primitive whose cells do not all exist faults, and so does a wire format that does not fit the buffer. -/
def Obligations.CellsThatDoNotExistFault : Prop :=
  ∀ (s : State) (a : Nat) (v : Word) (h : Half),
    (s.codec.wireSize < a + 4 → exec (.rdBE32 a) s = .fault .noSuchCell ∧ exec (.wrBE32 v a) s = .fault .noSuchCell)
    ∧ (s.codec.wireSize < a + 2 → exec (.rdBE16 a) s = .fault .noSuchCell ∧ exec (.wrBE16 h a) s = .fault .noSuchCell)
    ∧ (∀ hd, s.codec.wireSize < 12 → exec (.fixed hd) s = .fault .noSuchCell)
    ∧ (∀ ids, ids ≠ [] → s.codec.wireSize < 12 + 4 * ids.length → exec (.csrc ids) s = .fault .noSuchCell)
    ∧ (∀ cc pr ws, s.codec.wireSize < 12 + 4 * cc.toNat + 4 + 4 * ws.length →
        exec (.ext cc pr ws) s = .fault .noSuchCell)
    ∧ (∀ cc n p bs, bs ≠ [] → s.codec.wireSize < payStart cc n + bs.length →
        exec (.payload cc n p bs) s = .fault .noSuchCell)

/-! ## Wire formats -/

/-- 30_encoding.md R60: the fixed header's twelve bytes, each field at its offset and bits, and nothing else changes. (That a format is run by itself is the model's, log 9.) -/
def Obligations.FixedLaysTheHeader : Prop :=
  ∀ (s : State) (h : Header), 12 ≤ s.codec.wireSize →
    ∃ t, exec (.fixed h) s = .next t ∧ OnlyWireCells s t 0 12 ∧ WireHolds t.codec.wire h

/-- 30_encoding.md R62: identifier `i` stands big-endian at offsets `12 + 4*i` to `12 + 4*i + 3`; an empty list occupies no bytes, whatever the buffer's size; nothing else changes. (That a format is run by itself is the model's, log 9.) -/
def Obligations.CsrcLaysTheList : Prop :=
  ∀ (s : State) (ids : List Word), (ids = [] ∨ 12 + 4 * ids.length ≤ s.codec.wireSize) →
    ∃ t, exec (.csrc ids) s = .next t ∧ OnlyWireCells s t 12 (4 * ids.length)
      ∧ ∀ i, i < ids.length → t.codec.wire.readBE32 (12 + 4 * i) = ids[i]?

/-- 30_encoding.md R63: from `E = 12 + 4*CC` on the profile, the number of data words, and the data words in order, all big-endian; nothing else changes. (That a format is run by itself is the model's, log 9.) -/
def Obligations.ExtLaysTheSection : Prop :=
  ∀ (s : State) (cc : BitVec 4) (profile : Half) (words : List Word), words.length ≤ 65535 →
    12 + 4 * cc.toNat + 4 + 4 * words.length ≤ s.codec.wireSize →
    ∃ t, exec (.ext cc profile words) s = .next t
      ∧ OnlyWireCells s t (12 + 4 * cc.toNat) (4 + 4 * words.length)
      ∧ t.codec.wire.readBE16 (12 + 4 * cc.toNat) = some profile
      ∧ t.codec.wire.readBE16 (12 + 4 * cc.toNat + 2) = some (BitVec.ofNat 16 words.length)
      ∧ ∀ i, i < words.length → t.codec.wire.readBE32 (12 + 4 * cc.toNat + 4 + 4 * i) = words[i]?

/-- 30_encoding.md R64: the payload-plus-padding region starts at `S = 12 + 4*CC + (X ? 4 + 4*N : 0)` and holds its bytes verbatim, in order; nothing else changes. (That a format is run by itself is the model's, log 9.) -/
def Obligations.PayloadLaysTheRegion : Prop :=
  ∀ (s : State) (cc : BitVec 4) (n : Option Half) (p : Bool) (bytes : List Byte) (start : Nat),
    start = (match n with | some n => 12 + 4 * cc.toNat + (4 + 4 * n.toNat) | none => 12 + 4 * cc.toNat) →
    (bytes = [] ∨ start + bytes.length ≤ s.codec.wireSize) →
    ∃ t, exec (.payload cc n p bytes) s = .next t ∧ OnlyWireCells s t start bytes.length
      ∧ ∀ j, j < bytes.length → t.codec.wire.read (start + j) = bytes[j]?

/-! ## INIT -/

/-- 41_init.md R101: with the context present INIT sets `CTX.INIT` to 1 and `RESULT` to 0 (OK); with it absent it sets `RESULT` to 1 (BAD_PARAM); nothing else is ever written, in any state and whatever its other bits are. (What "populates" becomes is the spec's decision D5.) -/
def Obligations.InitResult : Prop :=
  ∀ (s : State) (p : Present),
    (p.c = true → exec (.init p) s = .next { s with
      ctxInit := true, codec := { s.codec with result := Reg.holding .ok } })
    ∧ (p.c = false → exec (.init p) s = .next { s with codec := { s.codec with result := Reg.holding .badParam } })

/-- 41_init.md R102: a second successful INIT changes nothing; a failed INIT after a successful one leaves `CTX.INIT = 1`. -/
def Obligations.InitIsIdempotent : Prop :=
  ∀ (s t : State) (p q : Present), p.c = true → exec (.init p) s = .next t →
    (q.c = true → exec (.init q) t = .next t)
    ∧ (q.c = false → ∃ u, exec (.init q) t = .next u ∧ u.ctxInit = true)

/-- 30_encoding.md R71: "An ignored bit may be 0 or 1 and does not change what the command does": `K`, `B`, `L` of INIT, `L` of DESERIALIZE. (The use of the bits is the spec's decision D15.) -/
def Obligations.IgnoredBitsChangeNothing : Prop :=
  ∀ (s : State) (p q : Present),
    (p.c = q.c → exec (.init p) s = exec (.init q) s)
    ∧ (p.c = q.c → p.k = q.k → p.b = q.b → exec (.deserialize p) s = exec (.deserialize q) s)

/-! ## SERIALIZE -/

/-- 30_encoding.md R75: `SIZEQ` stands for `SERIALIZE C,K,L`. -/
def Obligations.SizeqIsSerializeWithoutBuffer : Prop :=
  ∀ s : State, exec .sizeq s = exec (.serialize { c := true, k := true, b := false, l := true }) s

/-- 42_serialize.md R112: the required length in natural-number arithmetic; with `PKT.X = 0` the extension registers play no part, written or not. -/
def Obligations.RequiredLengthFormula : Prop :=
  ∀ (r : Pkt) (cc : BitVec 4) (len : Nat), r.cc.read = some cc → r.payLen.read = some len →
    (∀ n : Half, r.x.read = some true → r.extLen.read = some n →
      r.requiredLength = some (12 + 4 * cc.toNat + (4 + 4 * n.toNat) + len))
    ∧ (r.x.read = some false → r.requiredLength = some (12 + 4 * cc.toNat + 0 + len))

/-- 42_serialize.md R114: past stages 1 to 3a, a SERIALIZE without a buffer, and SIZEQ, write the required length to `CAP` and OK to `RESULT` and touch nothing else, whatever `CAP` held (nothing included) and whatever the payload's last byte is. -/
def Obligations.SizingQueryReportsTheLength : Prop :=
  ∀ (s : State) (i : Instr) (req : Nat),
    (i = .sizeq ∨ i = .serialize { c := true, k := true, b := false, l := true }) →
    s.ctxInit = true → s.codec.pkt.requiredLength = some req → req ≤ s.params.maxLen →
    exec i s = .next { s with codec := { s.codec with cap := Reg.holding req, result := Reg.holding .ok } }

/-- 42_serialize.md R113, R111, 43_deserialize.md R131, 20_memory.md R56: the refusals of the commands, each where its stage is reached. (All are decisions of the spec: D6, D14.) -/
def Obligations.CommandsRefuseWhatTheSpecLeavesOpen : Prop :=
  ∀ (s : State),
    (∀ i, s.initRace = false → s.ctxInit = false →
      (i = .sizeq ∨ (∃ p : Present, i = .serialize p ∧ p.c = true ∧ p.k = true ∧ p.l = true
          ∧ (p.b = true → ∃ cap, s.codec.cap.read = some cap ∧ cap ≠ 0))
        ∨ (∃ (p : Present) (n : Nat), i = .deserialize p ∧ p.c = true ∧ p.k = true ∧ p.b = true
          ∧ s.codec.inLen.read = some n ∧ 12 ≤ n)) →
      exec i s = .refused .useBeforeInit)
    ∧ (∀ req, s.ctxInit = true → s.codec.pkt.requiredLength = some req → s.params.maxLen < req →
      exec .sizeq s = .refused .lengthOverflow
      ∧ (∀ cap, s.codec.cap.read = some cap → cap ≠ 0 →
          exec (.serialize { c := true, k := true, b := true, l := true }) s = .refused .lengthOverflow))
    ∧ (∀ i req cap len, SerializePast i s req cap → req ≤ cap → s.codec.pkt.payLen.read = some len →
      (s.codec.wireSize < req ∨ s.params.txpaySize < len) → exec i s = .refused .bufferBound)
    ∧ (∀ (p : Present) (n : Nat), p.c = true → p.k = true → p.b = true → s.ctxInit = true →
      s.codec.inLen.read = some n → 12 ≤ n → s.codec.wireSize < n → exec (.deserialize p) s = .refused .bufferBound)

/-- 42_serialize.md R121, R122: the packet an emission puts on the wire is made of exactly the registers and operand cells the rule names: all of them hold values, and they are the packet's fields. -/
def Obligations.EmissionOperands : Prop :=
  ∀ (c : Codec) (t : TxPacket), c.txPacket = some t ↔
    (c.pkt.p.read = some t.header.p ∧ c.pkt.x.read = some t.header.x ∧ c.pkt.cc.read = some t.header.cc
      ∧ c.pkt.m.read = some t.header.m ∧ c.pkt.pt.read = some t.header.pt ∧ c.pkt.seq.read = some t.header.seq
      ∧ c.pkt.ts.read = some t.header.ts ∧ c.pkt.ssrc.read = some t.header.ssrc
      ∧ t.csrc.length = t.header.cc.toNat ∧ (∀ i, i < t.header.cc.toNat → c.txcsrc.read i = t.csrc[i]?)
      ∧ c.pkt.payLen.read = some t.payload.length ∧ (∀ j, j < t.payload.length → c.txpay.read j = t.payload[j]?)
      ∧ (match t.ext with
         | none => t.header.x = false
         | some (profile, words) => t.header.x = true ∧ c.pkt.extProfile.read = some profile
             ∧ (∃ n : Half, c.pkt.extLen.read = some n ∧ words.length = n.toNat)
             ∧ ∀ i, i < words.length → c.txext.read i = words[i]?))

/-- 42_serialize.md R119: past its checks, with consistent padding and every operand holding a value, SERIALIZE completes: `RESULT` is OK, `CAP` holds the required length, which is the count of bytes written, cells `0 .. req-1` of `WIRE` are written. That cells from `req` on and all other state are unchanged is R120 and R41 with the spec's decision D20 (log 25). -/
def Obligations.EmissionCompletes : Prop :=
  ∀ (s : State) (i : Instr) (req cap len : Nat) (pk : TxPacket),
    SerializeOpen i s req cap len → PaddingConsistent s len → s.codec.txPacket = some pk →
    ∃ m, exec i s = .next { s with codec := { s.codec with
          wire := m, cap := Reg.holding req, result := Reg.holding .ok } }
      ∧ (∀ a, a < req → ∃ b, m.read a = some b) ∧ (∀ a, req ≤ a → m.read a = s.codec.wire.read a)

/-- 42_serialize.md R117, R118: what an emission puts on the wire and where: the fixed header with the values of the registers, identifier `i` of `TXCSRC` at `12 + 4*i`, with `PKT.X = 1` the profile, the length-in-words and word `i` of `TXEXT` at `E + 4 + 4*i`, and after the last section payload byte `j` of `TXPAY` verbatim. -/
def Obligations.EmissionLayout : Prop :=
  ∀ (s t : State) (i : Instr) (req cap len : Nat) (pk : TxPacket),
    SerializeOpen i s req cap len → PaddingConsistent s len → s.codec.txPacket = some pk → exec i s = .next t →
    ∃ h : Header, s.codec.pkt.p.read = some h.p ∧ s.codec.pkt.x.read = some h.x ∧ s.codec.pkt.cc.read = some h.cc
      ∧ s.codec.pkt.m.read = some h.m ∧ s.codec.pkt.pt.read = some h.pt ∧ s.codec.pkt.seq.read = some h.seq
      ∧ s.codec.pkt.ts.read = some h.ts ∧ s.codec.pkt.ssrc.read = some h.ssrc
      ∧ WireHolds t.codec.wire h
      ∧ (∀ k, k < h.cc.toNat → ∃ v, s.codec.txcsrc.read k = some v
          ∧ t.codec.wire.readBE32 (12 + 4 * k) = some v)
      ∧ (h.x = false → ∀ j, j < len → ∃ b, s.codec.txpay.read j = some b
          ∧ t.codec.wire.read (12 + 4 * h.cc.toNat + j) = some b)
      ∧ (h.x = true → ∃ profile n : Half, s.codec.pkt.extProfile.read = some profile
          ∧ s.codec.pkt.extLen.read = some n
          ∧ t.codec.wire.readBE16 (12 + 4 * h.cc.toNat) = some profile
          ∧ t.codec.wire.readBE16 (12 + 4 * h.cc.toNat + 2) = some n
          ∧ (∀ k, k < n.toNat → ∃ v, s.codec.txext.read k = some v
              ∧ t.codec.wire.readBE32 (12 + 4 * h.cc.toNat + 4 + 4 * k) = some v)
          ∧ ∀ j, j < len → ∃ b, s.codec.txpay.read j = some b
              ∧ t.codec.wire.read (12 + 4 * h.cc.toNat + 4 + 4 * n.toNat + j) = some b)

/-- 30_encoding.md R65: the wire an emission leaves is the one the four sections leave when they are laid one after the other, `FIXED`, `CSRC`, `EXT` when there is an extension, `PAYLOAD`. -/
def Obligations.EmissionIsTheFourSections : Prop :=
  ∀ (s t : State) (i : Instr) (req cap len : Nat) (pk : TxPacket),
    SerializeOpen i s req cap len → PaddingConsistent s len → s.codec.txPacket = some pk → exec i s = .next t →
    ∃ a b c d, exec (.fixed pk.header) s = .next a ∧ exec (.csrc pk.csrc) a = .next b
      ∧ (match pk.ext with
         | none => c = b ∧ exec (.payload pk.header.cc none pk.header.p pk.payload) c = .next d
         | some (profile, words) => exec (.ext pk.header.cc profile words) b = .next c
             ∧ exec (.payload pk.header.cc (some (BitVec.ofNat 16 words.length)) pk.header.p pk.payload) c = .next d)
      ∧ d.codec.wire = t.codec.wire

/-- 42_serialize.md R120, the table of writes per outcome, for every SERIALIZE and SIZEQ that answers a next state; on every row the packet registers, `IN_LEN`, `CTX` and the operand memories are unchanged. (That `CAP` and `WIRE` keep their contents on BAD_PARAM and MALFORMED_PACKET is the spec's decision D12, log 13; that an emission leaves the cells from `req` on alone is D20, log 25.) -/
def Obligations.SerializeWritesPerOutcome : Prop :=
  ∀ (s t : State) (i : Instr), (i = .sizeq ∨ ∃ p, i = .serialize p) → exec i s = .next t →
    OnlyResult s t .badParam ∨ OnlyResult s t .outOfMemory ∨ OnlyResult s t .malformedPacket
    ∨ (∃ req, s.codec.pkt.requiredLength = some req
        ∧ t = { s with codec := { s.codec with cap := Reg.holding req, result := Reg.holding .ok } }
        ∧ (i = .sizeq ∨ ∃ p : Present, i = .serialize p ∧ p.b = false))
    ∨ (∃ req, s.codec.pkt.requiredLength = some req
        ∧ t = { s with codec := { s.codec with
              wire := t.codec.wire, cap := Reg.holding req, result := Reg.holding .ok } }
        ∧ (∃ p : Present, i = .serialize p ∧ p.b = true)
        ∧ (∀ a, a < req → ∃ b, t.codec.wire.read a = some b)
        ∧ ∀ a, req ≤ a → t.codec.wire.read a = s.codec.wire.read a)

/-- 42_serialize.md R124 (a): sizing agrees with emission: if the sizing query of a descriptor sets `CAP = n`, a SERIALIZE of the same state that ends with OK writes exactly `n` bytes, those of the packet, to cells `0 .. n-1`, leaves every other cell alone (R120, the spec's decision D20, log 25) and sets `CAP = n`. That it ends with OUT_OF_MEMORY exactly when the capacity is below `n` is R115 with the order of checks of the spec's decision D25 (log 13, unsafe for a packet both too large and badly padded, which the clause covers). -/
def Obligations.SizingAgreesWithEmission : Prop :=
  ∀ (s t u : State) (n cap : Nat), exec .sizeq s = .next t → t.codec.cap.read = some n →
    s.codec.cap.read = some cap → cap ≠ 0 →
    exec (.serialize { c := true, k := true, b := true, l := true }) s = .next u →
    (u.codec.result.read = some .ok → u.codec.cap.read = some n ∧ n ≤ cap
      ∧ ∃ pk, s.codec.txPacket = some pk ∧ pk.bytes.length = n
        ∧ (∀ a, a < n → u.codec.wire.read a = pk.bytes[a]?)
        ∧ ∀ a, n ≤ a → u.codec.wire.read a = s.codec.wire.read a)
    ∧ (u.codec.result.read = some .outOfMemory ↔ cap < n)

/-! ## DESERIALIZE -/

/-- 43_deserialize.md R134 to R140: a packet whose every section lies inside the given length is decoded: OK, and all fourteen packet registers hold the header's fields, the extension's profile and length, the view offsets and the payload length with the pad bytes taken off; nothing else changes. (The values for sections the packet lacks are the spec's decision D10.) -/
def Obligations.DeserializeDecodes : Prop :=
  ∀ (s : State) (i : Instr) (n extOff d : Nat) (h : Header) (profile extLen : Half),
    DeserializePast i s n → WireHolds s.codec.wire h → ExtDeclared s.codec.wire h profile extLen extOff →
    extOff + 4 * extLen.toNat ≤ n → PadTaken s.codec.wire h (extOff + 4 * extLen.toNat) n d →
    exec i s = .next { s with codec := { s.codec with
      result := Reg.holding .ok
      pkt := {
        p := Reg.holding h.p, x := Reg.holding h.x, m := Reg.holding h.m, cc := Reg.holding h.cc
        pt := Reg.holding h.pt, seq := Reg.holding h.seq, ts := Reg.holding h.ts, ssrc := Reg.holding h.ssrc
        extProfile := Reg.holding profile, extLen := Reg.holding extLen
        payLen := Reg.holding (n - (extOff + 4 * extLen.toNat) - d)
        csrcOff := Reg.holding 12, extOff := Reg.holding extOff
        payOff := Reg.holding (extOff + 4 * extLen.toNat) } } }

/-- 43_deserialize.md R142, the table of writes per outcome, for every DESERIALIZE that answers a next state: a failure writes `RESULT` only, a success `RESULT` and the packet registers, each of which then holds a value. (That a failure leaves the packet registers alone is the spec's decision D11.) -/
def Obligations.DeserializeWritesPerOutcome : Prop :=
  ∀ (s t : State) (p : Present), exec (.deserialize p) s = .next t →
    OnlyResult s t .badParam ∨ OnlyResult s t .wrongVersion ∨ OnlyResult s t .malformedPacket
    ∨ (t = { s with codec := { s.codec with result := Reg.holding .ok, pkt := t.codec.pkt } }
        ∧ t.codec.pkt.p.written = true ∧ t.codec.pkt.x.written = true ∧ t.codec.pkt.m.written = true
        ∧ t.codec.pkt.cc.written = true ∧ t.codec.pkt.pt.written = true ∧ t.codec.pkt.seq.written = true
        ∧ t.codec.pkt.ts.written = true ∧ t.codec.pkt.ssrc.written = true ∧ t.codec.pkt.extProfile.written = true
        ∧ t.codec.pkt.extLen.written = true ∧ t.codec.pkt.payLen.written = true ∧ t.codec.pkt.csrcOff.written = true
        ∧ t.codec.pkt.extOff.written = true ∧ t.codec.pkt.payOff.written = true)

/-- 43_deserialize.md R145: the length identity of a successful DESERIALIZE, the pad count that was consumed added, and the three view offsets. (Of an empty view the offset, and with `X = 0` the 0 in `PKT.EXT_LEN` that the offsets are computed with, are the spec's decision D10: U11, U12, log 11, unsafe for a claim that reads these values.) -/
def Obligations.DecodedLengthsAddUp : Prop :=
  ∀ (s t : State) (p : Present) (n : Nat), exec (.deserialize p) s = .next t → t.codec.result.read = some .ok →
    s.codec.inLen.read = some n →
    ∃ padUsed, n = 12 + 4 * t.codec.pkt.cc.val.toNat
        + (if t.codec.pkt.x.val then 4 + 4 * t.codec.pkt.extLen.val.toNat else 0)
        + t.codec.pkt.payLen.val + padUsed
      ∧ t.codec.pkt.csrcOff.val = 12
      ∧ t.codec.pkt.extOff.val = 12 + 4 * t.codec.pkt.cc.val.toNat + (if t.codec.pkt.x.val then 4 else 0)
      ∧ t.codec.pkt.payOff.val = t.codec.pkt.extOff.val + 4 * t.codec.pkt.extLen.val.toNat
      ∧ t.codec.pkt.payOff.val + t.codec.pkt.payLen.val + padUsed = n
      ∧ (if t.codec.pkt.p.val = true ∧ t.codec.pkt.payOff.val < n
         then ∃ b, s.codec.wire.read (n - 1) = some b ∧ padUsed = b.toNat ∧ 1 ≤ padUsed
         else padUsed = 0)

/-- 20_memory.md R49: after a successful DESERIALIZE the three views lie inside `0 .. IN_LEN-1`, do not overlap, and come in the order CSRC, extension, payload. (R49 speaks of views that have elements. That the offsets of empty views keep the order as well is the spec's decision D10: U11, log 11, unsafe for a claim that reads such an offset.) -/
def Obligations.ViewsAreOrderedInsideTheFrame : Prop :=
  ∀ (s t : State) (p : Present) (n : Nat), exec (.deserialize p) s = .next t → t.codec.result.read = some .ok →
    s.codec.inLen.read = some n →
    ∃ (cc : BitVec 4) (xl : Half) (len co eo po : Nat),
      t.codec.pkt.cc.read = some cc ∧ t.codec.pkt.extLen.read = some xl ∧ t.codec.pkt.payLen.read = some len
      ∧ t.codec.pkt.csrcOff.read = some co ∧ t.codec.pkt.extOff.read = some eo ∧ t.codec.pkt.payOff.read = some po
      ∧ 12 ≤ co ∧ co + 4 * cc.toNat ≤ eo ∧ eo + 4 * xl.toNat ≤ po ∧ po + len ≤ n

/-- 20_memory.md R41: DESERIALIZE reads no cells of `WIRE` but 0 to 11, the four of the extension header when the extension flag is set, and the last of the frame when the padding flag is set: with any contents elsewhere it answers the same, and leaves those contents as they are. -/
def Obligations.DeserializeReadsOnlyTheFraming : Prop :=
  ∀ (s : State) (p : Present) (m : Memory Byte),
    (∀ a, (a < 12
        ∨ (∃ b0, s.codec.wire.read 0 = some b0 ∧ b0.toNat / 16 % 2 = 1
            ∧ 12 + 4 * (b0.toNat % 16) ≤ a ∧ a < 12 + 4 * (b0.toNat % 16) + 4)
        ∨ (∃ b0 n, s.codec.wire.read 0 = some b0 ∧ b0.toNat / 32 % 2 = 1
            ∧ s.codec.inLen.read = some n ∧ a = n - 1)) → m.read a = s.codec.wire.read a) →
    exec (.deserialize p) { s with codec := { s.codec with wire := m } }
      = mapNext (fun t => { t with codec := { t.codec with wire := m } }) (exec (.deserialize p) s)

/-- 43_deserialize.md R146, the round trip: DESERIALIZE of the bytes a successful SERIALIZE put on the wire, with `IN_LEN` the length it reported, ends with OK and gives back the header's fields, the CSRC list and extension words through their views, and the payload less the pad bytes consumed. (With `X = 0` the clause that `PKT.EXT_PROFILE` and `PKT.EXT_LEN` are then 0 is the spec's decision D10: U12, read them only when `X = 1`; log 11, unsafe for a claim that reads these values.) -/
def Obligations.DeserializeOfSerializeIsThePacket : Prop :=
  ∀ (s t : State) (n : Nat),
    exec (.serialize { c := true, k := true, b := true, l := true }) s = .next t →
    t.codec.result.read = some .ok → t.codec.cap.read = some n →
    ∃ u d len, exec (.deserialize { c := true, k := true, b := true, l := false })
          { t with codec := { t.codec with inLen := Reg.holding n } } = .next u
      ∧ u.codec.result.read = some .ok
      ∧ u.codec.pkt.p.read = s.codec.pkt.p.read ∧ u.codec.pkt.x.read = s.codec.pkt.x.read
      ∧ u.codec.pkt.m.read = s.codec.pkt.m.read ∧ u.codec.pkt.cc.read = s.codec.pkt.cc.read
      ∧ u.codec.pkt.pt.read = s.codec.pkt.pt.read ∧ u.codec.pkt.seq.read = s.codec.pkt.seq.read
      ∧ u.codec.pkt.ts.read = s.codec.pkt.ts.read ∧ u.codec.pkt.ssrc.read = s.codec.pkt.ssrc.read
      ∧ (s.codec.pkt.x.read = some true → u.codec.pkt.extProfile.read = s.codec.pkt.extProfile.read
          ∧ u.codec.pkt.extLen.read = s.codec.pkt.extLen.read)
      ∧ (s.codec.pkt.x.read = some false → u.codec.pkt.extProfile.read = some 0 ∧ u.codec.pkt.extLen.read = some 0)
      ∧ (∀ k, k < u.codec.pkt.cc.val.toNat →
          u.codec.wire.readBE32 (u.codec.pkt.csrcOff.val + 4 * k) = s.codec.txcsrc.read k)
      ∧ (∀ k, k < u.codec.pkt.extLen.val.toNat →
          u.codec.wire.readBE32 (u.codec.pkt.extOff.val + 4 * k) = s.codec.txext.read k)
      ∧ s.codec.pkt.payLen.read = some len ∧ d ≤ len ∧ u.codec.pkt.payLen.read = some (len - d)
      ∧ (if s.codec.pkt.p.read = some true ∧ 0 < len
         then ∃ b, s.codec.txpay.read (len - 1) = some b ∧ d = b.toNat
         else d = 0)
      ∧ ∀ j, j < len - d → u.codec.wire.read (u.codec.pkt.payOff.val + j) = s.codec.txpay.read j

/-! ## Result kinds -/

/-- 60_exceptions.md R151: every cause of BAD_PARAM, and nothing else. It is decided before anything else is read: whatever the rest of the state holds, the cause alone makes the command write BAD_PARAM. That it writes nothing more is R155, with the spec's decisions D11 for the packet registers and D12 for `CAP` and `WIRE` (log 12, 13, unsafe); that a command which meets the race of R178 is shut out is log 18. -/
def Obligations.BadParamExactly : Prop :=
  ∀ (s : State) (i : Instr), isCommand i = true →
    (meetsRace i s = false → BadParamCause i s → ∃ t, exec i s = .next t ∧ OnlyResult s t .badParam)
    ∧ (∀ t, exec i s = .next t → t.codec.result.read = some .badParam → BadParamCause i s)

/-- 60_exceptions.md R152: the one cause of OUT_OF_MEMORY; `CAP` keeps the host's value. That a packet both too large and badly padded gives OUT_OF_MEMORY too, which the first clause covers, is R115 with the order of checks of the spec's decision D25 (U16, log 13, unsafe for that case); that nothing but `RESULT` is written is R115 and R155. -/
def Obligations.OutOfMemoryExactly : Prop :=
  ∀ (s : State) (i : Instr), isCommand i = true →
    (∀ req cap, SerializePast i s req cap → cap < req → ∃ t, exec i s = .next t ∧ OnlyResult s t .outOfMemory)
    ∧ (∀ t, exec i s = .next t → t.codec.result.read = some .outOfMemory →
        ∃ req cap, SerializePast i s req cap ∧ cap < req)

/-- 60_exceptions.md R153: the one cause of WRONG_VERSION, decided before any other cell of `WIRE` is looked at. That the command writes nothing more is R155, for the packet registers R141 with the spec's decision D11 (log 12, unsafe). -/
def Obligations.WrongVersionExactly : Prop :=
  ∀ (s : State) (i : Instr), isCommand i = true →
    (∀ n b0, DeserializePast i s n → s.codec.wire.read 0 = some b0 → b0.toNat / 64 ≠ 2 →
      ∃ t, exec i s = .next t ∧ OnlyResult s t .wrongVersion)
    ∧ (∀ t, exec i s = .next t → t.codec.result.read = some .wrongVersion →
        ∃ n b0, DeserializePast i s n ∧ s.codec.wire.read 0 = some b0 ∧ b0.toNat / 64 ≠ 2)

/-- 60_exceptions.md R154: every cause of MALFORMED_PACKET, (a) to (e), and nothing else. That the command writes nothing more is R155: for the packet registers R141 with the spec's decision D11 (log 12, unsafe), for `CAP` and `WIRE` R116 with D12 (log 13). -/
def Obligations.MalformedPacketExactly : Prop :=
  ∀ (s : State) (i : Instr), isCommand i = true →
    (MalformedCause i s → ∃ t, exec i s = .next t ∧ OnlyResult s t .malformedPacket)
    ∧ (∀ t, exec i s = .next t → t.codec.result.read = some .malformedPacket → MalformedCause i s)

/-- 60_exceptions.md R155: a command that ends with a failure kind writes `RESULT` and nothing else. (That this covers the packet registers and `CAP` on every failure is the spec's decisions D11, D12.) -/
def Obligations.FailureWritesOnlyResult : Prop :=
  ∀ (s t : State) (i : Instr) (k : ResultKind), isCommand i = true → exec i s = .next t →
    t.codec.result.read = some k → k ≠ .ok → OnlyResult s t k

/-! ## The step, the host, the instances -/

/-- A step runs the decoded instruction: a byte written to `CMD` (10_state.md R11), a section image of its format, and the word of the INIT that ends on the active instance; in each case with the host's action taken off its queue. (The image and the overlapped INIT are the model's, log 9, 18.) -/
def Obligations.StepRunsTheDecodedInstruction : Prop :=
  ∀ (s : State) (rest : List HostAction),
    (∀ v, v < 256 → s.host = .wr 0 v :: rest → s.running.read s.active = none →
      step s = exec (decodeCmd (BitVec.ofNat 8 v)) { s with host := rest })
    ∧ (∀ port bytes i, s.host = .image port bytes :: rest → port ≠ .cmd → s.running.read s.active = none →
      decode s.params.lenW port bytes = .ok i → step s = exec i { s with host := rest })
    ∧ (∀ w, s.host = .endInit :: rest → s.running.read s.active = some w →
      step s = exec (decodeCmd w) { s with host := rest, running := Memory.erase s.running s.active })

/-- The access column of 10_state.md R10's table: a host write of a value its register has bits for makes that register hold the value and changes nothing else: every other register, every memory, every other instance and all other state are as before; a host read hands out the value its register holds and changes nothing; so a value written is what is then read; a register nothing has written hands out a free value, of which no more is stated than that it fits the register (log 5); `RESULT` reads as the code of its kind (60_exceptions.md R150, the spec's decision D4), `CTX` as its one bit, and it can write neither; `CMD` hands out no value; numbers 5 to 7 and 22 upward do not exist. (The stops' names, `readData` and `draws` are the model's, log 5, 8, 15, 16.) -/
def Obligations.HostRegisterAccess : Prop :=
  ∀ (s : State) (n v : Nat) (rest : List HostAction), s.running.read s.active = none →
    (∀ r, RegName.ofNumber n = some r → r.hostWritable = true → v < 2 ^ r.width s.params.lenW →
      s.host = .wr n v :: rest →
      ∃ t, step s = .next t ∧ t.readReg r = some v ∧ (∀ r', r' ≠ r → t.readReg r' = s.readReg r')
        ∧ t = { s with host := rest, codec := { t.codec with
              result := s.codec.result, wire := s.codec.wire, wireSize := s.codec.wireSize
              txcsrc := s.codec.txcsrc, txext := s.codec.txext, txpay := s.codec.txpay } }
        ∧ ∀ more, rest = .rd n :: more → step t = .next { t with host := more, readData := v })
    ∧ (∀ r w, RegName.ofNumber n = some r → s.readReg r = some w → s.host = .rd n :: rest →
        step s = .next { s with host := rest, readData := w })
    ∧ (∀ r, RegName.ofNumber n = some r → r ≠ .cmd → s.readReg r = none → s.host = .rd n :: rest →
        ∃ w, w < 2 ^ r.width s.params.lenW ∧ step s = .next { s with host := rest, readData := w, draws := s.draws + 1 })
    ∧ (∀ k, s.codec.result.read = some k → s.host = .rd 1 :: rest → step s = .next { s with
        host := rest
        readData := match k with
          | .ok => 0
          | .badParam => 1
          | .outOfMemory => 2
          | .wrongVersion => 3
          | .malformedPacket => 4 })
    ∧ (s.host = .rd 2 :: rest → step s = .next { s with host := rest, readData := bit s.ctxInit })
    ∧ ((n = 1 ∧ v < 8 ∨ n = 2 ∧ v < 2) → s.host = .wr n v :: rest → step s = .refused .hostReadOnly)
    ∧ (s.host = .rd 0 :: rest → step s = .refused .unwrittenRead)
    ∧ ((4 < n ∧ n < 8 ∨ 21 < n) → (s.host = .wr n v :: rest ∨ s.host = .rd n :: rest) →
        step s = .fault .noSuchRegister)

/-- 20_memory.md R40, R42, R43 and 70_reset_and_hazards.md R189: what the host loads between commands into the byte spaces and the word spaces stands there cell by cell, and every other cell and all other state stay as they were. -/
def Obligations.HostLoadsTheOperandMemories : Prop :=
  ∀ (s : State) (off : Nat) (rest : List HostAction), s.running.read s.active = none →
    (∀ sp bytes, s.host = .ldBytes sp off bytes :: rest → off + bytes.length ≤ s.byteSpaceSize sp →
      ∃ t, step s = .next t
        ∧ (t = { s with host := rest, codec := { s.codec with wire := t.codec.wire } }
          ∨ t = { s with host := rest, codec := { s.codec with txpay := t.codec.txpay } })
        ∧ (∀ j, j < bytes.length → (t.codec.bytesOf sp).read (off + j) = bytes[j]?)
        ∧ ∀ sp' a, ¬ (sp' = sp ∧ off ≤ a ∧ a < off + bytes.length) →
            (t.codec.bytesOf sp').read a = (s.codec.bytesOf sp').read a)
    ∧ (∀ sp words, s.host = .ldWords sp off words :: rest → off + words.length ≤ sp.size →
      ∃ t, step s = .next t
        ∧ (t = { s with host := rest, codec := { s.codec with txcsrc := t.codec.txcsrc } }
          ∨ t = { s with host := rest, codec := { s.codec with txext := t.codec.txext } })
        ∧ (∀ j, j < words.length → (t.codec.wordsIn sp).read (off + j) = words[j]?)
        ∧ ∀ sp' a, ¬ (sp' = sp ∧ off ≤ a ∧ a < off + words.length) →
            (t.codec.wordsIn sp').read a = (s.codec.wordsIn sp').read a)

/-- 70_reset_and_hazards.md R186: while a command runs on the addressed instance the host can neither read nor write any of its state nor issue another command there: every such action is refused. What is left is addressing another instance, the command's end, and the reset, which is refused as well. (The names are the model's, log 18, 19.) -/
def Obligations.InstanceInsideACommandIsClosed : Prop :=
  ∀ (s : State) (a : HostAction) (rest : List HostAction) (w : Byte), s.host = a :: rest →
    s.running.read s.active = some w →
    step s = .refused .codecBusy
    ∨ (∃ k, a = .select k) ∨ a = .endInit ∨ (a = .reset ∧ step s = .refused .resetInCommand)

/-- 20_memory.md R49: reading element `i` of a view hands out the big-endian word at `off + 4*i`, or payload byte `j` at `off + j`; past the view's end it faults (the model's name, log 16). A cell that exists and holds no value: the word codec of the first two views refuses it (40_word_codec.md R90), and the payload byte, which the host reads itself, is a free value (log 5). Whatever the two view registers hold, a read that completes changes only the value handed out and the count of free values. -/
def Obligations.ViewElementsAreBigEndian : Prop :=
  ∀ (s : State) (i : Nat) (rest : List HostAction), s.running.read s.active = none →
    (∀ (cc : BitVec 4) off v, s.host = .rdView .csrc i :: rest → s.codec.pkt.cc.read = some cc →
      s.codec.pkt.csrcOff.read = some off → i < cc.toNat → off + 4 * i + 4 ≤ s.codec.wireSize →
      s.codec.wire.readBE32 (off + 4 * i) = some v →
      step s = .next { s with host := rest, readData := v.toNat })
    ∧ (∀ (n : Half) off v, s.host = .rdView .ext i :: rest → s.codec.pkt.extLen.read = some n →
      s.codec.pkt.extOff.read = some off → i < n.toNat → off + 4 * i + 4 ≤ s.codec.wireSize →
      s.codec.wire.readBE32 (off + 4 * i) = some v →
      step s = .next { s with host := rest, readData := v.toNat })
    ∧ (∀ len off b, s.host = .rdView .payload i :: rest → s.codec.pkt.payLen.read = some len →
      s.codec.pkt.payOff.read = some off → i < len → off + i + 1 ≤ s.codec.wireSize →
      s.codec.wire.read (off + i) = some b →
      step s = .next { s with host := rest, readData := b.toNat })
    ∧ (∀ v n, s.host = .rdView v i :: rest → s.codec.pkt.viewCount v = some n → n ≤ i →
      step s = .fault .noSuchElement)
    ∧ (∀ v n off, s.host = .rdView v i :: rest → v ≠ .payload → s.codec.pkt.viewCount v = some n →
      s.codec.pkt.viewOffset v = some off → i < n → off + 4 * i + 4 ≤ s.codec.wireSize →
      s.codec.wire.readBE32 (off + 4 * i) = none → step s = .refused .unwrittenRead)
    ∧ (∀ len off, s.host = .rdView .payload i :: rest → s.codec.pkt.payLen.read = some len →
      s.codec.pkt.payOff.read = some off → i < len → off + i + 1 ≤ s.codec.wireSize → s.codec.wire.read (off + i) = none →
      ∃ w, w < 256 ∧ step s = .next { s with host := rest, readData := w, draws := s.draws + 1 })
    ∧ (∀ v t, s.host = .rdView v i :: rest → step s = .next t →
      t = { s with host := rest, readData := t.readData, draws := t.draws })

/-- 10_state.md R33: "A command that reads it is refused (`UnwrittenRead`)", at each place where a command reads a register or a cell: SERIALIZE with a buffer reads `CAP`, the registers of the required length, `PKT.P`, with `PKT.P = 1` and a payload the last `TXPAY` cell, and then every operand of the emission (42_serialize.md R121, R122); the sizing query the registers of the required length; DESERIALIZE (43_deserialize.md R143) `IN_LEN`, cells 0 to 11 of `WIRE`, with `X = 1` the extension header, and with `P = 1` and a region that is not empty the last cell. And a command reads only what its path needs: a sizing query completes with `CAP` and every cell of the four memories unwritten. (R33 is the spec's decisions D13, D23; the order of the stages is D25, log 13.) -/
def Obligations.UnwrittenReadsAreRefused : Prop :=
  ∀ (s : State),
    (s.initRace = false → s.codec.cap.read = none →
      exec (.serialize { c := true, k := true, b := true, l := true }) s = .refused .unwrittenRead)
    ∧ (s.ctxInit = true → LengthUnwritten s.codec.pkt →
      exec .sizeq s = .refused .unwrittenRead
      ∧ exec (.serialize { c := true, k := true, b := false, l := true }) s = .refused .unwrittenRead
      ∧ ∀ cap, s.codec.cap.read = some cap → cap ≠ 0 →
        exec (.serialize { c := true, k := true, b := true, l := true }) s = .refused .unwrittenRead)
    ∧ (∀ i req cap len, SerializeOpen i s req cap len → s.codec.pkt.p.read = none →
      exec i s = .refused .unwrittenRead)
    ∧ (∀ i req cap len, SerializeOpen i s req cap len → s.codec.pkt.p.read = some true → 0 < len →
      s.codec.txpay.read (len - 1) = none → exec i s = .refused .unwrittenRead)
    ∧ (∀ i req cap len, SerializeOpen i s req cap len → PaddingConsistent s len → s.codec.txPacket = none →
      exec i s = .refused .unwrittenRead)
    ∧ (s.initRace = false → s.codec.inLen.read = none → ∀ p : Present, p.c = true → p.k = true → p.b = true →
      exec (.deserialize p) s = .refused .unwrittenRead)
    ∧ (∀ i n, DeserializePast i s n → s.codec.wire.read 0 = none → exec i s = .refused .unwrittenRead)
    ∧ (∀ i n b0 a, DeserializePast i s n → s.codec.wire.read 0 = some b0 → b0.toNat / 64 = 2 →
      a < 12 → s.codec.wire.read a = none → exec i s = .refused .unwrittenRead)
    ∧ (∀ i n h a, DeserializePast i s n → WireHolds s.codec.wire h → h.x = true →
      12 + 4 * h.cc.toNat + 4 ≤ n → 12 + 4 * h.cc.toNat ≤ a → a < 12 + 4 * h.cc.toNat + 4 →
      s.codec.wire.read a = none → exec i s = .refused .unwrittenRead)
    ∧ (∀ i n h profile extLen extOff, DeserializePast i s n → WireHolds s.codec.wire h →
      ExtDeclared s.codec.wire h profile extLen extOff → h.p = true → extOff + 4 * extLen.toNat < n →
      s.codec.wire.read (n - 1) = none → exec i s = .refused .unwrittenRead)
    ∧ (∀ req, s.ctxInit = true → s.codec.pkt.requiredLength = some req → req ≤ s.params.maxLen →
      s.codec.cap.read = none → s.codec.wire = [] → s.codec.txcsrc = [] → s.codec.txext = [] → s.codec.txpay = [] →
      exec .sizeq s = .next { s with codec := { s.codec with cap := Reg.holding req, result := Reg.holding .ok } })

/-- 70_reset_and_hazards.md R178: with `CTX.INIT = 0` and an INIT running on another instance, SERIALIZE, SIZEQ and DESERIALIZE are refused. The model's choices (DESIGN CHOICE, log 18): the race is asked before the parameter checks, so a form with an absent reference is refused too and does not give BAD_PARAM; an INIT with `C = 0` counts as running; and once `CTX.INIT = 1` no running INIT is in the way, the reading of "the first INIT" (41_init.md R103). -/
def Obligations.InitRaceIsRefused : Prop :=
  ∀ (s : State),
    (∀ i k w, s.ctxInit = false → (k, w) ∈ s.running → k ≠ s.active →
      (i = .sizeq ∨ (∃ p, i = .serialize p) ∨ ∃ p, i = .deserialize p) → exec i s = .refused .initRace)
    ∧ (s.ctxInit = true → s.initRace = false)

/-- 60_exceptions.md R166: an instruction on one instance leaves every other instance, the parameters, the choice of instance, the running INITs, the host's queue and the count of free values alone, and of the shared state only an INIT writes `CTX`, only to 1. -/
def Obligations.InstancesAreIsolated : Prop :=
  ∀ (s t : State) (i : Instr), exec i s = .next t →
    t.params = s.params ∧ t.active = s.active ∧ t.parked = s.parked ∧ t.running = s.running ∧ t.host = s.host
    ∧ t.draws = s.draws
    ∧ (t.ctxInit = s.ctxInit ∨ (t.ctxInit = true ∧ ∃ p, i = .init p ∧ p.c = true))

/-- 60_exceptions.md R166: going to another instance and back leaves the machine as it was. (The choice of an instance as a host action is the model's, log 17.) -/
def Obligations.SelectThereAndBack : Prop :=
  ∀ (s t u : State) (k : Nat) (rest : List HostAction), s.sound = true →
    s.host = .select k :: .select s.active :: rest → step s = .next t → step t = .next u →
    u = { s with host := rest } ∧ (k ≠ s.active → s.parked.read k = some t.codec)

/-- 10_state.md R12: `CTX.INIT` is written only by a successful INIT, which sets it, and by reset, which clears it, over every step of the machine. (The register is the spec's decision D5.) -/
def Obligations.OnlyInitAndResetWriteCtx : Prop :=
  ∀ (s t : State), step s = .next t → t.ctxInit ≠ s.ctxInit →
    (t.ctxInit = true ∧ t.codec.result.read = some .ok
      ∧ ∃ w p, decodeCmd w = .init p ∧ p.c = true
        ∧ ((∃ rest, s.host = .wr 0 w.toNat :: rest)
          ∨ (∃ rest, s.host = .endInit :: rest ∧ s.running.read s.active = some w)))
    ∨ (t.ctxInit = false ∧ ∃ rest, s.host = .reset :: rest)

/-- 70_reset_and_hazards.md R187 and 60_exceptions.md R155: a host that does nothing but write `CMD`, whatever words and however many, never brings the machine to a fault: every command ends with a result or a refusal, in every state. (The faults are the model's, log 16.) -/
def Obligations.CommandRunsNeverFault : Prop :=
  ∀ s : State, (∀ a ∈ s.host, ∃ v : Nat, a = .wr 0 v) → SafeFrom s

/-! ## Invariants of every step -/

/-- The machine right after reset meets the invariant, for every value of the parameters R4 allows. -/
def Obligations.ResetIsSound : Prop := ∀ p : Params, p.ok = true → (State.resetWith p).sound = true

/-- Every step keeps the invariant, whatever the host asks for: memories stay in canonical form and inside their spaces, length and offset registers stay `LEN_W`-bit numbers, the instances stay numbered `0 .. N_CODEC-1`, the parameters stay legal, and what runs on an instance is an INIT. -/
def Obligations.StepKeepsSoundness : Prop :=
  ∀ s t : State, s.sound = true → step s = .next t → t.sound = true

/-- 10_state.md R33: what a register nothing has written stores never matters: two states that differ only there answer alike, and their next states again differ only there. So no claim can rest on the stored values of log 2. -/
def Obligations.UnwrittenValuesNeverMatter : Prop :=
  ∀ s t : State, s.forget = t.forget →
    mapNext State.forget (step s) = mapNext State.forget (step t)

/-! ## The host's reads of memory and the buffer behind `WIRE` -/

/-- 70_reset_and_hazards.md R189: between commands the host reads any memory: a read of a byte or a word hands out what the cell holds and changes nothing else. A cell that exists and that nothing has written hands out a free value, of which no more is stated than that it has 8 or 32 bits (log 5), and one that does not exist faults (the model's, log 16). (`readData` and `draws` are the model's, log 5, 8.) -/
def Obligations.HostReadsTheMemories : Prop :=
  ∀ (s : State) (off : Nat) (rest : List HostAction), s.running.read s.active = none →
    (∀ sp, s.host = .rdByte sp off :: rest →
      let size := match sp with
        | .wire => s.codec.wireSize
        | .txpay => s.params.txpaySize
      let cell := match sp with
        | .wire => s.codec.wire.read off
        | .txpay => s.codec.txpay.read off
      (∀ b, off < size → cell = some b → step s = .next { s with host := rest, readData := b.toNat })
      ∧ (off < size → cell = none →
          ∃ w, w < 2 ^ 8 ∧ step s = .next { s with host := rest, readData := w, draws := s.draws + 1 })
      ∧ (size ≤ off → step s = .fault .noSuchCell))
    ∧ (∀ sp, s.host = .rdWord sp off :: rest →
      let size := match sp with
        | .txcsrc => 15
        | .txext => 65535
      let cell := match sp with
        | .txcsrc => s.codec.txcsrc.read off
        | .txext => s.codec.txext.read off
      (∀ v, off < size → cell = some v → step s = .next { s with host := rest, readData := v.toNat })
      ∧ (off < size → cell = none →
          ∃ w, w < 2 ^ 32 ∧ step s = .next { s with host := rest, readData := w, draws := s.draws + 1 })
      ∧ (size ≤ off → step s = .fault .noSuchCell))

/-- 20_memory.md R40 and 70_reset_and_hazards.md R189: between commands the host points `WIRE` at another buffer: its size and its contents take the place of the old ones, a cell holding what the list's last entry for it says and no value without one, and nothing else changes, the view registers included (R50). A buffer larger than R4 allows is refused (log 15), and an entry outside the buffer faults (log 16). -/
def Obligations.HostRepointsTheBuffer : Prop :=
  ∀ (s : State) (size : Nat) (cells : List (Nat × Byte)) (rest : List HostAction),
    s.running.read s.active = none → s.host = .repoint size cells :: rest →
    (size < 2 ^ s.params.lenW → (∀ a b, (a, b) ∈ cells → a < size) →
      ∃ t, step s = .next t
        ∧ t = { s with host := rest, codec := { s.codec with wire := t.codec.wire, wireSize := size } }
        ∧ (∀ before a b later, cells = before ++ (a, b) :: later → (∀ c, (a, c) ∉ later) →
            t.codec.wire.read a = some b)
        ∧ ∀ a, (∀ b, (a, b) ∉ cells) → t.codec.wire.read a = none)
    ∧ (2 ^ s.params.lenW ≤ size → step s = .refused .valueTooWide)
    ∧ (size < 2 ^ s.params.lenW → (∃ a b, (a, b) ∈ cells ∧ size ≤ a) → step s = .fault .noSuchCell)

/-! ## What the host must have done -/

/-- 70_reset_and_hazards.md R172, R173, R183 and R187: once an INIT has ended with OK, a command whose read set the host has written and whose declared lengths are true, and for SERIALIZE and SIZEQ whose required length fits `LEN_W` bits, always ends with a result, whatever else the values written are and whichever references are present. The fit is a hypothesis of its own and no duty of the host's: without it 42_serialize.md R113 refuses `LengthOverflow` (the spec's decision D14, log 14) with every duty done. With it none of the spec's refusals of a command comes up, `UnwrittenRead` (10_state.md R33) among them. INIT, which reads nothing, ends with a result in every state. (That the truth of `CAP` is asked of all of it, not only of the packet's length, is R183's own wording.) -/
def Obligations.CommandsEndOnceTheHostHasDoneItsDuties : Prop :=
  ∀ (s : State) (p : Present),
    (∃ t k, exec (.init p) s = .next t ∧ t.codec.result.read = some k)
    ∧ (∀ req, s.ctxInit = true → LengthWritten s.codec.pkt req → req < 2 ^ s.params.lenW →
        (∃ t, exec .sizeq s = .next t ∧ t.codec.result.read = some .ok)
        ∧ (p.b = false → ∃ t k, exec (.serialize p) s = .next t ∧ t.codec.result.read = some k)
        ∧ (SerializeReadSetWritten s.codec → (∀ cap, s.codec.cap.read = some cap → cap ≤ s.codec.wireSize) →
            (∀ len, s.codec.pkt.payLen.read = some len → len ≤ s.params.txpaySize) →
            ∃ t k, exec (.serialize p) s = .next t ∧ t.codec.result.read = some k))
    ∧ (∀ n, s.ctxInit = true → s.codec.inLen.read = some n → n ≤ s.codec.wireSize →
        (∀ a, a < n → s.codec.wire.read a ≠ none) →
        ∃ t k, exec (.deserialize p) s = .next t ∧ t.codec.result.read = some k)
end

