-- ==== Sys2Proof/Laws/State.lean ====
section
/-! SUPPORT. One lemma per field per update of State, of one instance and of a register, each true by rfl, so that no proof unfolds a record update. -/

namespace Sys2Proof.Machine

/-! ## `State.withCodec` -/

@[simp] theorem State.withCodec_params (s : State) (c : Codec) : (s.withCodec c).params = s.params := rfl
@[simp] theorem State.withCodec_ctxInit (s : State) (c : Codec) : (s.withCodec c).ctxInit = s.ctxInit := rfl
@[simp] theorem State.withCodec_active (s : State) (c : Codec) : (s.withCodec c).active = s.active := rfl
@[simp] theorem State.withCodec_codec (s : State) (c : Codec) : (s.withCodec c).codec = c := rfl
@[simp] theorem State.withCodec_parked (s : State) (c : Codec) : (s.withCodec c).parked = s.parked := rfl
@[simp] theorem State.withCodec_running (s : State) (c : Codec) : (s.withCodec c).running = s.running := rfl
@[simp] theorem State.withCodec_host (s : State) (c : Codec) : (s.withCodec c).host = s.host := rfl
@[simp] theorem State.withCodec_readData (s : State) (c : Codec) : (s.withCodec c).readData = s.readData := rfl
@[simp] theorem State.withCodec_draws (s : State) (c : Codec) : (s.withCodec c).draws = s.draws := rfl

/-! ## `State.setInit` -/

@[simp] theorem State.setInit_params (s : State) : (s.setInit).params = s.params := rfl
@[simp] theorem State.setInit_ctxInit (s : State) : (s.setInit).ctxInit = true := rfl
@[simp] theorem State.setInit_active (s : State) : (s.setInit).active = s.active := rfl
@[simp] theorem State.setInit_codec (s : State) : (s.setInit).codec = s.codec := rfl
@[simp] theorem State.setInit_parked (s : State) : (s.setInit).parked = s.parked := rfl
@[simp] theorem State.setInit_running (s : State) : (s.setInit).running = s.running := rfl
@[simp] theorem State.setInit_host (s : State) : (s.setInit).host = s.host := rfl
@[simp] theorem State.setInit_readData (s : State) : (s.setInit).readData = s.readData := rfl
@[simp] theorem State.setInit_draws (s : State) : (s.setInit).draws = s.draws := rfl

/-! ## `State.withReadData` -/

@[simp] theorem State.withReadData_params (s : State) (v : Nat) : (s.withReadData v).params = s.params := rfl
@[simp] theorem State.withReadData_ctxInit (s : State) (v : Nat) : (s.withReadData v).ctxInit = s.ctxInit := rfl
@[simp] theorem State.withReadData_active (s : State) (v : Nat) : (s.withReadData v).active = s.active := rfl
@[simp] theorem State.withReadData_codec (s : State) (v : Nat) : (s.withReadData v).codec = s.codec := rfl
@[simp] theorem State.withReadData_parked (s : State) (v : Nat) : (s.withReadData v).parked = s.parked := rfl
@[simp] theorem State.withReadData_running (s : State) (v : Nat) : (s.withReadData v).running = s.running := rfl
@[simp] theorem State.withReadData_host (s : State) (v : Nat) : (s.withReadData v).host = s.host := rfl
@[simp] theorem State.withReadData_readData (s : State) (v : Nat) : (s.withReadData v).readData = v := rfl
@[simp] theorem State.withReadData_draws (s : State) (v : Nat) : (s.withReadData v).draws = s.draws := rfl

/-! ## `State.withDraw` -/

@[simp] theorem State.withDraw_params (s : State) : (s.withDraw).params = s.params := rfl
@[simp] theorem State.withDraw_ctxInit (s : State) : (s.withDraw).ctxInit = s.ctxInit := rfl
@[simp] theorem State.withDraw_active (s : State) : (s.withDraw).active = s.active := rfl
@[simp] theorem State.withDraw_codec (s : State) : (s.withDraw).codec = s.codec := rfl
@[simp] theorem State.withDraw_parked (s : State) : (s.withDraw).parked = s.parked := rfl
@[simp] theorem State.withDraw_running (s : State) : (s.withDraw).running = s.running := rfl
@[simp] theorem State.withDraw_host (s : State) : (s.withDraw).host = s.host := rfl
@[simp] theorem State.withDraw_readData (s : State) : (s.withDraw).readData = s.readData := rfl
@[simp] theorem State.withDraw_draws (s : State) : (s.withDraw).draws = s.draws + 1 := rfl

/-! ## `State.withHost` -/

@[simp] theorem State.withHost_params (s : State) (q : List HostAction) : (s.withHost q).params = s.params := rfl
@[simp] theorem State.withHost_ctxInit (s : State) (q : List HostAction) : (s.withHost q).ctxInit = s.ctxInit := rfl
@[simp] theorem State.withHost_active (s : State) (q : List HostAction) : (s.withHost q).active = s.active := rfl
@[simp] theorem State.withHost_codec (s : State) (q : List HostAction) : (s.withHost q).codec = s.codec := rfl
@[simp] theorem State.withHost_parked (s : State) (q : List HostAction) : (s.withHost q).parked = s.parked := rfl
@[simp] theorem State.withHost_running (s : State) (q : List HostAction) : (s.withHost q).running = s.running := rfl
@[simp] theorem State.withHost_host (s : State) (q : List HostAction) : (s.withHost q).host = q := rfl
@[simp] theorem State.withHost_readData (s : State) (q : List HostAction) : (s.withHost q).readData = s.readData := rfl
@[simp] theorem State.withHost_draws (s : State) (q : List HostAction) : (s.withHost q).draws = s.draws := rfl

/-! ## `State.withRunning` -/

@[simp] theorem State.withRunning_params (s : State) (r : Memory Byte) : (s.withRunning r).params = s.params := rfl
@[simp] theorem State.withRunning_ctxInit (s : State) (r : Memory Byte) : (s.withRunning r).ctxInit = s.ctxInit := rfl
@[simp] theorem State.withRunning_active (s : State) (r : Memory Byte) : (s.withRunning r).active = s.active := rfl
@[simp] theorem State.withRunning_codec (s : State) (r : Memory Byte) : (s.withRunning r).codec = s.codec := rfl
@[simp] theorem State.withRunning_parked (s : State) (r : Memory Byte) : (s.withRunning r).parked = s.parked := rfl
@[simp] theorem State.withRunning_running (s : State) (r : Memory Byte) : (s.withRunning r).running = r := rfl
@[simp] theorem State.withRunning_host (s : State) (r : Memory Byte) : (s.withRunning r).host = s.host := rfl
@[simp] theorem State.withRunning_readData (s : State) (r : Memory Byte) : (s.withRunning r).readData = s.readData := rfl
@[simp] theorem State.withRunning_draws (s : State) (r : Memory Byte) : (s.withRunning r).draws = s.draws := rfl

/-! ## `State.raise` -/

@[simp] theorem State.raise_params (s : State) (k : ResultKind) : (s.raise k).params = s.params := rfl
@[simp] theorem State.raise_ctxInit (s : State) (k : ResultKind) : (s.raise k).ctxInit = s.ctxInit := rfl
@[simp] theorem State.raise_active (s : State) (k : ResultKind) : (s.raise k).active = s.active := rfl
@[simp] theorem State.raise_codec (s : State) (k : ResultKind) : (s.raise k).codec = s.codec.withResult k := rfl
@[simp] theorem State.raise_parked (s : State) (k : ResultKind) : (s.raise k).parked = s.parked := rfl
@[simp] theorem State.raise_running (s : State) (k : ResultKind) : (s.raise k).running = s.running := rfl
@[simp] theorem State.raise_host (s : State) (k : ResultKind) : (s.raise k).host = s.host := rfl
@[simp] theorem State.raise_readData (s : State) (k : ResultKind) : (s.raise k).readData = s.readData := rfl
@[simp] theorem State.raise_draws (s : State) (k : ResultKind) : (s.raise k).draws = s.draws := rfl

/-! ## `State.done` -/

@[simp] theorem State.done_params (s : State) : (s.done).params = s.params := rfl
@[simp] theorem State.done_ctxInit (s : State) : (s.done).ctxInit = s.ctxInit := rfl
@[simp] theorem State.done_active (s : State) : (s.done).active = s.active := rfl
@[simp] theorem State.done_codec (s : State) : (s.done).codec = s.codec.withResult .ok := rfl
@[simp] theorem State.done_parked (s : State) : (s.done).parked = s.parked := rfl
@[simp] theorem State.done_running (s : State) : (s.done).running = s.running := rfl
@[simp] theorem State.done_host (s : State) : (s.done).host = s.host := rfl
@[simp] theorem State.done_readData (s : State) : (s.done).readData = s.readData := rfl
@[simp] theorem State.done_draws (s : State) : (s.done).draws = s.draws := rfl

/-! ## `Codec.withResult` -/

@[simp] theorem Codec.withResult_result (c : Codec) (k : ResultKind) : (c.withResult k).result = Reg.holding k := rfl
@[simp] theorem Codec.withResult_cap (c : Codec) (k : ResultKind) : (c.withResult k).cap = c.cap := rfl
@[simp] theorem Codec.withResult_inLen (c : Codec) (k : ResultKind) : (c.withResult k).inLen = c.inLen := rfl
@[simp] theorem Codec.withResult_pkt (c : Codec) (k : ResultKind) : (c.withResult k).pkt = c.pkt := rfl
@[simp] theorem Codec.withResult_wire (c : Codec) (k : ResultKind) : (c.withResult k).wire = c.wire := rfl
@[simp] theorem Codec.withResult_wireSize (c : Codec) (k : ResultKind) : (c.withResult k).wireSize = c.wireSize := rfl
@[simp] theorem Codec.withResult_txcsrc (c : Codec) (k : ResultKind) : (c.withResult k).txcsrc = c.txcsrc := rfl
@[simp] theorem Codec.withResult_txext (c : Codec) (k : ResultKind) : (c.withResult k).txext = c.txext := rfl
@[simp] theorem Codec.withResult_txpay (c : Codec) (k : ResultKind) : (c.withResult k).txpay = c.txpay := rfl

/-! ## `Codec.withCap` -/

@[simp] theorem Codec.withCap_result (c : Codec) (v : Nat) : (c.withCap v).result = c.result := rfl
@[simp] theorem Codec.withCap_cap (c : Codec) (v : Nat) : (c.withCap v).cap = Reg.holding v := rfl
@[simp] theorem Codec.withCap_inLen (c : Codec) (v : Nat) : (c.withCap v).inLen = c.inLen := rfl
@[simp] theorem Codec.withCap_pkt (c : Codec) (v : Nat) : (c.withCap v).pkt = c.pkt := rfl
@[simp] theorem Codec.withCap_wire (c : Codec) (v : Nat) : (c.withCap v).wire = c.wire := rfl
@[simp] theorem Codec.withCap_wireSize (c : Codec) (v : Nat) : (c.withCap v).wireSize = c.wireSize := rfl
@[simp] theorem Codec.withCap_txcsrc (c : Codec) (v : Nat) : (c.withCap v).txcsrc = c.txcsrc := rfl
@[simp] theorem Codec.withCap_txext (c : Codec) (v : Nat) : (c.withCap v).txext = c.txext := rfl
@[simp] theorem Codec.withCap_txpay (c : Codec) (v : Nat) : (c.withCap v).txpay = c.txpay := rfl

/-! ## `Codec.withWire` -/

@[simp] theorem Codec.withWire_result (c : Codec) (m : Memory Byte) : (c.withWire m).result = c.result := rfl
@[simp] theorem Codec.withWire_cap (c : Codec) (m : Memory Byte) : (c.withWire m).cap = c.cap := rfl
@[simp] theorem Codec.withWire_inLen (c : Codec) (m : Memory Byte) : (c.withWire m).inLen = c.inLen := rfl
@[simp] theorem Codec.withWire_pkt (c : Codec) (m : Memory Byte) : (c.withWire m).pkt = c.pkt := rfl
@[simp] theorem Codec.withWire_wire (c : Codec) (m : Memory Byte) : (c.withWire m).wire = m := rfl
@[simp] theorem Codec.withWire_wireSize (c : Codec) (m : Memory Byte) : (c.withWire m).wireSize = c.wireSize := rfl
@[simp] theorem Codec.withWire_txcsrc (c : Codec) (m : Memory Byte) : (c.withWire m).txcsrc = c.txcsrc := rfl
@[simp] theorem Codec.withWire_txext (c : Codec) (m : Memory Byte) : (c.withWire m).txext = c.txext := rfl
@[simp] theorem Codec.withWire_txpay (c : Codec) (m : Memory Byte) : (c.withWire m).txpay = c.txpay := rfl

/-! ## `Codec.withPkt` -/

@[simp] theorem Codec.withPkt_result (c : Codec) (p : Pkt) : (c.withPkt p).result = c.result := rfl
@[simp] theorem Codec.withPkt_cap (c : Codec) (p : Pkt) : (c.withPkt p).cap = c.cap := rfl
@[simp] theorem Codec.withPkt_inLen (c : Codec) (p : Pkt) : (c.withPkt p).inLen = c.inLen := rfl
@[simp] theorem Codec.withPkt_pkt (c : Codec) (p : Pkt) : (c.withPkt p).pkt = p := rfl
@[simp] theorem Codec.withPkt_wire (c : Codec) (p : Pkt) : (c.withPkt p).wire = c.wire := rfl
@[simp] theorem Codec.withPkt_wireSize (c : Codec) (p : Pkt) : (c.withPkt p).wireSize = c.wireSize := rfl
@[simp] theorem Codec.withPkt_txcsrc (c : Codec) (p : Pkt) : (c.withPkt p).txcsrc = c.txcsrc := rfl
@[simp] theorem Codec.withPkt_txext (c : Codec) (p : Pkt) : (c.withPkt p).txext = c.txext := rfl
@[simp] theorem Codec.withPkt_txpay (c : Codec) (p : Pkt) : (c.withPkt p).txpay = c.txpay := rfl

/-! ## Registers -/

@[simp] theorem Reg.holding_read {α : Type} (v : α) : (Reg.holding v).read = some v := rfl
@[simp] theorem Reg.holding_val {α : Type} (v : α) : (Reg.holding v).val = v := rfl
@[simp] theorem Reg.holding_written {α : Type} (v : α) : (Reg.holding v).written = true := rfl
@[simp] theorem Reg.unwritten_read {α : Type} (v : α) : (Reg.unwritten v).read = none := rfl
@[simp] theorem Reg.unwritten_val {α : Type} (v : α) : (Reg.unwritten v).val = v := rfl
@[simp] theorem Reg.unwritten_written {α : Type} (v : α) : (Reg.unwritten v).written = false := rfl

/-- Reading gives the stored value, and only of a register that was written. -/
theorem Reg.read_eq_some {α : Type} {r : Reg α} {v : α} : r.read = some v ↔ r.written = true ∧ r.val = v := by
  unfold Reg.read; split <;> simp_all

/-- A register that answers a value holds it. -/
theorem Reg.eq_holding_of_read {α : Type} {r : Reg α} {v : α} (h : r.read = some v) : r = Reg.holding v := by
  obtain ⟨hw, hv⟩ := Reg.read_eq_some.1 h
  cases r; simp_all [Reg.holding]

/-- A register reads alike before and after its unreadable value is replaced. -/
@[simp] theorem Reg.forget_read {α : Type} (stored : α) (r : Reg α) : (r.forget stored).read = r.read := by
  unfold Reg.forget Reg.read; split <;> simp_all [Reg.unwritten]

@[simp] theorem Reg.forget_holding {α : Type} (stored v : α) : (Reg.holding v).forget stored = Reg.holding v := rfl

/-! ## How a command ends -/

/-- Two writes of `RESULT` in a row leave the second. -/
@[simp] theorem Codec.withResult_withResult (c : Codec) (k l : ResultKind) : (c.withResult k).withResult l = c.withResult l := rfl

@[simp] theorem State.withCodec_withCodec (s : State) (c d : Codec) : (s.withCodec c).withCodec d = s.withCodec d := rfl

@[simp] theorem State.withCodec_codec_self (s : State) : s.withCodec s.codec = s := rfl

end Sys2Proof.Machine
end

