-- ==== Sys2Proof/Laws/Memory.lean ====
section
/-! SUPPORT. The sparse memories: what a read gives after a write, which cells a write leaves alone, and that every operation keeps the canonical form (20_memory.md R40 to R44). -/

namespace Sys2Proof.Machine

variable {α : Type}

/-! ## Read after write -/

/-- A read after a write of one cell gives the value written there and the old contents elsewhere. -/
theorem Memory.read_write (m : Memory α) (a : Nat) (v : α) (b : Nat) :
    (Memory.write m a v).read b = if b = a then some v else Memory.read m b := by
  induction m with
  | nil => simp [Memory.write, Memory.read]
  | cons e m ih =>
    obtain ⟨k, w⟩ := e
    simp only [Memory.write]
    split
    · simp [Memory.read]
    · split
      · next h => subst h; by_cases hb : b = a <;> simp [Memory.read, hb]
      · next h => by_cases hb : b = k <;> simp [Memory.read, ih, hb]; intro h; omega

@[simp] theorem Memory.read_write_self (m : Memory α) (a : Nat) (v : α) :
    (Memory.write m a v).read a = some v := by simp [Memory.read_write]

/-- A read after consecutive writes: cell `b` has value number `b - a` of the list, or its old contents outside. -/
theorem Memory.read_writeN (m : Memory α) (a : Nat) (vs : List α) (b : Nat) :
    (Memory.writeN m a vs).read b
      = if a ≤ b ∧ b < a + vs.length then vs[b - a]? else Memory.read m b := by
  induction vs generalizing m a with
  | nil => simp [Memory.writeN]
  | cons v vs ih =>
    simp only [Memory.writeN, ih, Memory.read_write, List.length_cons]
    by_cases h0 : b = a
    · subst h0; simp
    · by_cases h1 : a + 1 ≤ b ∧ b < a + 1 + vs.length
      · have h2 : a ≤ b ∧ b < a + (vs.length + 1) := by omega
        have h3 : b - a = (b - (a + 1)) + 1 := by omega
        simp [h1, h2, h3]
      · have h2 : ¬ (a ≤ b ∧ b < a + (vs.length + 1)) := by omega
        rw [if_neg h1, if_neg h0, if_neg h2]

/-- Inside the bytes written. -/
theorem Memory.read_writeN_inside (m : Memory α) (a : Nat) (vs : List α) (i : Nat) (h : i < vs.length) :
    (Memory.writeN m a vs).read (a + i) = some vs[i] := by
  rw [Memory.read_writeN]
  simp [h]

/-- Outside the bytes written. -/
theorem Memory.read_writeN_outside (m : Memory α) (a : Nat) (vs : List α) (b : Nat)
    (h : ¬ (a ≤ b ∧ b < a + vs.length)) : (Memory.writeN m a vs).read b = Memory.read m b := by
  simp [Memory.read_writeN, h]

@[simp] theorem Memory.writeN_nil (m : Memory α) (a : Nat) : Memory.writeN m a [] = m := rfl

/-- Two adjacent runs of writes are one. -/
theorem Memory.writeN_append (m : Memory α) (a : Nat) (vs ws : List α) :
    Memory.writeN m a (vs ++ ws) = Memory.writeN (Memory.writeN m a vs) (a + vs.length) ws := by
  induction vs generalizing m a with
  | nil => simp [Memory.writeN]
  | cons v vs ih => simp [Memory.writeN, ih, Nat.add_assoc, Nat.add_comm 1]

/-! ## Reading several cells -/

/-- `n` values come back exactly when each of the `n` cells holds its value. -/
theorem Memory.readN_eq_some (m : Memory α) (a n : Nat) (vs : List α) :
    Memory.readN m a n = some vs ↔ vs.length = n ∧ ∀ i, i < n → Memory.read m (a + i) = vs[i]? := by
  induction n generalizing a vs with
  | zero => cases vs <;> simp [Memory.readN]
  | succ n ih =>
    constructor
    · intro h
      simp only [Memory.readN] at h
      split at h
      · next v vs' hv hvs =>
        cases h
        obtain ⟨hl, hr⟩ := (ih (a + 1) vs').1 hvs
        refine ⟨by simp [hl], fun i hi => ?_⟩
        cases i with
        | zero => simp [hv]
        | succ i =>
          have := hr i (by omega)
          rw [show a + (i + 1) = a + 1 + i by omega]
          simp [this]
      · cases h
    · rintro ⟨hl, hr⟩
      cases vs with
      | nil => simp at hl
      | cons v vs =>
        have h0 : Memory.read m a = some v := by simpa using hr 0 (by omega)
        have hs : Memory.readN m (a + 1) n = some vs := by
          refine (ih (a + 1) vs).2 ⟨by simpa using hl, fun i hi => ?_⟩
          have := hr (i + 1) (by omega)
          rw [show a + 1 + i = a + (i + 1) by omega]
          simpa using this
        simp [Memory.readN, h0, hs]

/-- Consecutive cells that all hold values are read together. -/
theorem Memory.readN_of_forall {m : Memory α} {a n : Nat} (h : ∀ i, i < n → Memory.read m (a + i) ≠ none) :
    ∃ vs, Memory.readN m a n = some vs := by
  induction n generalizing a with
  | zero => exact ⟨[], rfl⟩
  | succ n ih =>
    obtain ⟨v, hv⟩ := Option.ne_none_iff_exists'.1 (h 0 (by omega))
    obtain ⟨vs, hvs⟩ := ih (a := a + 1) fun i hi => by
      have := h (i + 1) (by omega)
      rwa [show a + 1 + i = a + (i + 1) by omega]
    rw [Nat.add_zero] at hv
    exact ⟨v :: vs, by simp only [Memory.readN, hv, hvs]⟩

/-- As many values come back as were asked for. -/
theorem Memory.readN_length {m : Memory α} {a n : Nat} {vs : List α} (h : Memory.readN m a n = some vs) :
    vs.length = n := ((Memory.readN_eq_some m a n vs).1 h).1

/-- Value `i` that comes back is the contents of cell `a + i`. -/
theorem Memory.readN_get {m : Memory α} {a n : Nat} {vs : List α} (h : Memory.readN m a n = some vs)
    (i : Nat) (hi : i < n) : Memory.read m (a + i) = vs[i]? := ((Memory.readN_eq_some m a n vs).1 h).2 i hi

/-- What was written comes back. -/
theorem Memory.readN_writeN (m : Memory α) (a : Nat) (vs : List α) :
    (Memory.writeN m a vs).readN a vs.length = some vs := by
  rw [Memory.readN_eq_some]
  refine ⟨rfl, fun i hi => ?_⟩
  rw [Memory.read_writeN_inside m a vs i hi, List.getElem?_eq_getElem hi]

/-! ## The canonical form -/

theorem Memory.above_mono {m : Memory α} {a b : Nat} (hab : a ≤ b) (h : Memory.above b m = true) :
    Memory.above a m = true := by
  simp only [Memory.above, List.all_eq_true, decide_eq_true_eq] at *
  intro e he; have := h e he; omega

theorem Memory.above_write {m : Memory α} {a b : Nat} {v : α} (hab : b < a) (h : Memory.above b m = true) :
    Memory.above b (Memory.write m a v) = true := by
  induction m with
  | nil => simp [Memory.write, Memory.above, hab]
  | cons e m ih =>
    obtain ⟨k, w⟩ := e
    simp only [Memory.above, List.all_cons, Bool.and_eq_true, decide_eq_true_eq] at h ih
    simp only [Memory.write]
    split
    · simp only [Memory.above, List.all_cons, Bool.and_eq_true, decide_eq_true_eq]; exact ⟨hab, h⟩
    · split
      · simp only [Memory.above, List.all_cons, Bool.and_eq_true, decide_eq_true_eq]; exact ⟨hab, h.2⟩
      · simp only [Memory.above, List.all_cons, Bool.and_eq_true, decide_eq_true_eq]; exact ⟨h.1, ih h.2⟩

/-- A write keeps the canonical form. -/
theorem Memory.wf_write {m : Memory α} (h : Memory.wf m = true) (a : Nat) (v : α) :
    Memory.wf (Memory.write m a v) = true := by
  induction m with
  | nil => simp [Memory.write, Memory.wf, Memory.above]
  | cons e m ih =>
    obtain ⟨k, w⟩ := e
    simp only [Memory.wf, Bool.and_eq_true] at h
    simp only [Memory.write]
    split
    · next hlt =>
      simp only [Memory.wf, Bool.and_eq_true]
      refine ⟨?_, h⟩
      have := Memory.above_mono (Nat.le_of_lt hlt) h.1
      simp only [Memory.above, List.all_cons, Bool.and_eq_true, decide_eq_true_eq] at *
      exact ⟨hlt, this⟩
    · split
      · next heq => subst heq; simpa only [Memory.wf, Bool.and_eq_true] using h
      · simp only [Memory.wf, Bool.and_eq_true]
        exact ⟨Memory.above_write (by omega) h.1, ih h.2⟩

/-- Consecutive writes keep the canonical form. -/
theorem Memory.wf_writeN {m : Memory α} (h : Memory.wf m = true) (a : Nat) (vs : List α) :
    Memory.wf (Memory.writeN m a vs) = true := by
  induction vs generalizing m a with
  | nil => exact h
  | cons v vs ih => exact ih (Memory.wf_write h a v) (a + 1)

/-- Taking a cell's value away keeps the canonical form. -/
theorem Memory.wf_erase {m : Memory α} (h : Memory.wf m = true) (a : Nat) :
    Memory.wf (Memory.erase m a) = true := by
  induction m with
  | nil => rfl
  | cons e m ih =>
    simp only [Memory.wf, Bool.and_eq_true] at h
    simp only [Memory.erase, List.filter_cons] at ih ⊢
    split
    · simp only [Memory.wf, Bool.and_eq_true]
      refine ⟨?_, ih h.2⟩
      have := h.1
      simp only [Memory.above, List.all_eq_true, decide_eq_true_eq] at *
      intro x hx; exact this x (List.mem_filter.1 hx).1
    · exact ih h.2

/-- A write inside a space keeps every listed cell inside it. -/
theorem Memory.within_write {m : Memory α} {size : Nat} (h : Memory.within size m = true) {a : Nat}
    (ha : a < size) (v : α) : Memory.within size (Memory.write m a v) = true := by
  induction m with
  | nil => simpa [Memory.write, Memory.within] using ha
  | cons e m ih =>
    obtain ⟨k, w⟩ := e
    simp only [Memory.within, List.all_cons, Bool.and_eq_true, decide_eq_true_eq] at h ih
    simp only [Memory.write]
    split
    · simp only [Memory.within, List.all_cons, Bool.and_eq_true, decide_eq_true_eq]; exact ⟨ha, h⟩
    · split
      · simp only [Memory.within, List.all_cons, Bool.and_eq_true, decide_eq_true_eq]; exact ⟨ha, h.2⟩
      · simp only [Memory.within, List.all_cons, Bool.and_eq_true, decide_eq_true_eq]; exact ⟨h.1, ih h.2⟩

/-- Consecutive writes inside a space keep every listed cell inside it. -/
theorem Memory.within_writeN {m : Memory α} {size : Nat} (h : Memory.within size m = true) {a : Nat}
    (vs : List α) (ha : vs.length = 0 ∨ a + vs.length ≤ size) :
    Memory.within size (Memory.writeN m a vs) = true := by
  induction vs generalizing m a with
  | nil => exact h
  | cons v vs ih =>
    have ha' : a + (vs.length + 1) ≤ size := by simpa using ha
    exact ih (Memory.within_write h (by omega) v) (by omega)

/-- A read of a cell below every listed address answers nothing. -/
theorem Memory.read_eq_none_of_above {m : Memory α} {a b : Nat} (h : Memory.above b m = true) (hab : a ≤ b) :
    Memory.read m a = none := by
  induction m with
  | nil => rfl
  | cons e m ih =>
    simp only [Memory.above, List.all_cons, Bool.and_eq_true, decide_eq_true_eq] at h ih
    have : a ≠ e.1 := by omega
    simp [Memory.read, this, ih h.2]

/-- Two memories in canonical form with the same contents are the same list. -/
theorem Memory.ext_of_read {m n : Memory α} (hm : Memory.wf m = true) (hn : Memory.wf n = true)
    (h : ∀ a, Memory.read m a = Memory.read n a) : m = n := by
  induction m generalizing n with
  | nil =>
    cases n with
    | nil => rfl
    | cons e n => have := h e.1; simp [Memory.read] at this
  | cons e m ih =>
    cases n with
    | nil => have := h e.1; simp [Memory.read] at this
    | cons f n =>
      simp only [Memory.wf, Bool.and_eq_true] at hm hn
      have key : e.1 = f.1 := by
        by_contra hne
        rcases Nat.lt_or_gt_of_ne hne with hlt | hgt
        · have h1 := h e.1
          rw [Memory.read_eq_none_of_above (b := e.1) (m := f :: n) _ (Nat.le_refl _)] at h1
          · simp [Memory.read] at h1
          · have := Memory.above_mono (Nat.le_of_lt hlt) hn.1
            simp only [Memory.above, List.all_cons, Bool.and_eq_true, decide_eq_true_eq] at *
            exact ⟨hlt, this⟩
        · have h1 := h f.1
          rw [Memory.read_eq_none_of_above (b := f.1) (m := e :: m) _ (Nat.le_refl _)] at h1
          · simp [Memory.read] at h1
          · have := Memory.above_mono (Nat.le_of_lt hgt) hm.1
            simp only [Memory.above, List.all_cons, Bool.and_eq_true, decide_eq_true_eq] at *
            exact ⟨hgt, this⟩
      have hv : e.2 = f.2 := by
        have := h e.1
        simpa [Memory.read, key] using this
      have hef : e = f := Prod.ext key hv
      subst hef
      congr 1
      refine ih hm.2 hn.2 fun a => ?_
      by_cases ha : a = e.1
      · subst ha
        rw [Memory.read_eq_none_of_above hm.1 (Nat.le_refl _), Memory.read_eq_none_of_above hn.1 (Nat.le_refl _)]
      · have := h a
        simpa [Memory.read, ha] using this

/-- Writing the value a cell holds changes nothing. -/
theorem Memory.write_of_read {m : Memory α} (hm : Memory.wf m = true) {a : Nat} {v : α}
    (h : Memory.read m a = some v) : Memory.write m a v = m := by
  refine Memory.ext_of_read (Memory.wf_write hm a v) hm fun b => ?_
  rw [Memory.read_write]
  split
  · next hb => rw [hb, h]
  · rfl

/-- Writing back what several cells hold changes nothing. -/
theorem Memory.writeN_of_readN {m : Memory α} (hm : Memory.wf m = true) {a n : Nat} {vs : List α}
    (h : Memory.readN m a n = some vs) : Memory.writeN m a vs = m := by
  refine Memory.ext_of_read (Memory.wf_writeN hm a vs) hm fun b => ?_
  rw [Memory.read_writeN]
  split
  · next hb =>
    have hl := Memory.readN_length h
    have := Memory.readN_get h (b - a) (by omega)
    rw [← this]; congr 1; omega
  · rfl

/-- The contents after a cell's value is taken away. -/
theorem Memory.read_erase (m : Memory α) (a b : Nat) :
    (Memory.erase m a).read b = if b = a then none else Memory.read m b := by
  induction m with
  | nil => simp [Memory.erase, Memory.read]
  | cons e m ih =>
    simp only [Memory.erase, List.filter_cons] at ih ⊢
    by_cases he : e.1 = a
    · by_cases hb : b = a
      · simp_all
      · simp_all [Memory.read]
    · by_cases hb : b = e.1
      · simp_all [Memory.read]
      · simp_all [Memory.read]

/-- The contents of a buffer are in canonical form, whatever the order of its cells. -/
theorem bufferContents_wf (cells : List (Nat × Byte)) : Memory.wf (bufferContents cells) = true := by
  have : ∀ (m : Memory Byte), Memory.wf m = true →
      Memory.wf (cells.foldl (fun m e => Memory.write m e.1 e.2) m) = true := by
    induction cells with
    | nil => intro m h; exact h
    | cons e cells ih => intro m h; exact ih _ (Memory.wf_write h _ _)
  exact this [] rfl

/-- The contents of a buffer lie inside it. -/
theorem bufferContents_within {size : Nat} {cells : List (Nat × Byte)}
    (h : (cells.all fun e => decide (e.1 < size)) = true) :
    Memory.within size (bufferContents cells) = true := by
  have : ∀ (m : Memory Byte), Memory.within size m = true →
      Memory.within size (cells.foldl (fun m e => Memory.write m e.1 e.2) m) = true := by
    induction cells with
    | nil => intro m h; exact h
    | cons e cells ih =>
      simp only [List.all_cons, Bool.and_eq_true, decide_eq_true_eq] at h
      intro m hm; exact ih h.2 _ (Memory.within_write hm h.1 _)
  exact this [] rfl

/-- The contents of a buffer after its last entries: what the entries before them left, overwritten. -/
theorem bufferContents_append (before later : List (Nat × Byte)) :
    bufferContents (before ++ later) = later.foldl (fun m e => Memory.write m e.1 e.2) (bufferContents before) :=
  List.foldl_append ..

/-- Entries for other cells leave a cell as it is. -/
theorem foldl_write_outside (m : Memory Byte) {later : List (Nat × Byte)} {a : Nat} (h : ∀ c, (a, c) ∉ later) :
    Memory.read (later.foldl (fun m e => Memory.write m e.1 e.2) m) a = Memory.read m a := by
  induction later generalizing m with
  | nil => rfl
  | cons e later ih =>
    have hne : a ≠ e.1 := fun he => h e.2 (by simp [he])
    rw [List.foldl_cons, ih _ fun c hc => h c (List.mem_cons_of_mem _ hc), Memory.read_write, if_neg hne]

/-- A cell of a buffer holds what the last entry for it says. -/
theorem bufferContents_read {before later : List (Nat × Byte)} {a : Nat} {b : Byte} (h : ∀ c, (a, c) ∉ later) :
    Memory.read (bufferContents (before ++ (a, b) :: later)) a = some b := by
  rw [bufferContents_append, List.foldl_cons, foldl_write_outside _ h, Memory.read_write_self]

/-- A cell of a buffer without an entry holds no value. -/
theorem bufferContents_read_none {cells : List (Nat × Byte)} {a : Nat} (h : ∀ b, (a, b) ∉ cells) :
    Memory.read (bufferContents cells) a = none := foldl_write_outside [] h

/-! ## Entries and their number -/

/-- A cell that reads as a value is listed with it. -/
theorem Memory.mem_of_read {m : Memory α} {a : Nat} {v : α} (h : m.read a = some v) : (a, v) ∈ m := by
  induction m with
  | nil => cases h
  | cons e m ih =>
    obtain ⟨k, w⟩ := e
    simp only [Memory.read] at h
    split at h
    · next hk => cases h; subst hk; simp
    · exact List.mem_cons_of_mem _ (ih h)

/-- In a canonical memory a listed cell reads as its value. -/
theorem Memory.read_of_mem {m : Memory α} (hm : Memory.wf m = true) {a : Nat} {v : α} (h : (a, v) ∈ m) :
    m.read a = some v := by
  induction m with
  | nil => cases h
  | cons e m ih =>
    obtain ⟨k, w⟩ := e
    simp only [Memory.wf, Bool.and_eq_true] at hm
    rcases List.mem_cons.1 h with h | h
    · cases h; simp [Memory.read]
    · have := hm.1
      simp only [Memory.above, List.all_eq_true, decide_eq_true_eq] at this
      have hk := this _ h
      rw [Memory.read, if_neg (by simp only at hk; omega)]
      exact ih hm.2 h

/-- What a write lists: the cell written, and cells that were listed before. -/
theorem Memory.mem_write {m : Memory α} {a : Nat} {v : α} {e : Nat × α} (h : e ∈ Memory.write m a v) :
    e = (a, v) ∨ e ∈ m := by
  induction m with
  | nil => simpa [Memory.write] using h
  | cons f m ih =>
    obtain ⟨k, w⟩ := f
    simp only [Memory.write] at h
    split at h
    · simpa using h
    · split at h
      · rcases List.mem_cons.1 h with h | h
        · exact .inl h
        · exact .inr (List.mem_cons_of_mem _ h)
      · rcases List.mem_cons.1 h with h | h
        · exact .inr (h ▸ List.mem_cons_self)
        · exact (ih h).imp id (List.mem_cons_of_mem _)

/-- What an erasure lists: the other cells. -/
theorem Memory.mem_erase {m : Memory α} {a : Nat} {e : Nat × α} : e ∈ Memory.erase m a ↔ e ∈ m ∧ e.1 ≠ a := by
  simp [Memory.erase]

/-- A write of a new cell adds one entry. -/
theorem Memory.length_write {m : Memory α} {a : Nat} (h : m.read a = none) (v : α) :
    (Memory.write m a v).length = m.length + 1 := by
  induction m with
  | nil => rfl
  | cons f m ih =>
    obtain ⟨k, w⟩ := f
    simp only [Memory.read] at h
    split at h
    · cases h
    · next hk =>
      simp only [Memory.write, if_neg hk]
      split
      · simp
      · simp [ih h]

/-- In a canonical memory the erasure of a listed cell takes one entry away. -/
theorem Memory.length_erase {m : Memory α} (hm : Memory.wf m = true) {a : Nat} {v : α} (h : m.read a = some v) :
    (Memory.erase m a).length + 1 = m.length := by
  induction m with
  | nil => cases h
  | cons f m ih =>
    obtain ⟨k, w⟩ := f
    simp only [Memory.wf, Bool.and_eq_true] at hm
    simp only [Memory.read] at h
    split at h
    · next hk =>
      subst hk
      have : Memory.erase m a = m := by
        refine List.filter_eq_self.2 fun e he => ?_
        have h1 := hm.1
        simp only [Memory.above, List.all_eq_true, decide_eq_true_eq] at h1
        have := h1 e he
        simp; omega
      have he : Memory.erase ((a, w) :: m) a = Memory.erase m a := by simp [Memory.erase]
      rw [he, this]; rfl
    · next hk =>
      have he : Memory.erase ((k, w) :: m) a = (k, w) :: Memory.erase m a := by
        simp only [Memory.erase]
        rw [List.filter_cons_of_pos (by simpa using Ne.symm hk)]
      rw [he]; simp [ih hm.2 h]

end Sys2Proof.Machine
end

