-- ==== Sys2Proof/Laws/WordCodec.lean ====
section
/-! SUPPORT. Byte order and bit fields: images and values are inverse to each other (40_word_codec.md R94), lengths of images, and the accesses to `WIRE` in terms of runs of bytes. -/

namespace Sys2Proof

/-! ## Images and values -/

@[simp] theorem be16_length (h : Half) : (be16 h).length = 2 := rfl
@[simp] theorem be32_length (v : Word) : (be32 v).length = 4 := rfl

/-- The value of a 16-bit image is the value it was made from. -/
theorem ofBe16_be16 (h : Half) : ofBe16 (h.extractLsb' 8 8) (h.extractLsb' 0 8) = h := by
  apply BitVec.eq_of_getLsbD_eq
  intro i hi
  simp only [ofBe16, BitVec.getLsbD_append, BitVec.getLsbD_extractLsb']
  by_cases h8 : i < 8
  · simp [h8]
  · have : i - 8 < 8 := by omega
    have h1 : 8 + (i - 8) = i := by omega
    simp [h8, this, h1]

/-- The value of a 32-bit image is the value it was made from. -/
theorem ofBe32_be32 (v : Word) :
    ofBe32 (v.extractLsb' 24 8) (v.extractLsb' 16 8) (v.extractLsb' 8 8) (v.extractLsb' 0 8) = v := by
  apply BitVec.eq_of_getLsbD_eq
  intro i hi
  simp only [ofBe32, BitVec.getLsbD_append, BitVec.getLsbD_extractLsb']
  by_cases h8 : i < 8
  · simp [h8]
  · by_cases h16 : i < 16
    · have h1 : i - 8 < 8 := by omega
      have h2 : 8 + (i - 8) = i := by omega
      simp [h8, h1, h2]
    · by_cases h24 : i < 24
      · have h0 : ¬ i - 8 < 8 := by omega
        have h1 : i - 8 - 8 < 8 := by omega
        have h2 : 16 + (i - 8 - 8) = i := by omega
        simp [h8, h0, h1, h2]
      · have h0 : ¬ i - 8 < 8 := by omega
        have h0' : ¬ i - 8 - 8 < 8 := by omega
        have h1 : i - 8 - 8 - 8 < 8 := by omega
        have h2 : 24 + (i - 8 - 8 - 8) = i := by omega
        simp [h8, h0, h0', h1, h2]

/-- `rdBE16` as a number: `S[a]*256 + S[a+1]` (R92). -/
theorem ofBe16_toNat (b0 b1 : Byte) : (ofBe16 b0 b1).toNat = b0.toNat * 256 + b1.toNat := by
  simp only [ofBe16, BitVec.toNat_append]
  rw [← Nat.shiftLeft_add_eq_or_of_lt b1.isLt, Nat.shiftLeft_eq]

/-- `rdBE32` as a number: `S[a]*2^24 + S[a+1]*2^16 + S[a+2]*2^8 + S[a+3]` (R90). -/
theorem ofBe32_toNat (b0 b1 b2 b3 : Byte) : (ofBe32 b0 b1 b2 b3).toNat
    = b0.toNat * 2 ^ 24 + b1.toNat * 2 ^ 16 + b2.toNat * 2 ^ 8 + b3.toNat := by
  simp only [ofBe32, BitVec.toNat_append]
  rw [← Nat.shiftLeft_add_eq_or_of_lt b3.isLt, ← Nat.shiftLeft_add_eq_or_of_lt b2.isLt,
    ← Nat.shiftLeft_add_eq_or_of_lt b1.isLt]
  simp only [Nat.shiftLeft_eq]
  omega

/-- The image of the value of two bytes is those bytes. -/
theorem be16_ofBe16 (b0 b1 : Byte) : be16 (ofBe16 b0 b1) = [b0, b1] := by
  have h0 := b0.isLt
  have h1 := b1.isLt
  simp only [be16, List.cons.injEq, and_true]
  constructor <;>
    (apply BitVec.eq_of_toNat_eq
     rw [BitVec.extractLsb'_toNat, ofBe16_toNat, Nat.shiftRight_eq_div_pow]
     omega)

/-- The image of the value of four bytes is those bytes. -/
theorem be32_ofBe32 (b0 b1 b2 b3 : Byte) : be32 (ofBe32 b0 b1 b2 b3) = [b0, b1, b2, b3] := by
  have h0 := b0.isLt
  have h1 := b1.isLt
  have h2 := b2.isLt
  have h3 := b3.isLt
  simp only [be32, List.cons.injEq, and_true]
  refine ⟨?_, ?_, ?_, ?_⟩ <;>
    (apply BitVec.eq_of_toNat_eq
     rw [BitVec.extractLsb'_toNat, ofBe32_toNat, Nat.shiftRight_eq_div_pow]
     omega)

/-! ## Lists of words -/

@[simp] theorem wordBytes_nil : wordBytes [] = [] := rfl

@[simp] theorem wordBytes_length (vs : List Word) : (wordBytes vs).length = 4 * vs.length := by
  induction vs with
  | nil => rfl
  | cons v vs ih => simp [wordBytes, ih]; omega

/-- The words of an image are the words it was made from. -/
theorem wordsOf_wordBytes (vs : List Word) : wordsOf (wordBytes vs) = some vs := by
  induction vs with
  | nil => rfl
  | cons v vs ih =>
    have : wordBytes (v :: vs) = v.extractLsb' 24 8 :: v.extractLsb' 16 8 :: v.extractLsb' 8 8
        :: v.extractLsb' 0 8 :: wordBytes vs := rfl
    simp [this, wordsOf, ih, ofBe32_be32]

/-- Bytes that are words are the image of those words. -/
theorem wordBytes_of_wordsOf {bytes : List Byte} {vs : List Word} (h : wordsOf bytes = some vs) :
    wordBytes vs = bytes := by
  induction vs generalizing bytes with
  | nil =>
    unfold wordsOf at h
    split at h
    · rfl
    · simp at h
    · cases h
  | cons v vs ih =>
    unfold wordsOf at h
    split at h
    · cases h
    · next b0 b1 b2 b3 rest =>
      simp only [Option.map_eq_some_iff, List.cons.injEq] at h
      obtain ⟨ws, hws, hv, hvs⟩ := h
      subst hvs
      simp [wordBytes, ← hv, be32_ofBe32, ih hws]
    · cases h

/-- Byte `4*i + j` of an image of words is byte `j` of word `i`. -/
theorem wordBytes_get (vs : List Word) (i j : Nat) (hi : i < vs.length) (hj : j < 4) :
    (wordBytes vs)[4 * i + j]? = (be32 vs[i])[j]? := by
  induction vs generalizing i with
  | nil => simp at hi
  | cons v vs ih =>
    cases i with
    | zero =>
      simp only [wordBytes]
      rw [List.getElem?_append_left (by simp; omega)]
      simp
    | succ i =>
      simp only [wordBytes]
      rw [List.getElem?_append_right (by simp; omega)]
      have h1 : 4 * (i + 1) + j - (be32 v).length = 4 * i + j := by simp; omega
      rw [h1, ih i (by simpa using hi)]
      simp

/-! ## The fixed header -/

@[simp] theorem Header.bytes_length (h : Header) : h.bytes.length = 12 := rfl

/-- The version bits of byte 0 are always 2 (30_encoding.md R60). -/
@[simp] theorem versionOf_byte0 (h : Header) : versionOf h.byte0 = rtpVersion := by
  obtain ⟨p, x, cc, m, pt, seq, ts, ssrc⟩ := h
  revert p x cc
  simp only [Header.byte0, versionOf, rtpVersion]
  decide

/-- The fields of bytes 0 and 1 are the fields they were made from. -/
theorem Header.ofFields_bytes (h : Header) : Header.ofFields h.byte0 h.byte1 h.seq h.ts h.ssrc = h := by
  obtain ⟨p, x, cc, m, pt, seq, ts, ssrc⟩ := h
  have e0 : ∀ (p x : Bool) (cc : BitVec 4),
      ((rtpVersion ++ BitVec.ofBool p ++ BitVec.ofBool x ++ cc : BitVec 8).getLsbD 5 = p) ∧
      ((rtpVersion ++ BitVec.ofBool p ++ BitVec.ofBool x ++ cc : BitVec 8).getLsbD 4 = x) ∧
      ((rtpVersion ++ BitVec.ofBool p ++ BitVec.ofBool x ++ cc : BitVec 8).extractLsb' 0 4 = cc) := by
    unfold rtpVersion; decide
  have e1 : ∀ (m : Bool) (pt : BitVec 7),
      ((BitVec.ofBool m ++ pt : BitVec 8).getLsbD 7 = m) ∧
      ((BitVec.ofBool m ++ pt : BitVec 8).extractLsb' 0 7 = pt) := by decide
  simp only [Header.ofFields, Header.byte0, Header.byte1, e0, e1]

/-- Byte 0 of the fields of a byte with version 2 is that byte. -/
theorem Header.byte0_ofFields (b0 b1 : Byte) (seq : Half) (ts ssrc : Word) (hv : versionOf b0 = rtpVersion) :
    (Header.ofFields b0 b1 seq ts ssrc).byte0 = b0 := by
  revert hv
  simp only [Header.ofFields, Header.byte0, versionOf, rtpVersion]
  revert b0
  decide

/-- Byte 1 of the fields of a byte is that byte. -/
theorem Header.byte1_ofFields (b0 b1 : Byte) (seq : Half) (ts ssrc : Word) :
    (Header.ofFields b0 b1 seq ts ssrc).byte1 = b1 := by
  simp only [Header.ofFields, Header.byte1]
  revert b1
  decide

/-! ## The command word -/

/-- The fields of a command word are the fields it was made from, and bits 7:6 are `00`. -/
theorem cmdWord_fields (p : Present) (op : BitVec 2) :
    opOf (cmdWord p op) = op ∧ presentOf (cmdWord p op) = p ∧ (cmdWord p op).extractLsb' 6 2 = 0 := by
  obtain ⟨c, k, b, l⟩ := p
  revert c k b l op
  decide

/-- A command word with bits 7:6 `00` is made of its fields. -/
theorem cmdWord_of_fields (w : Byte) (h : w.extractLsb' 6 2 = 0) : cmdWord (presentOf w) (opOf w) = w := by
  revert w
  decide

/-- Every byte is some command word. -/
theorem decode_cmd_total (lenW : Nat) (w : Byte) : decode lenW .cmd [w] = .ok (decodeCmd w) := rfl

namespace Machine

/-! ## Accesses to `WIRE` -/

/-- `rdBE16` reads two cells and nothing else. -/
theorem Memory.readBE16_eq_some {m : Memory Byte} {a : Nat} {h : Half} :
    m.readBE16 a = some h ↔ ∃ b0 b1, m.read a = some b0 ∧ m.read (a + 1) = some b1 ∧ ofBe16 b0 b1 = h := by
  unfold Memory.readBE16
  split
  · next b0 b1 h0 h1 => simp [h0, h1]
  · next hn =>
    constructor
    · intro h; cases h
    · rintro ⟨b0, b1, h0, h1, -⟩; exact absurd h1 (hn b0 b1 h0)

/-- `rdBE32` reads four cells and nothing else. -/
theorem Memory.readBE32_eq_some {m : Memory Byte} {a : Nat} {v : Word} :
    m.readBE32 a = some v ↔ ∃ b0 b1 b2 b3, m.read a = some b0 ∧ m.read (a + 1) = some b1
      ∧ m.read (a + 2) = some b2 ∧ m.read (a + 3) = some b3 ∧ ofBe32 b0 b1 b2 b3 = v := by
  unfold Memory.readBE32
  split
  · next b0 b1 b2 b3 h0 h1 h2 h3 => simp [h0, h1, h2, h3]
  · next hn =>
    constructor
    · intro h; cases h
    · rintro ⟨b0, b1, b2, b3, h0, h1, h2, h3, -⟩; exact absurd h3 (hn b0 b1 b2 b3 h0 h1 h2)

/-- `rdBE16` of cells that hold a 16-bit image gives its value. -/
theorem Memory.readBE16_of_image {m : Memory Byte} {a : Nat} (h : Half)
    (hm : ∀ i, i < 2 → m.read (a + i) = (be16 h)[i]?) : m.readBE16 a = some h := by
  rw [Memory.readBE16_eq_some]
  exact ⟨_, _, by simpa [be16] using hm 0 (by omega), by simpa [be16] using hm 1 (by omega), ofBe16_be16 h⟩

/-- `rdBE32` of cells that hold a 32-bit image gives its value. -/
theorem Memory.readBE32_of_image {m : Memory Byte} {a : Nat} (v : Word)
    (hm : ∀ i, i < 4 → m.read (a + i) = (be32 v)[i]?) : m.readBE32 a = some v := by
  rw [Memory.readBE32_eq_some]
  exact ⟨_, _, _, _, by simpa [be32] using hm 0 (by omega), by simpa [be32] using hm 1 (by omega),
    by simpa [be32] using hm 2 (by omega), by simpa [be32] using hm 3 (by omega), ofBe32_be32 v⟩

/-- The cells `rdBE32` reads are the image of its value. -/
theorem Memory.readN_of_readBE32 {m : Memory Byte} {a : Nat} {v : Word} (h : m.readBE32 a = some v) :
    m.readN a 4 = some (be32 v) := by
  obtain ⟨b0, b1, b2, b3, h0, h1, h2, h3, hv⟩ := Memory.readBE32_eq_some.1 h
  subst hv
  rw [be32_ofBe32, Memory.readN_eq_some]
  refine ⟨rfl, fun i hi => ?_⟩
  match i, hi with
  | 0, _ => simpa using h0
  | 1, _ => simpa using h1
  | 2, _ => simpa using h2
  | 3, _ => simpa using h3

/-- The cells `rdBE16` reads are the image of its value. -/
theorem Memory.readN_of_readBE16 {m : Memory Byte} {a : Nat} {h : Half} (hr : m.readBE16 a = some h) :
    m.readN a 2 = some (be16 h) := by
  obtain ⟨b0, b1, h0, h1, hv⟩ := Memory.readBE16_eq_some.1 hr
  subst hv
  rw [be16_ofBe16, Memory.readN_eq_some]
  refine ⟨rfl, fun i hi => ?_⟩
  match i, hi with
  | 0, _ => simpa using h0
  | 1, _ => simpa using h1

end Machine

end Sys2Proof
end

