-- ==== Sys2Proof/Laws/Ops.lean ====
section
/-! SUPPORT. What each shared operation of Machine/Ops.lean, Machine/Operands.lean and Machine/WordCodec.lean can do, said once: the provers cite these instead of unfolding the operations. -/

namespace Sys2Proof.Machine

/-! ## `need` -/

@[simp] theorem need_some {α : Type} (v : α) (k : α → Out) : need (some v) k = k v := rfl

@[simp] theorem need_none {α : Type} (k : α → Out) : need (none : Option α) k = .refused .unwrittenRead := rfl

/-- A next state after `need` means there was a value and the rest answered that state. -/
theorem need_eq_next {α : Type} {o : Option α} {k : α → Out} {t : State} :
    need o k = .next t ↔ ∃ v, o = some v ∧ k v = .next t := by
  cases o <;> simp

/-! ## The race -/

/-- A missing value refuses, so an operation over `need` faults only where its continuation does. -/
theorem need_ne_fault {α : Type} {o : Option α} {k : α → Out} {f : Fault} (h : ∀ v, k v ≠ .fault f) :
    need o k ≠ .fault f := by
  cases o with
  | none => intro hf; cases hf
  | some v => exact h v

@[simp] theorem orFree_some (v w : Nat) (k : Nat → State → Out) (s : State) : orFree (some v) w k s = k v s := rfl

@[simp] theorem orFree_none (w : Nat) (k : Nat → State → Out) (s : State) :
    orFree none w k s = k (s.freeValue w) s.withDraw := rfl

/-- A free value has the bits it is drawn for, and nothing else is known of it. -/
theorem State.freeValue_lt (s : State) (w : Nat) : s.freeValue w < 2 ^ w := Nat.mod_lt _ (Nat.two_pow_pos w)

/-- All a host's read of a value that may be missing can do. -/
theorem orFree_eq_next {o : Option Nat} {w : Nat} {k : Nat → State → Out} {s t : State} : orFree o w k s = .next t ↔
    (∃ v, o = some v ∧ k v s = .next t) ∨ (o = none ∧ k (s.freeValue w) s.withDraw = .next t) := by
  cases o <;> simp

/-- With `CTX.INIT = 1` there is no race (41_init.md R103). -/
theorem initRace_of_init {s : State} (h : s.ctxInit = true) : s.initRace = false := by
  simp [State.initRace, h]

/-! ## Handing out and laying -/

/-- All a read primitive can do. -/
theorem handOut_eq_next {w : Nat} {here : Bool} {o : Option (BitVec w)} {s t : State} :
    handOut here o s = .next t ↔ here = true ∧ ∃ v, o = some v ∧ t = s.withReadData v.toNat := by
  unfold handOut
  cases here
  · simp
  · simp only [if_true, need_eq_next, true_and]
    constructor
    · rintro ⟨v, hv, ht⟩; cases ht; exact ⟨v, hv, rfl⟩
    · rintro ⟨v, hv, rfl⟩; exact ⟨v, hv, rfl⟩

/-- Where the `n` cells of `WIRE` from `a` on exist. -/
theorem Codec.wireHas_iff {c : Codec} {a n : Nat} : c.wireHas a n = true ↔ n = 0 ∨ a + n ≤ c.wireSize := by
  simp [Codec.wireHas]

/-- All a write primitive or a wire format can do. -/
theorem layOnWire_eq_next {off : Nat} {bytes : List Byte} {s t : State} :
    layOnWire off bytes s = .next t ↔ (bytes.length = 0 ∨ off + bytes.length ≤ s.codec.wireSize)
      ∧ t = s.withCodec (s.codec.withWire (s.codec.wire.writeN off bytes)) := by
  unfold layOnWire
  split
  · next h =>
    constructor
    · intro h'; cases h'; exact ⟨Codec.wireHas_iff.1 h, rfl⟩
    · rintro ⟨-, rfl⟩; rfl
  · next h =>
    rw [Codec.wireHas_iff] at h
    constructor
    · intro h'; cases h'
    · rintro ⟨h', -⟩; exact absurd h' h

/-- When the cells exist, laying bytes answers a next state. -/
theorem layOnWire_next {off : Nat} {bytes : List Byte} {s : State}
    (h : bytes.length = 0 ∨ off + bytes.length ≤ s.codec.wireSize) :
    layOnWire off bytes s = .next (s.withCodec (s.codec.withWire (s.codec.wire.writeN off bytes))) :=
  layOnWire_eq_next.2 ⟨h, rfl⟩

/-- When a cell is missing, laying bytes faults. -/
theorem layOnWire_fault {off : Nat} {bytes : List Byte} {s : State} (hb : bytes.length ≠ 0)
    (h : s.codec.wireSize < off + bytes.length) : layOnWire off bytes s = .fault .noSuchCell := by
  have : s.codec.wireHas off bytes.length = false := by
    rw [Bool.eq_false_iff, Ne, Codec.wireHas_iff]; omega
  simp [layOnWire, this]

/-! ## Lengths and places -/

@[simp] theorem extBytes_length (profile : Half) (words : List Word) :
    (extBytes profile words).length = 4 + 4 * words.length := by
  simp [extBytes]; omega

/-- The bytes a packet has, section by section (30_encoding.md R65). -/
theorem TxPacket.bytes_length (t : TxPacket) : t.bytes.length
    = 12 + 4 * t.csrc.length + (match t.ext with | some e => 4 + 4 * e.2.length | none => 0) + t.payload.length := by
  obtain ⟨h, ids, ext, pay⟩ := t
  cases ext <;> simp [TxPacket.bytes] <;> omega

/-- Where the extension section starts. -/
theorem extStart_eq (cc : BitVec 4) : extStart cc = 12 + 4 * cc.toNat := rfl

@[simp] theorem extSize_none : extSize none = 0 := rfl

@[simp] theorem extSize_some (n : Half) : extSize (some n) = 4 + 4 * n.toNat := rfl

/-! ## The operands of an emission -/

/-- All the reads of the required length (42_serialize.md R112). -/
theorem Pkt.requiredLength_eq_some {p : Pkt} {req : Nat} : p.requiredLength = some req ↔
    ∃ n cc len, p.extOperand = some n ∧ p.cc.read = some cc ∧ p.payLen.read = some len
      ∧ req = payStart cc n + len := by
  unfold Pkt.requiredLength
  split
  · next n cc len hn hcc hl => simp [hn, hcc, hl, eq_comm]
  · next hno =>
    constructor
    · intro h; cases h
    · rintro ⟨n, cc, len, hn, hcc, hl, -⟩; exact absurd hl (hno n cc len hn hcc)

/-- All the reads of the extension length. -/
theorem Pkt.extOperand_eq_some {p : Pkt} {o : Option Half} : p.extOperand = some o ↔
    (p.x.read = some false ∧ o = none) ∨ (p.x.read = some true ∧ ∃ n, p.extLen.read = some n ∧ o = some n) := by
  unfold Pkt.extOperand
  split
  · next h => simp [h]
  · next h => simp [h, eq_comm]
  · next h => simp [h, eq_comm]

/-- All the reads of the fixed header. -/
theorem Pkt.header_eq_some {p : Pkt} {h : Header} : p.header = some h ↔
    p.p.read = some h.p ∧ p.x.read = some h.x ∧ p.cc.read = some h.cc ∧ p.m.read = some h.m
      ∧ p.pt.read = some h.pt ∧ p.seq.read = some h.seq ∧ p.ts.read = some h.ts ∧ p.ssrc.read = some h.ssrc := by
  unfold Pkt.header
  split
  · next hp hx hcc hm hpt hseq hts hssrc =>
    simp only [hp, hx, hcc, hm, hpt, hseq, hts, hssrc, Option.some.injEq]
    constructor
    · rintro rfl; simp
    · rintro ⟨rfl, rfl, rfl, rfl, rfl, rfl, rfl, rfl⟩; rfl
  · next hno =>
    constructor
    · intro h; cases h
    · rintro ⟨hp, hx, hcc, hm, hpt, hseq, hts, hssrc⟩
      exact absurd hssrc (hno _ _ _ _ _ _ _ _ hp hx hcc hm hpt hseq hts)

/-- All the reads of the extension section. -/
theorem Codec.extPacket_eq_some {c : Codec} {e : Option (Half × List Word)} : c.extPacket = some e ↔
    (c.pkt.extOperand = some none ∧ e = none)
    ∨ ∃ n profile words, c.pkt.extOperand = some (some n) ∧ c.pkt.extProfile.read = some profile
        ∧ c.txext.readN 0 n.toNat = some words ∧ e = some (profile, words) := by
  unfold Codec.extPacket
  split
  · next h => simp [h]
  · next h => simp [h, eq_comm]
  · next n h =>
    split
    · next profile words hp hw => simp [h, hp, hw, eq_comm]
    · next hno =>
      constructor
      · intro h'; cases h'
      · rintro (⟨h', -⟩ | ⟨n', profile, words, h', hp, hw, -⟩)
        · rw [h] at h'; cases h'
        · rw [h] at h'; cases h'; exact absurd hw (hno _ _ hp)

/-- All the reads of an emission (42_serialize.md R122). -/
theorem Codec.txPacket_eq_some {c : Codec} {t : TxPacket} : c.txPacket = some t ↔
    c.pkt.header = some t.header ∧ c.extPacket = some t.ext ∧ c.pkt.payLen.read = some t.payload.length
      ∧ c.txcsrc.readN 0 t.header.cc.toNat = some t.csrc ∧ c.txpay.readN 0 t.payload.length = some t.payload := by
  unfold Codec.txPacket
  split
  · next h e len hh he hl =>
    split
    · next ids bytes hi hb =>
      have hlen := Memory.readN_length hb
      constructor
      · intro ht; cases ht; exact ⟨hh, he, by rw [hl, hlen], hi, by rw [hlen]; exact hb⟩
      · rintro ⟨h1, h2, h3, h4, h5⟩
        rw [hh] at h1; cases h1
        rw [he] at h2; cases h2
        rw [hl] at h3; cases h3
        rw [hi] at h4; cases h4
        rw [hb] at h5; cases h5
        rfl
    · next hno =>
      constructor
      · intro h'; cases h'
      · rintro ⟨h1, h2, h3, h4, h5⟩
        rw [hh] at h1; cases h1
        rw [hl] at h3; cases h3
        exact absurd h5 (hno _ _ h4)
  · next hno =>
    constructor
    · intro h'; cases h'
    · rintro ⟨h1, h2, h3, -, -⟩; exact absurd h3 (hno _ _ _ h1 h2)

/-- The packet of an emission has the required length (42_serialize.md R112, R118: "now w = req"). -/
theorem Codec.txPacket_length {c : Codec} {t : TxPacket} {req : Nat} (ht : c.txPacket = some t)
    (hr : c.pkt.requiredLength = some req) : t.bytes.length = req := by
  obtain ⟨hh, he, hl, hi, hb⟩ := Codec.txPacket_eq_some.1 ht
  obtain ⟨n, cc, len, hn, hcc, hlen, rfl⟩ := Pkt.requiredLength_eq_some.1 hr
  obtain ⟨-, -, hcc', -⟩ := Pkt.header_eq_some.1 hh
  rw [hcc] at hcc'; cases hcc'
  rw [hlen] at hl; cases hl
  rw [TxPacket.bytes_length, Memory.readN_length hi]
  rcases Codec.extPacket_eq_some.1 he with ⟨hn', he'⟩ | ⟨m, profile, words, hn', -, hw, he'⟩
  · rw [hn] at hn'; cases hn'
    rw [he', payStart, extStart_eq]; simp
  · rw [hn] at hn'; cases hn'
    rw [he', payStart, extStart_eq]
    simp [Memory.readN_length hw]

/-! ## The fixed header on `WIRE` -/

/-- All the reads of a received fixed header (43_deserialize.md R134). -/
theorem readHeader_eq_some {m : Memory Byte} {h : Header} : readHeader m = some h ↔
    ∃ b0 b1 seq ts ssrc, m.read 0 = some b0 ∧ m.read 1 = some b1 ∧ m.readBE16 2 = some seq
      ∧ m.readBE32 4 = some ts ∧ m.readBE32 8 = some ssrc ∧ h = Header.ofFields b0 b1 seq ts ssrc := by
  unfold readHeader
  split
  · next b0 b1 seq ts ssrc h0 h1 h2 h4 h8 => simp [h0, h1, h2, h4, h8, eq_comm]
  · next hno =>
    constructor
    · intro h'; cases h'
    · rintro ⟨b0, b1, seq, ts, ssrc, h0, h1, h2, h4, h8, -⟩; exact absurd h8 (hno _ _ _ _ _ h0 h1 h2 h4)

/-! ## Words in an image -/

/-- A list of words laid on `WIRE` reads back word by word (30_encoding.md R62). -/
theorem Memory.readBE32_of_wordBytes {m : Memory Byte} {off : Nat} {ws : List Word}
    (hm : ∀ j, j < 4 * ws.length → m.read (off + j) = (wordBytes ws)[j]?) (k : Nat) (hk : k < ws.length) :
    m.readBE32 (off + 4 * k) = ws[k]? := by
  rw [List.getElem?_eq_getElem hk]
  refine Memory.readBE32_of_image _ fun i hi => ?_
  rw [Nat.add_assoc, hm _ (by omega), wordBytes_get ws k i hk hi]

/-- An extension section laid on `WIRE` reads back: profile, length-in-words, data words (R63). -/
theorem Memory.reads_of_extBytes {m : Memory Byte} {off : Nat} {profile : Half} {ws : List Word}
    (hm : ∀ j, j < 4 + 4 * ws.length → m.read (off + j) = (extBytes profile ws)[j]?) :
    m.readBE16 off = some profile ∧ m.readBE16 (off + 2) = some (BitVec.ofNat 16 ws.length)
      ∧ ∀ k, k < ws.length → m.readBE32 (off + 4 + 4 * k) = ws[k]? := by
  refine ⟨Memory.readBE16_of_image _ fun i hi => ?_, Memory.readBE16_of_image _ fun i hi => ?_, fun k hk => ?_⟩
  · rw [hm _ (by omega)]
    match i, hi with
    | 0, _ => rfl
    | 1, _ => rfl
  · rw [Nat.add_assoc, hm _ (by omega)]
    match i, hi with
    | 0, _ => rfl
    | 1, _ => rfl
  · refine Memory.readBE32_of_wordBytes (fun j hj => ?_) k hk
    rw [Nat.add_assoc, hm _ (by omega), extBytes, List.getElem?_append_right (by simp)]
    simp

/-- Four adjacent runs of writes are one. -/
theorem Memory.writeN_append4 {α : Type} (m : Memory α) {a b c d : List α} {x y z : Nat} (hx : x = a.length)
    (hy : y = a.length + b.length) (hz : z = a.length + b.length + c.length) :
    Memory.writeN m 0 (a ++ (b ++ (c ++ d)))
      = Memory.writeN (Memory.writeN (Memory.writeN (Memory.writeN m 0 a) x b) y c) z d := by
  subst hx hy hz; simp only [Memory.writeN_append, Nat.zero_add]

end Sys2Proof.Machine
end

