-- ==== Sys2Proof/Laws/Meanings.lean ====
section
/-! SUPPORT. One inversion lemma per stage of a meaning: "if it answers a next state, then one of these cases holds", guards included, so that a later proof cites it instead of unfolding the meaning. -/

namespace Sys2Proof.Machine

/-! ## INIT -/

/-- All INIT can do (41_init.md R101). -/
theorem execInit_next (p : Present) (s : State) : execInit p s
    = .next (if p.c then s.setInit.done else s.raise .badParam) := by
  unfold execInit; split <;> rfl

/-! ## SERIALIZE -/

/-- The state a successful emission of `t` ends in (42_serialize.md R117 to R119). -/
def emitted (t : TxPacket) (s : State) : State :=
  s.withCodec (((s.codec.withWire (s.codec.wire.writeN 0 t.bytes)).withCap t.bytes.length).withResult .ok)

@[simp] theorem serializeWrite_eq (t : TxPacket) (s : State) : serializeWrite t s = .next (emitted t s) := rfl

@[simp] theorem emitted_wire (t : TxPacket) (s : State) :
    (emitted t s).codec.wire = s.codec.wire.writeN 0 t.bytes := by simp [emitted]

@[simp] theorem emitted_cap (t : TxPacket) (s : State) :
    (emitted t s).codec.cap = Reg.holding t.bytes.length := by simp [emitted, Codec.withCap]

@[simp] theorem emitted_result (t : TxPacket) (s : State) :
    (emitted t s).codec.result = Reg.holding .ok := by simp [emitted, Codec.withResult]

@[simp] theorem emitted_pkt (t : TxPacket) (s : State) : (emitted t s).codec.pkt = s.codec.pkt := by simp [emitted]

@[simp] theorem emitted_wireSize (t : TxPacket) (s : State) :
    (emitted t s).codec.wireSize = s.codec.wireSize := by simp [emitted]

@[simp] theorem emitted_ctxInit (t : TxPacket) (s : State) : (emitted t s).ctxInit = s.ctxInit := by simp [emitted]

/-- The state a sizing query ends in (R114). -/
def sized (req : Nat) (s : State) : State := s.withCodec ((s.codec.withCap req).withResult .ok)

/-- All the emission can do once its checks are passed. -/
theorem serializeEmit_eq_next {s u : State} : serializeEmit s = .next u ↔
    ∃ t, s.codec.txPacket = some t ∧ u = emitted t s := by
  unfold serializeEmit
  rw [need_eq_next]
  simp [eq_comm]

/-- All stage 6 can do (R116). -/
theorem serializeChecked_eq_next {req : Nat} {s u : State} : serializeChecked req s = .next u ↔
    ∃ len p, s.codec.pkt.payLen.read = some len ∧ req ≤ s.codec.wireSize ∧ len ≤ s.params.txpaySize
      ∧ s.codec.pkt.p.read = some p
      ∧ ((p = true ∧ 0 < len ∧ ∃ last, s.codec.txpay.read (len - 1) = some last ∧ padConsistent last len = false
            ∧ u = s.raise .malformedPacket)
        ∨ ((p = true → 0 < len → ∃ last, s.codec.txpay.read (len - 1) = some last ∧ padConsistent last len = true)
            ∧ ∃ t, s.codec.txPacket = some t ∧ u = emitted t s)) := by
  unfold serializeChecked
  simp only [need_eq_next]
  constructor
  · rintro ⟨len, hl, h⟩
    split at h
    · cases h
    · next hb =>
      obtain ⟨p, hp, h⟩ := need_eq_next.1 h
      refine ⟨len, p, hl, by omega, by omega, hp, ?_⟩
      split at h
      · next hpl =>
        obtain ⟨last, hlast, h⟩ := need_eq_next.1 h
        split at h
        · next hpad => exact .inr ⟨fun _ _ => ⟨last, hlast, hpad⟩, serializeEmit_eq_next.1 h⟩
        · next hpad =>
          cases h
          exact .inl ⟨hpl.1, hpl.2, last, hlast, by simpa using hpad, rfl⟩
      · next hpl =>
        exact .inr ⟨fun h1 h2 => absurd ⟨h1, h2⟩ hpl, serializeEmit_eq_next.1 h⟩
  · rintro ⟨len, p, hl, hr, ht, hp, h⟩
    refine ⟨len, hl, ?_⟩
    rw [if_neg (by omega), hp, need_some]
    rcases h with ⟨hpt, hpos, last, hlast, hpad, rfl⟩ | ⟨hpad, hemit⟩
    · rw [if_pos ⟨hpt, hpos⟩, hlast, need_some, hpad]; rfl
    · split
      · next hpl =>
        obtain ⟨last, hlast, hp'⟩ := hpad hpl.1 hpl.2
        rw [hlast, need_some, hp', if_pos rfl]; exact serializeEmit_eq_next.2 hemit
      · exact serializeEmit_eq_next.2 hemit

/-- All stages 2 to 5 can do (R111 to R115). -/
theorem serializeReady_eq_next {b : Bool} {s u : State} : serializeReady b s = .next u ↔
    s.ctxInit = true ∧ ∃ req, s.codec.pkt.requiredLength = some req ∧ req ≤ s.params.maxLen
      ∧ ((b = false ∧ u = sized req s)
        ∨ (b = true ∧ ∃ cap, s.codec.cap.read = some cap
            ∧ ((cap < req ∧ u = s.raise .outOfMemory) ∨ (req ≤ cap ∧ serializeChecked req s = .next u)))) := by
  unfold serializeReady
  constructor
  · intro h
    split at h
    · next hi =>
      obtain ⟨req, hr, h⟩ := need_eq_next.1 h
      split at h
      · cases h
      · next hm =>
        refine ⟨hi, req, hr, by omega, ?_⟩
        split at h
        · next hb =>
          obtain ⟨cap, hc, h⟩ := need_eq_next.1 h
          refine .inr ⟨hb, cap, hc, ?_⟩
          split at h
          · next hlt => cases h; exact .inl ⟨hlt, rfl⟩
          · next hlt => exact .inr ⟨by omega, h⟩
        · next hb => cases h; exact .inl ⟨by simpa using hb, rfl⟩
    · cases h
  · rintro ⟨hi, req, hr, hm, h⟩
    rw [if_pos hi, hr, need_some, if_neg (by omega)]
    rcases h with ⟨rfl, rfl⟩ | ⟨rfl, cap, hc, h⟩
    · rfl
    · rw [if_pos rfl, hc, need_some]
      rcases h with ⟨hlt, rfl⟩ | ⟨hle, h⟩
      · rw [if_pos hlt]
      · rw [if_neg (by omega)]; exact h

/-- All SERIALIZE and SIZEQ can do (R110, then the later stages). -/
theorem serializeCommand_eq_next {p : Present} {s u : State} : serializeCommand p s = .next u ↔
    s.initRace = false
      ∧ ((¬ (p.c = true ∧ p.k = true ∧ p.l = true) ∧ u = s.raise .badParam)
        ∨ (p.c = true ∧ p.k = true ∧ p.l = true ∧ p.b = true
            ∧ s.codec.cap.read = some 0 ∧ u = s.raise .badParam)
        ∨ (p.c = true ∧ p.k = true ∧ p.l = true ∧ p.b = true
            ∧ (∃ cap, s.codec.cap.read = some cap ∧ cap ≠ 0) ∧ serializeReady true s = .next u)
        ∨ (p.c = true ∧ p.k = true ∧ p.l = true ∧ p.b = false ∧ serializeReady false s = .next u)) := by
  unfold serializeCommand
  constructor
  · intro h
    split at h
    · cases h
    · next hrace =>
      refine ⟨by simpa using hrace, ?_⟩
      split at h
      · next href =>
        obtain ⟨hc, hk, hl⟩ := href
        split at h
        · next hb =>
          obtain ⟨cap, hcap, h⟩ := need_eq_next.1 h
          split at h
          · next h0 => cases h; subst h0; exact .inr (.inl ⟨hc, hk, hl, hb, hcap, rfl⟩)
          · next h0 => exact .inr (.inr (.inl ⟨hc, hk, hl, hb, ⟨cap, hcap, h0⟩, h⟩))
        · next hb => exact .inr (.inr (.inr ⟨hc, hk, hl, by simpa using hb, h⟩))
      · next href => cases h; exact .inl ⟨href, rfl⟩
  · rintro ⟨hrace, h⟩
    rw [if_neg (by simp [hrace])]
    rcases h with ⟨href, rfl⟩ | ⟨hc, hk, hl, hb, hcap, rfl⟩ | ⟨hc, hk, hl, hb, ⟨cap, hcap, h0⟩, h⟩ | ⟨hc, hk, hl, hb, h⟩
    · rw [if_neg href]
    · rw [if_pos ⟨hc, hk, hl⟩, if_pos hb, hcap, need_some, if_pos rfl]
    · rw [if_pos ⟨hc, hk, hl⟩, if_pos hb, hcap, need_some, if_neg h0]; exact h
    · rw [if_pos ⟨hc, hk, hl⟩, if_neg (by simp [hb])]; exact h

/-! ## DESERIALIZE -/

/-- The state a failure ends in, and the state a successful DESERIALIZE ends in (43_deserialize.md R140). -/
def decodedState (h : Header) (profile extLen : Half) (extOff payOff payLen : Nat) (s : State) : State :=
  s.withCodec ((s.codec.withPkt (Pkt.decoded h profile extLen extOff payOff payLen)).withResult .ok)

@[simp] theorem deserializeCommit_eq (h : Header) (profile extLen : Half) (extOff payOff payLen : Nat) (s : State) :
    deserializeCommit h profile extLen extOff payOff payLen s
      = .next (decodedState h profile extLen extOff payOff payLen s) := rfl

/-- All stages 8 and 9 can do (R138, R139), with `payOff` the offset of the region. -/
theorem deserializePayload_eq_next {h : Header} {profile extLen : Half} {extOff inLen : Nat} {s u : State} :
    deserializePayload h profile extLen extOff inLen s = .next u ↔
    ∃ payOff, payOff = extOff + 4 * extLen.toNat ∧
      ((¬ (h.p = true ∧ payOff < inLen)
          ∧ u = decodedState h profile extLen extOff payOff (inLen - payOff) s)
      ∨ (h.p = true ∧ payOff < inLen ∧ ∃ pad, s.codec.wire.read (inLen - 1) = some pad
          ∧ ((padConsistent pad (inLen - payOff) = true
                ∧ u = decodedState h profile extLen extOff payOff (inLen - payOff - pad.toNat) s)
            ∨ (padConsistent pad (inLen - payOff) = false ∧ u = s.raise .malformedPacket)))) := by
  unfold deserializePayload
  simp only [exists_eq_left]
  generalize hpo : extOff + 4 * extLen.toNat = payOff
  constructor
  · intro hx
    split at hx
    · next h0 =>
      rw [deserializeCommit_eq] at hx; cases hx
      exact .inl ⟨fun hc => by omega, by rw [h0]⟩
    · next h0 =>
      split at hx
      · next hp =>
        obtain ⟨pad, hpad, hx⟩ := need_eq_next.1 hx
        refine .inr ⟨hp, by omega, pad, hpad, ?_⟩
        split at hx
        · next hc => rw [deserializeCommit_eq] at hx; cases hx; exact .inl ⟨hc, rfl⟩
        · next hc => cases hx; exact .inr ⟨by simpa using hc, rfl⟩
      · next hp =>
        rw [deserializeCommit_eq] at hx; cases hx
        exact .inl ⟨fun hc => hp hc.1, rfl⟩
  · rintro (⟨hn, rfl⟩ | ⟨hp, hlt, pad, hpad, ⟨hc, rfl⟩ | ⟨hc, rfl⟩⟩)
    · split
      · next h0 => rw [h0, deserializeCommit_eq]
      · next h0 => rw [if_neg (fun hp => hn ⟨hp, by omega⟩), deserializeCommit_eq]
    · rw [if_neg (by omega), if_pos hp, hpad, need_some, if_pos hc, deserializeCommit_eq]
    · rw [if_neg (by omega), if_pos hp, hpad, need_some, if_neg (by simp [hc])]

/-- All stages 6 and 7 can do (R136, R137). -/
theorem deserializeExt_eq_next {h : Header} {cur inLen : Nat} {s u : State} :
    deserializeExt h cur inLen s = .next u ↔
    (h.x = false ∧ deserializePayload h 0 0 cur inLen s = .next u)
    ∨ (h.x = true ∧ ((inLen - cur < 4 ∧ u = s.raise .malformedPacket)
        ∨ (4 ≤ inLen - cur ∧ ∃ profile extLen, s.codec.wire.readBE16 cur = some profile
            ∧ s.codec.wire.readBE16 (cur + 2) = some extLen
            ∧ ((inLen - (cur + 4) < 4 * extLen.toNat ∧ u = s.raise .malformedPacket)
              ∨ (4 * extLen.toNat ≤ inLen - (cur + 4)
                  ∧ deserializePayload h profile extLen (cur + 4) inLen s = .next u))))) := by
  unfold deserializeExt
  simp only [Config.extHdr]
  constructor
  · intro hx
    split at hx
    · next hxb =>
      refine .inr ⟨hxb, ?_⟩
      split at hx
      · next hlt => cases hx; exact .inl ⟨hlt, rfl⟩
      · next hlt =>
        obtain ⟨profile, hpr, hx⟩ := need_eq_next.1 hx
        obtain ⟨extLen, hel, hx⟩ := need_eq_next.1 hx
        refine .inr ⟨by omega, profile, extLen, hpr, hel, ?_⟩
        split at hx
        · next hl => cases hx; exact .inl ⟨hl, rfl⟩
        · next hl => exact .inr ⟨by omega, hx⟩
    · next hxb => exact .inl ⟨by simpa using hxb, hx⟩
  · rintro (⟨hxb, hx⟩ | ⟨hxb, ⟨hlt, rfl⟩ | ⟨hle, profile, extLen, hpr, hel, ⟨hl, rfl⟩ | ⟨hl, hx⟩⟩⟩)
    · rw [if_neg (by simp [hxb])]; exact hx
    · rw [if_pos hxb, if_pos hlt]
    · rw [if_pos hxb, if_neg (by omega), hpr, need_some, hel, need_some, if_pos hl]
    · rw [if_pos hxb, if_neg (by omega), hpr, need_some, hel, need_some, if_neg (by omega)]; exact hx

/-- All stage 5 can do (R135). -/
theorem deserializeCsrc_eq_next {h : Header} {inLen : Nat} {s u : State} :
    deserializeCsrc h inLen s = .next u ↔
    (0 < h.cc.toNat ∧ inLen - 12 < 4 * h.cc.toNat ∧ u = s.raise .malformedPacket)
    ∨ ((0 < h.cc.toNat → 4 * h.cc.toNat ≤ inLen - 12)
        ∧ deserializeExt h (12 + 4 * h.cc.toNat) inLen s = .next u) := by
  unfold deserializeCsrc
  simp only [Config.fixedHdr, extStart_eq]
  constructor
  · intro hx
    split at hx
    · next hc => cases hx; exact .inl ⟨hc.1, hc.2, rfl⟩
    · next hc => exact .inr ⟨fun h0 => by by_contra hlt; exact hc ⟨h0, by omega⟩, hx⟩
  · rintro (⟨h0, hlt, rfl⟩ | ⟨hle, hx⟩)
    · rw [if_pos ⟨h0, hlt⟩]
    · rw [if_neg (fun hc => by have := hle hc.1; omega)]; exact hx

/-- All stages 2 to 4 can do (R131 to R134). -/
theorem deserializeReady_eq_next {inLen : Nat} {s u : State} : deserializeReady inLen s = .next u ↔
    s.ctxInit = true ∧ inLen ≤ s.codec.wireSize ∧ ∃ b0, s.codec.wire.read 0 = some b0
      ∧ ((versionOf b0 ≠ rtpVersion ∧ u = s.raise .wrongVersion)
        ∨ (versionOf b0 = rtpVersion ∧ ∃ h, readHeader s.codec.wire = some h
            ∧ deserializeCsrc h inLen s = .next u)) := by
  unfold deserializeReady
  constructor
  · intro hx
    split at hx
    · next hi =>
      split at hx
      · cases hx
      · next hw =>
        obtain ⟨b0, hb0, hx⟩ := need_eq_next.1 hx
        refine ⟨hi, by omega, b0, hb0, ?_⟩
        split at hx
        · next hv =>
          obtain ⟨h, hh, hx⟩ := need_eq_next.1 hx
          exact .inr ⟨hv, h, hh, hx⟩
        · next hv => cases hx; exact .inl ⟨hv, rfl⟩
    · cases hx
  · rintro ⟨hi, hw, b0, hb0, ⟨hv, rfl⟩ | ⟨hv, h, hh, hx⟩⟩
    · rw [if_pos hi, if_neg (by omega), hb0, need_some, if_neg hv]
    · rw [if_pos hi, if_neg (by omega), hb0, need_some, if_pos hv, hh, need_some]; exact hx

/-- All DESERIALIZE can do (R130, then the later stages). -/
theorem execDeserialize_eq_next {p : Present} {s u : State} : execDeserialize p s = .next u ↔
    s.initRace = false
      ∧ ((¬ (p.c = true ∧ p.b = true ∧ p.k = true) ∧ u = s.raise .badParam)
        ∨ (p.c = true ∧ p.b = true ∧ p.k = true ∧ ∃ n, s.codec.inLen.read = some n
            ∧ ((n < 12 ∧ u = s.raise .badParam) ∨ (12 ≤ n ∧ deserializeReady n s = .next u)))) := by
  unfold execDeserialize
  simp only [Config.fixedHdr]
  constructor
  · intro hx
    split at hx
    · cases hx
    · next hrace =>
      refine ⟨by simpa using hrace, ?_⟩
      split at hx
      · next href =>
        obtain ⟨n, hn, hx⟩ := need_eq_next.1 hx
        refine .inr ⟨href.1, href.2.1, href.2.2, n, hn, ?_⟩
        split at hx
        · next hlt => cases hx; exact .inl ⟨hlt, rfl⟩
        · next hlt => exact .inr ⟨by omega, hx⟩
      · next href => cases hx; exact .inl ⟨href, rfl⟩
  · rintro ⟨hrace, ⟨href, rfl⟩ | ⟨hc, hb, hk, n, hn, h⟩⟩
    · rw [if_neg (by simp [hrace]), if_neg href]
    · rw [if_neg (by simp [hrace]), if_pos ⟨hc, hb, hk⟩, hn, need_some]
      rcases h with ⟨hlt, rfl⟩ | ⟨hle, hx⟩
      · rw [if_pos hlt]
      · rw [if_neg (by omega)]; exact hx

end Sys2Proof.Machine
end

