-- ==== Sys2Proof/Laws/PerInstr.lean ====
section
/-! SUPPORT. The statements made of every instruction, one lemma per constructor. -/

namespace Sys2Proof.Laws

namespace EncodedSize

/-- The bytes of an instruction are as many as its row says: one for a command, twelve for a fixed header, four per identifier, four and four per data word for an extension, the region's own for a payload, none for a primitive (30_encoding.md R60 to R65, R69). -/
def Statement : Instr → Prop
  | .init p => (encode (.init p)).map (fun e => e.2.length) = some 1
  | .serialize p => (encode (.serialize p)).map (fun e => e.2.length) = some 1
  | .sizeq => (encode .sizeq).map (fun e => e.2.length) = some 1
  | .deserialize p => (encode (.deserialize p)).map (fun e => e.2.length) = some 1
  | .reservedOp00 p => (encode (.reservedOp00 p)).map (fun e => e.2.length) = some 1
  | .reservedHighBits w => (encode (.reservedHighBits w)).map (fun e => e.2.length) = some 1
  | .rdBE32 a => encode (.rdBE32 a) = none
  | .wrBE32 v a => encode (.wrBE32 v a) = none
  | .rdBE16 a => encode (.rdBE16 a) = none
  | .wrBE16 h a => encode (.wrBE16 h a) = none
  | .fixed h => (encode (.fixed h)).map (fun e => e.2.length) = some 12
  | .csrc ids => (encode (.csrc ids)).map (fun e => e.2.length) = some (4 * ids.length)
  | .ext cc profile words =>
    (encode (.ext cc profile words)).map (fun e => e.2.length) = some (4 + 4 * words.length)
  | .payload cc n p bytes => (encode (.payload cc n p bytes)).map (fun e => e.2.length) = some bytes.length

theorem init (p : Present) : Statement (.init p) := rfl
theorem serialize (p : Present) : Statement (.serialize p) := rfl
theorem sizeq : Statement .sizeq := rfl
theorem deserialize (p : Present) : Statement (.deserialize p) := rfl
theorem reservedOp00 (p : Present) : Statement (.reservedOp00 p) := rfl
theorem reservedHighBits (w : Byte) : Statement (.reservedHighBits w) := rfl
theorem rdBE32 (a : Nat) : Statement (.rdBE32 a) := rfl
theorem wrBE32 (v : Word) (a : Nat) : Statement (.wrBE32 v a) := rfl
theorem rdBE16 (a : Nat) : Statement (.rdBE16 a) := rfl
theorem wrBE16 (h : Half) (a : Nat) : Statement (.wrBE16 h a) := rfl
theorem fixed (h : Header) : Statement (.fixed h) := rfl
theorem csrc (ids : List Word) : Statement (.csrc ids) := by simp [Statement, encode]
theorem ext (cc : BitVec 4) (profile : Half) (words : List Word) : Statement (.ext cc profile words) := by
  simp [Statement, encode]
theorem payload (cc : BitVec 4) (n : Option Half) (p : Bool) (bytes : List Byte) :
    Statement (.payload cc n p bytes) := rfl

end EncodedSize

end Sys2Proof.Laws
end

