-- ==== Sys2Proof/Laws/Safety.lean ====
section
/-! SUPPORT. Lemmas about the notions claims are stated in: the parts of the invariant, and outcomes with their next state replaced. -/

namespace Sys2Proof.Machine

/-- The instance's part of the invariant, bound by bound. -/
theorem Codec.sound_iff {p : Params} {c : Codec} : c.sound p = true ↔
    (c.cap.val ≤ p.maxLen ∧ c.inLen.val ≤ p.maxLen ∧ c.pkt.payLen.val ≤ p.maxLen
      ∧ c.pkt.csrcOff.val ≤ p.maxLen ∧ c.pkt.extOff.val ≤ p.maxLen ∧ c.pkt.payOff.val ≤ p.maxLen)
    ∧ (Memory.wf c.wire = true ∧ Memory.within c.wireSize c.wire = true ∧ c.wireSize ≤ p.maxLen
      ∧ Memory.wf c.txcsrc = true ∧ Memory.within Config.maxCsrc c.txcsrc = true
      ∧ Memory.wf c.txext = true ∧ Memory.within Config.maxExtWords c.txext = true
      ∧ Memory.wf c.txpay = true ∧ Memory.within p.txpaySize c.txpay = true) := by
  simp only [Codec.sound, Codec.lengthsFit, Codec.memoriesFit, Bool.and_eq_true, decide_eq_true_eq, and_assoc]

/-- What the machine's invariant says of the active instance. -/
theorem State.sound_codec {s : State} (h : s.sound = true) : s.codec.sound s.params = true := by
  simp only [State.sound, Bool.and_eq_true] at h; tauto

@[simp] theorem mapNext_next (f : State → State) (s : State) : mapNext f (.next s) = .next (f s) := rfl

@[simp] theorem mapNext_fault (f : State → State) (r : Fault) : mapNext f (.fault r) = .fault r := rfl

@[simp] theorem mapNext_refused (f : State → State) (r : Refusal) : mapNext f (.refused r) = .refused r := rfl

/-- A replaced next state goes through a needed value. -/
theorem mapNext_need {α : Type} (f : State → State) (o : Option α) (k : α → Out) :
    mapNext f (need o k) = need o fun v => mapNext f (k v) := by cases o <;> rfl

/-- A replaced next state goes through a condition. -/
theorem mapNext_ite (f : State → State) (c : Prop) [Decidable c] (a b : Out) :
    mapNext f (if c then a else b) = if c then mapNext f a else mapNext f b := by split <;> rfl

end Sys2Proof.Machine
end

