-- ==== Sys2Proof/Laws/Step.lean ====
section
/-! SUPPORT. The host's side: how a step finds its action, and one inversion lemma per action: "if it answers a next state, then this holds". -/

namespace Sys2Proof.Machine

/-! ## Fetch -/

/-- Two next states are equal outcomes when they are equal states. -/
theorem next_eq_next {s t : State} : (Host.Outcome.next s : Out) = .next t ↔ t = s :=
  ⟨fun h => by cases h; rfl, fun h => by rw [h]⟩

/-- With nothing pending a step leaves the machine as it is (log 1). -/
theorem step_idle {s : State} (h : s.host = []) : step s = .next s := by simp [step, fetch, h]

/-- The oldest pending action is taken off the queue. -/
theorem fetch_cons {s : State} {a : HostAction} {rest : List HostAction} (h : s.host = a :: rest) :
    fetch s = hostAction a (s.withHost rest) := by simp [fetch, h]

/-- An action on an instance that is not inside a command goes on. -/
theorem unlessBusy_free {s : State} {f : Fetched} (h : s.running.read s.active = none) : unlessBusy s f = f := by
  simp [unlessBusy, h]

/-- An instruction found means the instance is not inside a command. -/
theorem unlessBusy_eq_run {s t : State} {f : Fetched} {i : Instr} : unlessBusy s f = .run i t ↔
    s.running.read s.active = none ∧ f = .run i t := by
  unfold unlessBusy
  split
  · next h => simp [h]
  · next h => simp [h]

/-- A next state of an action means the instance is not inside a command. -/
theorem unlessBusy_eq_next {s t : State} {f : Fetched} : unlessBusy s f = .ended (.next t) ↔
    s.running.read s.active = none ∧ f = .ended (.next t) := by
  unfold unlessBusy
  split
  · next h => simp [h]
  · next h => simp [h]

/-- A step whose action has an outcome of its own answers it. -/
theorem step_of_ended {s : State} {a : HostAction} {rest : List HostAction} {o : Out} (h : s.host = a :: rest)
    (ha : hostAction a (s.withHost rest) = .ended o) : step s = o := by
  unfold step
  rw [fetch_cons h, ha]

/-- A step whose action issues an instruction runs it. -/
theorem step_of_run {s t : State} {a : HostAction} {rest : List HostAction} {i : Instr} (h : s.host = a :: rest)
    (ha : hostAction a (s.withHost rest) = .run i t) : step s = exec i t := by
  unfold step
  rw [fetch_cons h, ha]

/-- What one step can do: stay when nothing is pending, run an instruction, or perform an action. -/
theorem step_eq_next {s t : State} : step s = .next t ↔
    (s.host = [] ∧ t = s)
    ∨ ∃ a rest, s.host = a :: rest
        ∧ ((∃ i u, hostAction a (s.withHost rest) = .run i u ∧ exec i u = .next t)
          ∨ hostAction a (s.withHost rest) = .ended (.next t)) := by
  unfold step
  cases hh : s.host with
  | nil => simp [fetch, hh, @eq_comm State t]
  | cons a rest =>
    rw [fetch_cons hh]
    constructor
    · intro h
      refine .inr ⟨a, rest, rfl, ?_⟩
      split at h
      · next i u hf => exact .inl ⟨i, u, hf, h⟩
      · next o hf => exact .inr (by rw [hf, h])
    · rintro (⟨h, -⟩ | ⟨a', rest', h, ⟨i, u, hf, hx⟩ | hf⟩)
      · cases h
      · cases h; rw [hf]; exact hx
      · cases h; rw [hf]

/-! ## Registers -/

/-- The only register with number 0 is `CMD`. -/
theorem RegName.ofNumber_cmd {n : Nat} (h : RegName.ofNumber n = some .cmd) : n = 0 := by
  unfold RegName.ofNumber at h
  split at h <;> first | rfl | cases h

/-- All a host write can run: the command a byte written to `CMD` encodes (10_state.md R11). -/
theorem hostWrite_eq_run {n v : Nat} {s t : State} {i : Instr} : hostWrite n v s = .run i t ↔
    n = 0 ∧ v < 256 ∧ i = decodeCmd (BitVec.ofNat 8 v) ∧ t = s := by
  unfold hostWrite
  constructor
  · intro h
    split at h
    · cases h
    · next r hr =>
      split at h
      · cases h
      · next hv =>
        split at h
        · next hc =>
          subst hc
          simp only [fetchDecoded, decode] at h
          injection h with h1 h2
          simp only [RegName.width] at hv
          exact ⟨RegName.ofNumber_cmd hr, by omega, h1.symm, h2.symm⟩
        · split at h <;> cases h
  · rintro ⟨rfl, hv, rfl, rfl⟩
    have h : ¬ 256 ≤ v := by omega
    simp [RegName.ofNumber, RegName.width, h, fetchDecoded, decode]

/-- All a host write can store: a value its register has bits for, in a register the host can write. -/
theorem hostWrite_eq_next {n v : Nat} {s t : State} : hostWrite n v s = .ended (.next t) ↔
    ∃ r, RegName.ofNumber n = some r ∧ r.hostWritable = true ∧ v < 2 ^ r.width s.params.lenW
      ∧ t = s.withCodec (s.codec.writeReg r v) := by
  unfold hostWrite
  constructor
  · intro h
    split at h
    · cases h
    · next r hr =>
      split at h
      · cases h
      · next hv =>
        split at h
        · simp [fetchDecoded, decode] at h
        · split at h
          · next hw => cases h; exact ⟨r, hr, hw, by omega, rfl⟩
          · cases h
  · rintro ⟨r, hr, hw, hv, rfl⟩
    have hc : r ≠ .cmd := by rintro rfl; cases hw
    rw [hr]
    simp only [hw, if_true]
    rw [if_neg (by omega), if_neg hc]

/-- All a host read of a value of `w` bits that may be missing can do. -/
theorem orFree_receive_eq_next {o : Option Nat} {w : Nat} {s t : State} : orFree o w receive s = .next t ↔
    (∃ v, o = some v ∧ t = s.withReadData v) ∨ (o = none ∧ t = s.withDraw.withReadData (s.freeValue w)) := by
  simp only [orFree_eq_next, receive, next_eq_next]

/-- All a host read can do: it hands out what the register holds or a free value of its width. -/
theorem hostRead_eq_next {n : Nat} {s t : State} : hostRead n s = .next t ↔
    ∃ r, RegName.ofNumber n = some r ∧ r ≠ .cmd ∧
      ((∃ v, s.readReg r = some v ∧ t = s.withReadData v)
        ∨ (s.readReg r = none ∧ t = s.withDraw.withReadData (s.freeValue (r.width s.params.lenW)))) := by
  unfold hostRead
  split
  · next h => simp [h]
  · next r h =>
    split
    · next hc => simp [h, hc]
    · next hc => simp only [orFree_receive_eq_next, h, Option.some.injEq, exists_eq_left', ne_eq, hc, not_false_eq_true, true_and]

/-- A register the host writes holds the value written. -/
theorem State.readReg_writeReg {s : State} {r : RegName} {v : Nat} (hw : r.hostWritable = true)
    (hv : v < 2 ^ r.width s.params.lenW) : (s.withCodec (s.codec.writeReg r v)).readReg r = some v := by
  cases r <;> simp only [RegName.hostWritable, Bool.false_eq_true] at hw <;> simp only [RegName.width] at hv
  case p | x | m =>
    have h : v = 0 ∨ v = 1 := by omega
    rcases h with rfl | rfl <;> rfl
  all_goals simp [State.readReg, Codec.writeReg, Reg.read, Reg.holding, Codec.withPkt]
  all_goals omega

/-- A host write leaves every other register as it is. -/
theorem State.readReg_writeReg_other {s : State} {r r' : RegName} (h : r' ≠ r) (v : Nat) :
    (s.withCodec (s.codec.writeReg r v)).readReg r' = s.readReg r' := by
  cases r <;> cases r' <;> first | rfl | exact absurd rfl h

/-- A host write of a register touches neither `RESULT` nor a memory. -/
theorem Codec.writeReg_frame (c : Codec) (r : RegName) (v : Nat) :
    c.writeReg r v = { c.writeReg r v with
      result := c.result, wire := c.wire, wireSize := c.wireSize
      txcsrc := c.txcsrc, txext := c.txext, txpay := c.txpay } := by
  cases r <;> rfl

/-! ## Memories -/

/-- All a load of bytes can do. -/
theorem hostLoadBytes_eq_next {sp : ByteSpace} {off : Nat} {bytes : List Byte} {s t : State} :
    hostLoadBytes sp off bytes s = .next t ↔ (bytes.length = 0 ∨ off + bytes.length ≤ s.byteSpaceSize sp)
      ∧ t = s.withCodec (match sp with
        | .wire => { s.codec with wire := s.codec.wire.writeN off bytes }
        | .txpay => { s.codec with txpay := s.codec.txpay.writeN off bytes }) := by
  unfold hostLoadBytes
  split
  · next h =>
    rw [and_iff_right h]
    cases sp <;> exact next_eq_next
  · next h => exact ⟨fun hx => (by cases hx), fun hx => absurd hx.1 h⟩

/-- All a load of words can do. -/
theorem hostLoadWords_eq_next {sp : WordSpace} {off : Nat} {words : List Word} {s t : State} :
    hostLoadWords sp off words s = .next t ↔ (words.length = 0 ∨ off + words.length ≤ sp.size)
      ∧ t = s.withCodec (match sp with
        | .txcsrc => { s.codec with txcsrc := s.codec.txcsrc.writeN off words }
        | .txext => { s.codec with txext := s.codec.txext.writeN off words }) := by
  unfold hostLoadWords
  split
  · next h =>
    rw [and_iff_right h]
    cases sp <;> exact next_eq_next
  · next h => exact ⟨fun hx => (by cases hx), fun hx => absurd hx.1 h⟩

/-- All a read of one byte can do. -/
theorem hostReadByte_eq_next {sp : ByteSpace} {off : Nat} {s t : State} : hostReadByte sp off s = .next t ↔
    off < s.byteSpaceSize sp ∧
      ((∃ b, (s.codec.bytesOf sp).read off = some b ∧ t = s.withReadData b.toNat)
        ∨ ((s.codec.bytesOf sp).read off = none ∧ t = s.withDraw.withReadData (s.freeValue 8))) := by
  unfold hostReadByte
  split <;> simp [orFree_receive_eq_next, *]

/-- All a read of one word can do. -/
theorem hostReadWord_eq_next {sp : WordSpace} {off : Nat} {s t : State} : hostReadWord sp off s = .next t ↔
    off < sp.size ∧
      ((∃ w, (s.codec.wordsIn sp).read off = some w ∧ t = s.withReadData w.toNat)
        ∨ ((s.codec.wordsIn sp).read off = none ∧ t = s.withDraw.withReadData (s.freeValue 32))) := by
  unfold hostReadWord
  split <;> simp [orFree_receive_eq_next, *]

/-- All a read of one element of a view that starts at `off` can do (20_memory.md R49). -/
theorem hostReadElement_eq_next {v : View} {off i : Nat} {s t : State} : hostReadElement v off i s = .next t ↔
    s.codec.wireHas (off + v.elementSize * i) v.elementSize = true ∧
      ((∃ x, viewElement s.codec.wire v off i = some x ∧ t = s.withReadData x)
        ∨ (v = .payload ∧ viewElement s.codec.wire v off i = none ∧ t = s.withDraw.withReadData (s.freeValue 8))) := by
  unfold hostReadElement
  split
  · next h =>
    rw [and_iff_right h]
    cases v <;> simp [orFree_receive_eq_next, need_eq_next, receive, @eq_comm State t]
  · next h => simp [h]

/-- All a read of a view element can change: the value handed out and the count of free values (20_memory.md R49). -/
theorem hostReadView_frame {v : View} {i : Nat} {s t : State} (h : hostReadView v i s = .next t) :
    t = { s with readData := t.readData, draws := t.draws } := by
  have element : ∀ {off : Nat} {u : State}, hostReadElement v off i u = .next t →
      t = { u with readData := t.readData, draws := t.draws } := by
    intro off u hu
    obtain ⟨-, ⟨x, -, rfl⟩ | ⟨-, -, rfl⟩⟩ := hostReadElement_eq_next.1 hu <;> rfl
  have count : ∀ {n : Nat} {u : State}, (if i < n then orFree (u.codec.pkt.viewOffset v) u.params.lenW
      (fun off u => hostReadElement v off i u) u else .fault .noSuchElement) = .next t →
      t = { u with readData := t.readData, draws := t.draws } := by
    intro n u hu
    split at hu
    · obtain ⟨off, -, hu⟩ | ⟨-, hu⟩ := orFree_eq_next.1 hu
      · exact element hu
      · rw [element hu]; rfl
    · cases hu
  obtain ⟨n, -, h⟩ | ⟨-, h⟩ := orFree_eq_next.1 h
  · exact count h
  · rw [count h]; rfl

/-- All a change of the buffer can do (20_memory.md R40). -/
theorem hostRepoint_eq_next {size : Nat} {cells : List (Nat × Byte)} {s t : State} :
    hostRepoint size cells s = .next t ↔ size ≤ s.params.maxLen ∧ (cells.all fun e => decide (e.1 < size)) = true
      ∧ t = s.withCodec { s.codec with wire := bufferContents cells, wireSize := size } := by
  unfold hostRepoint
  split
  · next h => simp; omega
  · next h =>
    have h' : size ≤ s.params.maxLen := by omega
    split
    · next hc => simp [hc, h', @eq_comm State t]
    · next hc => simp [hc]

/-- All the load of an image can run (log 9). -/
theorem hostImage_eq_run {port : Port} {bytes : List Byte} {s t : State} {i : Instr} :
    hostImage port bytes s = .run i t ↔ port ≠ .cmd ∧ decode s.params.lenW port bytes = .ok i ∧ t = s := by
  unfold hostImage
  split
  · next h => simp [h]
  · next h =>
    unfold fetchDecoded
    split
    · next j hj => simp [hj, h, eq_comm]
    · next e he => simp [he]

/-! ## Instances, INITs and reset -/

/-- All the choice of an instance can do (60_exceptions.md R166). -/
theorem hostSelect_eq_next {k : Nat} {s t : State} : hostSelect k s = .next t ↔
    (k = s.active ∧ t = s)
    ∨ (k ≠ s.active ∧ ∃ c, s.parked.read k = some c
        ∧ t = { s with active := k, codec := c, parked := (s.parked.erase k).write s.active s.codec }) := by
  unfold hostSelect
  split
  · next h => simp [h, @eq_comm State t]
  · next h =>
    split
    · next c hc => simp [h, hc, @eq_comm State t]
    · next hc => simp [h, hc]

/-- All the reset can do (70_reset_and_hazards.md R170). -/
theorem hostReset_eq_next {s t : State} : hostReset s = .next t ↔ s.running = []
    ∧ t = { s with
        ctxInit := false
        codec := s.codec.afterReset
        parked := s.parked.map fun e => (e.1, e.2.afterReset) } := by
  unfold hostReset
  split
  · next h => simp [h, @eq_comm State t]
  · next h => simp [h]

/-- All the issue of an INIT that is not waited for can do. -/
theorem hostBeginInit_eq_next {w : Byte} {s t : State} : hostBeginInit w s = .next t ↔
    (∃ p, decodeCmd w = .init p) ∧ t = s.withRunning (s.running.write s.active w) := by
  unfold hostBeginInit
  split
  · next p hp => simp [hp, @eq_comm State t]
  · next h =>
    constructor
    · intro hx; cases hx
    · rintro ⟨⟨p, hp⟩, -⟩; exact absurd hp (h p)

/-- All the end of an INIT can run. -/
theorem hostEndInit_eq_run {s t : State} {i : Instr} : hostEndInit s = .run i t ↔
    ∃ w, s.running.read s.active = some w ∧ i = decodeCmd w ∧ t = s.withRunning (s.running.erase s.active) := by
  unfold hostEndInit
  split
  · next w hw =>
    constructor
    · intro h
      injection h with h1 h2
      exact ⟨w, hw, h1.symm, h2.symm⟩
    · rintro ⟨w', hw', rfl, rfl⟩
      rw [hw] at hw'
      cases hw'
      rfl
  · next hw => simp [hw]

end Sys2Proof.Machine
end

