-- ==== Sys2Proof/Tests/Slice0.lean ====
section
/-! SUPPORT. Tests: ill-formed terms the checks refuse, words written out from the spec's encodings, one-step tests from 95_test_vectors.md (each names its vector), and for every statement with hypotheses a witness that they can be met. -/

open Sys2Proof Sys2Proof.Machine

namespace Sys2Proof.Tests

/-! ## Helpers -/

/-- The outcome is a next state with this property. -/
def after (o : Out) (p : State → Bool) : Bool :=
  match o with
  | .next t => p t
  | _ => false

/-- The outcome is this refusal. -/
def refuses (o : Out) (r : Refusal) : Bool :=
  match o with
  | .refused q => decide (q = r)
  | _ => false

/-- The outcome is this fault. -/
def faults (o : Out) (f : Fault) : Bool :=
  match o with
  | .fault g => decide (g = f)
  | _ => false

theorem of_after {o : Out} {p : State → Bool} (h : after o p = true) : ∃ t, o = .next t ∧ p t = true := by
  cases o with
  | next t => exact ⟨t, rfl, h⟩
  | fault f => cases h
  | refused r => cases h

/-- A machine of two instances with small parameters, its context initialised, its active instance `c`. -/
def machine (c : Codec) : State :=
  { State.resetWith { lenW := 19, txpaySize := 64, nCodec := 2 } with ctxInit := true, codec := c }

/-- An instance that holds nothing, with 64 cells behind `WIRE`. -/
def blank : Codec := Codec.reset 64

/-- The vectors' base header (95_test_vectors.md, conventions). -/
def base : Header :=
  { p := false, x := false, cc := 0, m := false, pt := 96, seq := 1234, ts := 0x12345678, ssrc := 0x87654321 }

/-- "hello world!" -/
def hello : List Byte := [0x68, 0x65, 0x6C, 0x6C, 0x6F, 0x20, 0x77, 0x6F, 0x72, 0x6C, 0x64, 0x21]

/-- The vectors' HDR. -/
def hdr : List Byte := [0x80, 0x60, 0x04, 0xD2, 0x12, 0x34, 0x56, 0x78, 0x87, 0x65, 0x43, 0x21]

/-- The vectors' H11. -/
def h11 : List Byte := hdr.drop 1

/-- An instance about to emit a packet. -/
def sender (h : Header) (ids : List Word) (profile : Half) (words : List Word) (bytes : List Byte) (cap : Nat) :
    Codec :=
  { blank with
    cap := Reg.holding cap
    pkt := Pkt.decoded h profile (BitVec.ofNat 16 words.length) 0 0 bytes.length
    txcsrc := Memory.writeN [] 0 ids
    txext := Memory.writeN [] 0 words
    txpay := Memory.writeN [] 0 bytes }

/-- A machine about to decode a frame. -/
def received (bytes : List Byte) : State :=
  machine { blank with inLen := Reg.holding bytes.length, wire := Memory.writeN [] 0 bytes }

/-- The machine of scenario S1. -/
def s1 (cap : Nat) : State := machine (sender base [] 0 [] hello cap)

/-- The header of V-S10: padding set. -/
def padded : Header := { p := true, x := false, cc := 0, m := false, pt := 96, seq := 1, ts := 2, ssrc := 3 }

/-- The header of V-S3. -/
def full : Header :=
  { p := true, x := true, cc := 3, m := true, pt := 127, seq := 0xFFFF, ts := 0xFFFFFFFF, ssrc := 0xDEADBEEF }

/-- The bytes of V-S3. -/
def fullBytes : List Byte :=
  [0xB3, 0xFF, 0xFF, 0xFF, 0xFF, 0xFF, 0xFF, 0xFF, 0xDE, 0xAD, 0xBE, 0xEF, 0x00, 0x00, 0x00, 0x01, 0x80, 0x00]
    ++ [0x00, 0x00, 0xCA, 0xFE, 0xBA, 0xBE, 0xBE, 0xDE, 0x00, 0x01, 0x10, 0x20, 0x30, 0x40, 0xAA, 0xBB, 0x00, 0x02]

/-- The machine of V-S3. -/
def s3 (cap : Nat) : State :=
  machine (sender full [1, 0x80000000, 0xCAFEBABE] 0xBEDE [0x10203040] [0xAA, 0xBB, 0x00, 0x02] cap)

def allPresent : Present := { c := true, k := true, b := true, l := true }
def contextOnly : Present := { c := true, k := false, b := false, l := false }
def nonePresent : Present := { c := false, k := false, b := false, l := false }

/-! ## WellFormed refuses an ill-formed term for each of its checks -/

theorem test_wf_serialize_that_is_sizeq :
    (Instr.serialize { c := true, k := true, b := false, l := true }).wellFormed 32 = false := by decide
theorem test_wf_highbits_clear : (Instr.reservedHighBits 0x3C).wellFormed 32 = false := by decide
theorem test_wf_rdBE32_offset : (Instr.rdBE32 (2 ^ 19)).wellFormed 19 = false := by decide
theorem test_wf_wrBE32_offset : (Instr.wrBE32 0 (2 ^ 19)).wellFormed 19 = false := by decide
theorem test_wf_rdBE16_offset : (Instr.rdBE16 (2 ^ 19)).wellFormed 19 = false := by decide
theorem test_wf_wrBE16_offset : (Instr.wrBE16 0 (2 ^ 19)).wellFormed 19 = false := by decide
theorem test_wf_csrc_sixteen : (Instr.csrc (List.replicate 16 0)).wellFormed 32 = false := by decide
theorem test_wf_ext_too_many : (Instr.ext 0 0 (List.replicate 65536 0)).wellFormed 32 = false := by
  show decide ((List.replicate 65536 (0 : Word)).length ≤ 65535) = false
  rw [List.length_replicate]
  rfl
theorem test_wf_payload_pad_zero : (Instr.payload 0 none true [0x61, 0x00]).wellFormed 32 = false := by decide
theorem test_wf_payload_pad_large : (Instr.payload 0 none true [0x61, 0x03]).wellFormed 32 = false := by decide
theorem test_wf_payload_too_long : (Instr.payload 0 none false (List.replicate 4 0)).wellFormed 2 = false := by decide
theorem test_wf_accepts : (Instr.payload 0 none true [0x61, 0x02]).wellFormed 32 = true := by decide

/-! ## Decoding, from words written out bit by bit (30_encoding.md R60 to R72) -/

theorem test_decode_init : decode 32 .cmd [0b00000101#8] = .ok (.init contextOnly) := by rfl
theorem test_decode_serialize : decode 32 .cmd [0b00111110#8] = .ok (.serialize allPresent) := by rfl
theorem test_decode_serialize_absent : decode 32 .cmd [0b00011010#8]
    = .ok (.serialize { c := false, k := true, b := true, l := false }) := by rfl
theorem test_decode_sizeq : decode 32 .cmd [0b00101110#8] = .ok .sizeq := by rfl
theorem test_decode_deserialize : decode 32 .cmd [0b00011111#8]
    = .ok (.deserialize { c := true, k := true, b := true, l := false }) := by rfl
theorem test_decode_reserved_op : decode 32 .cmd [0b00100100#8]
    = .ok (.reservedOp00 { c := true, k := false, b := false, l := true }) := by rfl
theorem test_decode_reserved_high : decode 32 .cmd [0b10000001#8] = .ok (.reservedHighBits 0b10000001#8) := by rfl
theorem test_decode_fixed : decode 32 .fixed
    [0b10110011#8, 0b11111111#8, 0xFF, 0xFE, 0xFF, 0xFF, 0xFF, 0xFD, 0xDE, 0xAD, 0xBE, 0xEF]
    = .ok (.fixed { p := true, x := true, cc := 3, m := true, pt := 127, seq := 0xFFFE, ts := 0xFFFFFFFD,
                    ssrc := 0xDEADBEEF }) := by rfl
theorem test_decode_fixed_version : decode 32 .fixed (0x40 :: h11) = .error .wrongVersion := by rfl
theorem test_decode_csrc : decode 32 .csrc [0x11, 0x22, 0x33, 0x44, 0x55, 0x66, 0x77, 0x88]
    = .ok (.csrc [0x11223344, 0x55667788]) := by rfl
theorem test_decode_csrc_ragged : decode 32 .csrc [0x11, 0x22, 0x33, 0x44, 0x55] = .error .raggedWords := by rfl
theorem test_decode_ext : decode 32 (.ext 2) [0xBE, 0xDE, 0x00, 0x01, 0x10, 0x20, 0x30, 0x40]
    = .ok (.ext 2 0xBEDE [0x10203040]) := by rfl
theorem test_decode_ext_length : decode 32 (.ext 0) [0xBE, 0xDE, 0x00, 0x02, 0x10, 0x20, 0x30, 0x40]
    = .error .extLengthMismatch := by rfl
theorem test_decode_payload : decode 32 (.payload 1 (some 2) true) [0xAA, 0xBB, 0x00, 0x02]
    = .ok (.payload 1 (some 2) true [0xAA, 0xBB, 0x00, 0x02]) := by rfl
theorem test_decode_payload_pad : decode 32 (.payload 0 none true) [0x61, 0x00] = .error .badPadCount := by rfl
theorem test_encode_fixed : encode (.fixed full) = some (.fixed, fullBytes.take 12) := by rfl
theorem test_encode_primitives : encode (.rdBE32 0) = none ∧ encode (.wrBE32 0 0) = none ∧ encode (.rdBE16 0) = none
    ∧ encode (.wrBE16 0 0) = none := by decide
theorem test_table_word_init : decodeTableWord 8 0x01 = some (.init nonePresent) := by rfl
theorem test_table_word_fixed : decodeTableWord 96 0x80 = some (.fixed
    { p := false, x := false, cc := 0, m := false, pt := 0, seq := 0, ts := 0, ssrc := 0 }) := by rfl

/-! ## One step of each instruction -/

/-- V-I1. -/
theorem test_init_sets_ctx : after (exec (.init contextOnly) State.reset)
    (fun t => t.ctxInit && decide (t.codec.result.read = some .ok)) = true := by decide
/-- V-I4. -/
theorem test_init_absent_keeps_ctx : after (exec (.init nonePresent) (machine blank))
    (fun t => t.ctxInit && decide (t.codec.result.read = some .badParam)) = true := by decide
/-- V-S3. -/
theorem test_serialize_full : after (exec (.serialize allPresent) (s3 36))
    (fun t => decide (t.codec.wire.readN 0 36 = some fullBytes ∧ t.codec.cap.read = some 36
      ∧ t.codec.result.read = some .ok ∧ t.codec.wire.length = 36)) = true := by decide
/-- V-S11a. -/
theorem test_serialize_bad_pad : after (exec (.serialize allPresent) (machine (sender padded [] 0 [] [0x61, 0x03] 64)))
    (fun t => decide (t.codec.result.read = some .malformedPacket ∧ t.codec.wire = [] ∧ t.codec.cap.read = some 64))
    = true := by decide
/-- V-S6. -/
theorem test_sizeq : after (exec .sizeq (s1 0))
    (fun t => decide (t.codec.cap.read = some 24 ∧ t.codec.result.read = some .ok ∧ t.codec.wire = [])) = true := by
  decide
/-- V-S23. -/
theorem test_sizeq_overflow : refuses (exec .sizeq (machine { blank with pkt := Pkt.decoded base 0 0 0 0 524276 }))
    .lengthOverflow = true := by decide
/-- V-D21. -/
theorem test_deserialize_full : after (exec (.deserialize allPresent) (received fullBytes))
    (fun t => decide (t.codec.pkt = Pkt.decoded full 0xBEDE 1 28 32 2 ∧ t.codec.result.read = some .ok)) = true := by
  decide
/-- V-D29. -/
theorem test_deserialize_pad_into_extension : after (exec (.deserialize allPresent)
      (received (0xB0 :: h11 ++ [0x00, 0x00, 0x00, 0x01, 0xDE, 0xAD, 0xBE, 0xEF, 0x07, 0x03])))
    (fun t => decide (t.codec.result.read = some .malformedPacket ∧ t.codec.pkt = Pkt.reset)) = true := by decide
/-- V-R10. -/
theorem test_reserved : refuses (step { machine blank with host := [.wr 0 0x00] }) .reservedCommand
    && refuses (step { machine blank with host := [.wr 0 0x40] }) .reservedCommand = true := by decide
/-- V-W2. -/
theorem test_rdBE32_unaligned : after (exec (.rdBE32 1) (received [0x00, 0x87, 0x65, 0x43, 0x21]))
    (fun t => decide (t.readData = 0x87654321)) = true := by decide
/-- V-W5. -/
theorem test_wrBE32 : after (exec (.wrBE32 0x11223344 12) (machine blank))
    (fun t => decide (t.codec.wire = [(12, 0x11), (13, 0x22), (14, 0x33), (15, 0x44)])) = true := by decide
/-- V-W7. -/
theorem test_rdBE16 : after (exec (.rdBE16 2) (received hdr)) (fun t => decide (t.readData = 1234)) = true := by decide
/-- V-W9. -/
theorem test_wrBE16 : after (exec (.wrBE16 0xBEDE 5) (machine blank))
    (fun t => decide (t.codec.wire = [(5, 0xBE), (6, 0xDE)])) = true := by decide
/-- The first twelve bytes of scenario S1. -/
theorem test_fixed : after (exec (.fixed base) (machine blank))
    (fun t => decide (t.codec.wire.readN 0 12 = some hdr ∧ t.codec.wire.length = 12)) = true := by decide
/-- The identifiers of scenario S2. -/
theorem test_csrc : after (exec (.csrc [0x11223344, 0x55667788]) (machine blank))
    (fun t => decide (t.codec.wire.readN 12 8 = some [0x11, 0x22, 0x33, 0x44, 0x55, 0x66, 0x77, 0x88])) = true := by
  decide
/-- The extension of V-S3, after three identifiers. -/
theorem test_ext : after (exec (.ext 3 0xBEDE [0x10203040]) (machine blank))
    (fun t => decide (t.codec.wire.readN 24 8 = some [0xBE, 0xDE, 0x00, 0x01, 0x10, 0x20, 0x30, 0x40])) = true := by
  decide
/-- The payload of V-S3. -/
theorem test_payload : after (exec (.payload 3 (some 1) true [0xAA, 0xBB, 0x00, 0x02]) (machine blank))
    (fun t => decide (t.codec.wire = [(32, 0xAA), (33, 0xBB), (34, 0x00), (35, 0x02)])) = true := by decide
/-- V-R7. -/
theorem test_deserialize_unwritten : refuses (exec (.deserialize allPresent) (machine blank)) .unwrittenRead = true := by
  decide
/-- V-R9, both halves. -/
theorem test_serialize_bound : refuses (exec (.serialize allPresent)
      (machine { sender base [] 0 [] hello 24 with wireSize := 23 })) .bufferBound
    && after (exec (.serialize allPresent) (machine { sender base [] 0 [] hello 23 with wireSize := 23 }))
      (fun t => decide (t.codec.result.read = some .outOfMemory)) = true := by decide
/-- A host read of `RESULT` right after reset goes on, and `RESULT` still holds no value. -/
theorem test_host_read_of_unwritten : after (step { State.reset with host := [.rd 1] })
    (fun t => decide (t.draws = 1 ∧ t.readReg .result = none ∧ t.host = [])) = true := by decide

/-- The step after reset runs the word that is placed for it. -/
theorem test_withFetchWord : after (step (State.reset.withFetchWord 8 0x05))
    (fun t => t.ctxInit && decide (t.host = [])) = true := by decide

/-! ## Witnesses: states and operands that meet the hypotheses of each statement -/

/-- An INIT that runs on instance 1 while instance 0 is addressed and the context is not initialised. -/
def racing : State := { machine blank with ctxInit := false, running := [(1, 0x05)] }

theorem witness_ResetHoldsNothing :
    (1, Codec.reset 524287) ∈ (State.resetWith { lenW := 19, txpaySize := 64, nCodec := 2 }).parked := by decide

theorem witness_ResetActionBringsResetValues :
    (∃ s : State, s.host = .reset :: [] ∧ s.running = [] ∧ s.ctxInit = true)
    ∧ ∃ s : State, s.host = .reset :: [] ∧ s.running ≠ [] :=
  ⟨⟨{ machine blank with host := [.reset] }, rfl, rfl, rfl⟩, { racing with host := [.reset] }, rfl, by decide⟩

theorem witness_DecodeOfEncodeIsTheInstruction :
    (Instr.payload 15 (some 0xFFFF) true [0x61, 0x02]).wellFormed 32 = true
    ∧ (Instr.reservedHighBits 0x40).wellFormed 32 = true ∧ (Instr.rdBE32 (2 ^ 32 - 1)).wellFormed 32 = true := by
  decide

theorem witness_EncodeOfDecodeIsTheBytes :
    decode 32 .cmd [0xFF] = .ok (.reservedHighBits 0xFF) ∧ decode 32 .csrc [] = .ok (.csrc [])
    ∧ decode 32 (.ext 0) [0, 0, 0, 0] = .ok (.ext 0 0 []) := ⟨rfl, rfl, rfl⟩

theorem witness_ReservedWordsAreRefused : ∀ v ∈ [0, 1, 63, 64, 255], ∃ s : State,
    s.host = .wr 0 v :: [] ∧ v < 256 ∧ s.running.read s.active = none := by
  intro v hv
  refine ⟨{ machine blank with host := [.wr 0 v] }, rfl, ?_, rfl⟩
  revert v
  decide

theorem witness_RdBE32HandsOutTheWord :
    (received fullBytes).codec.wire.readN 32 4 = some [0xAA, 0xBB, 0x00, 0x02]
    ∧ 60 + 4 ≤ (received fullBytes).codec.wireSize ∧ (received fullBytes).codec.wire.read (60 + 3) = none := by decide

theorem witness_RdBE16HandsOutTheHalf :
    (received fullBytes).codec.wire.readN 34 2 = some [0x00, 0x02]
    ∧ (received fullBytes).codec.wire.readBE32 32 = some 0xAABB0002
    ∧ 62 + 2 ≤ (received fullBytes).codec.wireSize ∧ (received fullBytes).codec.wire.read (62 + 1) = none := by decide

theorem witness_WrBE32WritesFourCells : 60 + 4 ≤ (machine blank).codec.wireSize := by decide

theorem witness_WrBE16WritesTwoCells :
    62 + 2 ≤ (machine blank).codec.wireSize ∧ 60 + 4 ≤ (machine blank).codec.wireSize := by decide

theorem witness_WordCodecPairsAreInverse :
    (∃ t, exec (.wrBE32 0x11223344 60) (machine blank) = .next t)
    ∧ (∃ t, exec (.wrBE16 0x1122 62) (machine blank) = .next t)
    ∧ (Memory.wf (received hdr).codec.wire = true
        ∧ ∃ t, exec (.rdBE32 8) (received hdr) = .next t ∧ decide (t.readData = (0x87654321 : Word).toNat) = true)
    ∧ ∃ t, exec (.rdBE16 10) (received hdr) = .next t ∧ decide (t.readData = (0x4321 : Half).toNat) = true :=
  ⟨⟨_, rfl⟩, ⟨_, rfl⟩, ⟨by decide, of_after (by decide)⟩, of_after (by decide)⟩

theorem witness_CellsThatDoNotExistFault : (machine blank).codec.wireSize < 61 + 4
    ∧ (machine blank).codec.wireSize < 63 + 2 ∧ (machine (Codec.reset 11)).codec.wireSize < 12
    ∧ (machine (Codec.reset 15)).codec.wireSize < 12 + 4 * [(7 : Word)].length
    ∧ (machine (Codec.reset 15)).codec.wireSize < 12 + 4 * (0 : BitVec 4).toNat + 4 + 4 * ([] : List Word).length
    ∧ (machine (Codec.reset 12)).codec.wireSize < payStart 0 none + [(7 : Byte)].length := by decide

theorem witness_FixedLaysTheHeader : 12 ≤ (machine (Codec.reset 12)).codec.wireSize := by decide

theorem witness_CsrcLaysTheList :
    12 + 4 * (List.replicate 15 (7 : Word)).length ≤ (machine (Codec.reset 72)).codec.wireSize := by decide

theorem witness_ExtLaysTheSection : [(7 : Word)].length ≤ 65535
    ∧ 12 + 4 * (15 : BitVec 4).toNat + 4 + 4 * [(7 : Word)].length ≤ (machine (Codec.reset 80)).codec.wireSize := by
  decide

theorem witness_PayloadLaysTheRegion :
    (20 = match (some 1 : Option Half) with
      | some n => 12 + 4 * (0 : BitVec 4).toNat + (4 + 4 * n.toNat)
      | none => 12 + 4 * (0 : BitVec 4).toNat)
    ∧ 20 + [(7 : Byte)].length ≤ (machine (Codec.reset 21)).codec.wireSize := by decide

theorem witness_InitResult : contextOnly.c = true ∧ nonePresent.c = false := by decide

theorem witness_InitIsIdempotent : contextOnly.c = true ∧ (∃ t, exec (.init contextOnly) State.reset = .next t)
    ∧ allPresent.c = true ∧ nonePresent.c = false := ⟨rfl, ⟨_, rfl⟩, rfl, rfl⟩

theorem witness_IgnoredBitsChangeNothing : contextOnly.c = allPresent.c ∧ contextOnly ≠ allPresent
    ∧ (let q : Present := { c := true, k := true, b := true, l := false }
       allPresent.c = q.c ∧ allPresent.k = q.k ∧ allPresent.b = q.b ∧ allPresent ≠ q) := by decide

theorem witness_RequiredLengthFormula :
    (let r := (s3 36).codec.pkt
     r.cc.read = some 3 ∧ r.payLen.read = some 4 ∧ r.x.read = some true ∧ r.extLen.read = some 1)
    ∧ (let r := (s1 24).codec.pkt
       r.cc.read = some 0 ∧ r.payLen.read = some 12 ∧ r.x.read = some false) := by decide

/-- `V-S23`: the largest length a machine with 19-bit lengths can report. -/
theorem witness_SizingQueryReportsTheLength :
    (let s := machine { blank with pkt := Pkt.decoded base 0 0 0 0 524275 }
     s.ctxInit = true ∧ s.codec.pkt.requiredLength = some 524287 ∧ 524287 ≤ s.params.maxLen
       ∧ s.codec.cap.read = none) := by decide

theorem witness_CommandsRefuseWhatTheSpecLeavesOpen :
    (let s : State := { s1 24 with ctxInit := false }
     s.initRace = false ∧ s.ctxInit = false ∧ s.codec.cap.read = some 24)
    ∧ (let s : State := { received hdr with ctxInit := false }
       s.initRace = false ∧ s.ctxInit = false ∧ s.codec.inLen.read = some 12)
    ∧ (let s := machine { blank with pkt := Pkt.decoded base 0 0 0 0 524276, cap := Reg.holding 1 }
       s.ctxInit = true ∧ s.codec.pkt.requiredLength = some 524288 ∧ s.params.maxLen < 524288
         ∧ s.codec.cap.read = some 1)
    ∧ (let s := machine { sender base [] 0 [] hello 24 with wireSize := 23 }
       SerializePast (.serialize allPresent) s 24 24 ∧ s.codec.pkt.payLen.read = some 12 ∧ s.codec.wireSize < 24)
    ∧ (let s := machine { blank with inLen := Reg.holding 65 }
       s.ctxInit = true ∧ s.codec.inLen.read = some 65 ∧ 12 ≤ 65 ∧ s.codec.wireSize < 65) :=
  ⟨by decide, by decide, by decide, ⟨⟨rfl, rfl, rfl, by decide, by decide, by decide⟩, rfl, by decide⟩, by decide⟩

theorem witness_EmissionOperands : (s3 36).codec.txPacket
    = some ⟨full, [1, 0x80000000, 0xCAFEBABE], some (0xBEDE, [0x10203040]), [0xAA, 0xBB, 0x00, 0x02]⟩ := by decide

theorem open_s3 : SerializeOpen (.serialize allPresent) (s3 36) 36 36 4 :=
  ⟨⟨rfl, rfl, rfl, by decide, by decide, by decide⟩, by decide, by decide, rfl, by decide⟩

theorem consistent_s3 : PaddingConsistent (s3 36) 4 :=
  ⟨true, rfl, fun _ _ => ⟨0x02, by decide, by decide, by decide⟩⟩

theorem open_s1 : SerializeOpen (.serialize allPresent) (s1 64) 24 64 12 :=
  ⟨⟨rfl, rfl, rfl, by decide, by decide, by decide⟩, by decide, by decide, rfl, by decide⟩

theorem consistent_s1 : PaddingConsistent (s1 64) 12 := ⟨false, rfl, fun h => by cases h⟩

theorem witness_EmissionCompletes :
    (∃ pk, SerializeOpen (.serialize allPresent) (s3 36) 36 36 4 ∧ PaddingConsistent (s3 36) 4
      ∧ (s3 36).codec.txPacket = some pk)
    ∧ ∃ pk, SerializeOpen (.serialize allPresent) (s1 64) 24 64 12 ∧ PaddingConsistent (s1 64) 12
      ∧ (s1 64).codec.txPacket = some pk :=
  ⟨⟨_, open_s3, consistent_s3, witness_EmissionOperands⟩, ⟨base, [], none, hello⟩, open_s1, consistent_s1, by decide⟩

/-- With and without an extension. -/
theorem witness_EmissionLayout :
    (∃ t pk, SerializeOpen (.serialize allPresent) (s3 36) 36 36 4 ∧ PaddingConsistent (s3 36) 4
      ∧ (s3 36).codec.txPacket = some pk ∧ exec (.serialize allPresent) (s3 36) = .next t)
    ∧ ∃ t pk, SerializeOpen (.serialize allPresent) (s1 64) 24 64 12 ∧ PaddingConsistent (s1 64) 12
      ∧ (s1 64).codec.txPacket = some pk ∧ exec (.serialize allPresent) (s1 64) = .next t := by
  obtain ⟨t, ht, -⟩ := of_after (p := fun _ => true) (o := exec (.serialize allPresent) (s3 36)) (by decide)
  obtain ⟨u, hu, -⟩ := of_after (p := fun _ => true) (o := exec (.serialize allPresent) (s1 64)) (by decide)
  exact ⟨⟨t, _, open_s3, consistent_s3, witness_EmissionOperands, ht⟩, u, ⟨base, [], none, hello⟩, open_s1, consistent_s1, by decide, hu⟩

/-- With and without an extension. -/
theorem witness_EmissionIsTheFourSections :
    (∃ t, SerializeOpen (.serialize allPresent) (s3 36) 36 36 4 ∧ PaddingConsistent (s3 36) 4
      ∧ (s3 36).codec.txPacket.isSome = true ∧ exec (.serialize allPresent) (s3 36) = .next t)
    ∧ ∃ t, SerializeOpen (.serialize allPresent) (s1 64) 24 64 12 ∧ PaddingConsistent (s1 64) 12
      ∧ (s1 64).codec.txPacket.isSome = true ∧ exec (.serialize allPresent) (s1 64) = .next t := by
  obtain ⟨t, ht, -⟩ := of_after (p := fun _ => true) (o := exec (.serialize allPresent) (s3 36)) (by decide)
  obtain ⟨u, hu, -⟩ := of_after (p := fun _ => true) (o := exec (.serialize allPresent) (s1 64)) (by decide)
  exact ⟨⟨t, open_s3, consistent_s3, by decide, ht⟩, u, open_s1, consistent_s1, by decide, hu⟩

/-- A SERIALIZE or SIZEQ for each row of the table of writes. -/
theorem witness_SerializeWritesPerOutcome :
    after (exec (.serialize nonePresent) (s1 24)) (fun t => decide (t.codec.result.read = some .badParam))
    && after (exec (.serialize allPresent) (s1 23)) (fun t => decide (t.codec.result.read = some .outOfMemory))
    && after (exec (.serialize allPresent) (machine (sender padded [] 0 [] [0x61, 0x00] 64)))
      (fun t => decide (t.codec.result.read = some .malformedPacket))
    && after (exec .sizeq (s1 24)) (fun t => decide (t.codec.result.read = some .ok))
    && after (exec (.serialize allPresent) (s1 24)) (fun t => decide (t.codec.result.read = some .ok)) = true := by decide

theorem witness_SizingAgreesWithEmission :
    after (exec .sizeq (s1 24)) (fun t => decide (t.codec.cap.read = some 24))
    && after (exec (.serialize allPresent) (s1 24)) (fun u => decide (u.codec.result.read = some .ok))
    && after (exec .sizeq (s1 23)) (fun t => decide (t.codec.cap.read = some 24))
    && after (exec (.serialize allPresent) (s1 23)) (fun u => decide (u.codec.result.read = some .outOfMemory)) = true := by
  decide

theorem past_full : DeserializePast (.deserialize allPresent) (received fullBytes) 36 :=
  ⟨⟨_, rfl, rfl, rfl, rfl⟩, rfl, by decide, rfl, by decide⟩

theorem holds_full : WireHolds (received fullBytes).codec.wire full :=
  ⟨0xB3, 0xFF, by decide, by decide, by decide, by decide, by decide, by decide, by decide⟩

theorem past_hdr : DeserializePast (.deserialize allPresent) (received hdr) 12 :=
  ⟨⟨_, rfl, rfl, rfl, rfl⟩, rfl, by decide, rfl, by decide⟩

theorem holds_hdr : WireHolds (received hdr).codec.wire base :=
  ⟨0x80, 0x60, by decide, by decide, by decide, by decide, by decide, by decide, by decide⟩

/-- V-D21 with every section, and V-D2 with the fixed header alone. -/
theorem witness_DeserializeDecodes :
    (DeserializePast (.deserialize allPresent) (received fullBytes) 36 ∧ WireHolds (received fullBytes).codec.wire full
      ∧ ExtDeclared (received fullBytes).codec.wire full 0xBEDE 1 28 ∧ 28 + 4 * (1 : Half).toNat ≤ 36
      ∧ PadTaken (received fullBytes).codec.wire full (28 + 4 * (1 : Half).toNat) 36 2)
    ∧ DeserializePast (.deserialize allPresent) (received hdr) 12 ∧ WireHolds (received hdr).codec.wire base
      ∧ ExtDeclared (received hdr).codec.wire base 0 0 12 ∧ 12 + 4 * (0 : Half).toNat ≤ 12
      ∧ PadTaken (received hdr).codec.wire base (12 + 4 * (0 : Half).toNat) 12 0 := by
  refine ⟨⟨past_full, holds_full, ?_, by decide, ?_⟩, past_hdr, holds_hdr, ?_, by decide, ?_⟩
  · rw [ExtDeclared, if_pos (by decide)]; exact ⟨by decide, by decide, rfl⟩
  · rw [PadTaken, if_pos (by decide)]; exact ⟨0x02, by decide, by decide, by decide, rfl⟩
  · rw [ExtDeclared, if_neg (by decide)]; exact ⟨rfl, rfl, rfl⟩
  · rw [PadTaken, if_neg (by decide)]

/-- A DESERIALIZE for each row of the table of writes. -/
theorem witness_DeserializeWritesPerOutcome :
    after (exec (.deserialize nonePresent) (received hdr)) (fun t => decide (t.codec.result.read = some .badParam))
    && after (exec (.deserialize allPresent) (received (0xC2 :: h11)))
      (fun t => decide (t.codec.result.read = some .wrongVersion))
    && after (exec (.deserialize allPresent) (received (0x90 :: h11)))
      (fun t => decide (t.codec.result.read = some .malformedPacket))
    && after (exec (.deserialize allPresent) (received hdr)) (fun t => decide (t.codec.result.read = some .ok)) = true := by
  decide

/-- V-D21. -/
theorem witness_DecodedLengthsAddUp : ∃ t, exec (.deserialize allPresent) (received fullBytes) = .next t
    ∧ decide (t.codec.result.read = some .ok ∧ (received fullBytes).codec.inLen.read = some 36) = true :=
  of_after (by decide)

/-- V-D20a: a frame of a full contributing-source list and nothing after it. -/
theorem witness_ViewsAreOrderedInsideTheFrame :
    ∃ t, exec (.deserialize allPresent) (machine { blank with
        inLen := Reg.holding 72, wireSize := 72, wire := Memory.writeN [] 0 (0x8F :: List.replicate 71 0) }) = .next t
      ∧ decide (t.codec.result.read = some .ok ∧ t.codec.pkt.extOff.read = some 72) = true := of_after (by decide)

/-- Other contents where DESERIALIZE does not look: a byte of V-D21's second identifier. -/
theorem witness_DeserializeReadsOnlyTheFraming :
    (∀ a, (a < 12
        ∨ (∃ b0, (received fullBytes).codec.wire.read 0 = some b0 ∧ b0.toNat / 16 % 2 = 1
            ∧ 12 + 4 * (b0.toNat % 16) ≤ a ∧ a < 12 + 4 * (b0.toNat % 16) + 4)
        ∨ (∃ b0 n, (received fullBytes).codec.wire.read 0 = some b0 ∧ b0.toNat / 32 % 2 = 1
            ∧ (received fullBytes).codec.inLen.read = some n ∧ a = n - 1)) →
      Memory.read (Memory.write (received fullBytes).codec.wire 16 0xFF) a = (received fullBytes).codec.wire.read a)
    ∧ Memory.write (received fullBytes).codec.wire 16 0xFF ≠ (received fullBytes).codec.wire := by
  have h0 : (received fullBytes).codec.wire.read 0 = some 0xB3 := by decide
  have hn : (received fullBytes).codec.inLen.read = some 36 := by decide
  refine ⟨fun a ha => ?_, by decide⟩
  rw [Memory.read_write, if_neg]
  rintro rfl
  rw [h0, hn] at ha
  rcases ha with h | ⟨b0, h, -, h1, -⟩ | ⟨b0, n, -, -, hn', h⟩
  · omega
  · cases h
    revert h1
    decide
  · cases hn'
    omega

theorem witness_DeserializeOfSerializeIsThePacket : ∃ t, exec (.serialize allPresent) (s3 36) = .next t
    ∧ decide (t.codec.result.read = some .ok ∧ t.codec.cap.read = some 36) = true := of_after (by decide)

theorem witness_BadParamExactly :
    (∀ i ∈ [Instr.init nonePresent, .serialize { c := false, k := true, b := true, l := true },
        .serialize { c := true, k := false, b := true, l := true },
        .serialize { c := true, k := true, b := true, l := false },
        .deserialize { c := false, k := true, b := true, l := true },
        .deserialize { c := true, k := true, b := false, l := true },
        .deserialize { c := true, k := false, b := true, l := true }],
      isCommand i = true ∧ meetsRace i (s1 24) = false ∧ BadParamCause i (s1 24))
    ∧ BadParamCause (.serialize allPresent) (s1 0)
    ∧ BadParamCause (.deserialize allPresent) (received (hdr.take 11)) := by
  refine ⟨?_, .inr (.inr (.inr ⟨rfl, by decide⟩)), .inr (.inr (.inr ⟨11, by decide, by decide⟩))⟩
  intro i hi
  simp only [List.mem_cons, List.not_mem_nil, or_false] at hi
  rcases hi with rfl | rfl | rfl | rfl | rfl | rfl | rfl <;> refine ⟨rfl, by decide, ?_⟩
  · exact rfl
  · exact .inl rfl
  · exact .inr (.inl rfl)
  · exact .inr (.inr (.inl rfl))
  · exact .inl rfl
  · exact .inr (.inl rfl)
  · exact .inr (.inr (.inl rfl))

theorem witness_OutOfMemoryExactly : isCommand (.serialize allPresent) = true
    ∧ SerializePast (.serialize allPresent) (s1 23) 24 23 ∧ 23 < 24 :=
  ⟨rfl, ⟨rfl, rfl, rfl, by decide, by decide, by decide⟩, by decide⟩

theorem witness_WrongVersionExactly : DeserializePast (.deserialize allPresent) (received (0xC2 :: h11)) 12
    ∧ (received (0xC2 :: h11)).codec.wire.read 0 = some 0xC2 ∧ (0xC2 : Byte).toNat / 64 ≠ 2 :=
  ⟨⟨⟨_, rfl, rfl, rfl, rfl⟩, rfl, by decide, rfl, by decide⟩, by decide, by decide⟩

/-- (a) V-D7, (b) V-D10, (c) V-D11, (d) V-D13 and V-D14, (e) V-S10. -/
theorem witness_MalformedPacketExactly :
    MalformedCause (.deserialize allPresent) (received (0x82 :: h11 ++ [0x11, 0x22, 0x33, 0x44]))
    ∧ MalformedCause (.deserialize allPresent) (received (0x90 :: h11 ++ [0x00, 0x00, 0x00]))
    ∧ MalformedCause (.deserialize allPresent)
        (received (0x90 :: h11 ++ [0x00, 0x00, 0x00, 0x02, 0x11, 0x22, 0x33, 0x44]))
    ∧ MalformedCause (.deserialize allPresent) (received (0xA0 :: h11 ++ [0x61, 0x62, 0x00]))
    ∧ MalformedCause (.deserialize allPresent) (received (0xA0 :: h11 ++ [0x61, 0x62, 0x04]))
    ∧ MalformedCause (.serialize allPresent) (machine (sender padded [] 0 [] [0x61, 0x00] 64)) := by
  refine ⟨.inl ⟨16, { base with cc := 2 }, ⟨⟨_, rfl, rfl, rfl, rfl⟩, rfl, by decide, rfl, by decide⟩,
      ⟨0x82, 0x60, by decide, by decide, by decide, by decide, by decide, by decide, by decide⟩, .inl (by decide)⟩,
    .inl ⟨15, { base with x := true }, ⟨⟨_, rfl, rfl, rfl, rfl⟩, rfl, by decide, rfl, by decide⟩,
      ⟨0x90, 0x60, by decide, by decide, by decide, by decide, by decide, by decide, by decide⟩, .inr (.inl (by decide))⟩,
    .inl ⟨20, { base with x := true }, ⟨⟨_, rfl, rfl, rfl, rfl⟩, rfl, by decide, rfl, by decide⟩,
      ⟨0x90, 0x60, by decide, by decide, by decide, by decide, by decide, by decide, by decide⟩,
      .inr (.inr (.inl ⟨0, 2, 16, ?_, rfl, by decide, by decide⟩))⟩,
    .inl ⟨15, { base with p := true }, ⟨⟨_, rfl, rfl, rfl, rfl⟩, rfl, by decide, rfl, by decide⟩,
      ⟨0xA0, 0x60, by decide, by decide, by decide, by decide, by decide, by decide, by decide⟩,
      .inr (.inr (.inr ⟨0, 0, 12, 0, ?_, rfl, by decide, by decide, .inl (by decide)⟩))⟩,
    .inl ⟨15, { base with p := true }, ⟨⟨_, rfl, rfl, rfl, rfl⟩, rfl, by decide, rfl, by decide⟩,
      ⟨0xA0, 0x60, by decide, by decide, by decide, by decide, by decide, by decide, by decide⟩,
      .inr (.inr (.inr ⟨0, 0, 12, 4, ?_, rfl, by decide, by decide, .inr (by decide)⟩))⟩,
    .inr ⟨14, 64, 2, ⟨⟨rfl, rfl, rfl, by decide, by decide, by decide⟩, by decide, by decide, rfl, by decide⟩,
      rfl, by decide, 0, by decide, .inl (by decide)⟩⟩
  · rw [ExtDeclared, if_pos (by decide)]; exact ⟨by decide, by decide, rfl⟩
  · rw [ExtDeclared, if_neg (by decide)]; exact ⟨rfl, rfl, rfl⟩
  · rw [ExtDeclared, if_neg (by decide)]; exact ⟨rfl, rfl, rfl⟩

/-- `FailureWritesOnlyResult` with each failure kind: the outcomes of the two witnesses above. -/
theorem witness_FailureWritesOnlyResult : isCommand (.serialize allPresent) = true
    ∧ ∃ t, exec (.serialize allPresent) (s1 23) = .next t
      ∧ decide (t.codec.result.read = some .outOfMemory ∧ ResultKind.outOfMemory ≠ .ok) = true :=
  ⟨rfl, of_after (by decide)⟩

theorem witness_StepRunsTheDecodedInstruction :
    (∃ s : State, 255 < 256 ∧ s.host = .wr 0 255 :: [] ∧ s.running.read s.active = none)
    ∧ (∃ s : State, s.host = .image .fixed hdr :: [] ∧ Port.fixed ≠ .cmd ∧ s.running.read s.active = none
        ∧ decode s.params.lenW .fixed hdr = .ok (.fixed base))
    ∧ ∃ s : State, s.host = .endInit :: [] ∧ s.running.read s.active = some 0x05 :=
  ⟨⟨{ machine blank with host := [.wr 0 255] }, by decide, rfl, rfl⟩,
   ⟨{ machine blank with host := [.image .fixed hdr] }, rfl, by decide, rfl, rfl⟩,
   ⟨{ machine blank with host := [.endInit], running := [(0, 0x05)] }, rfl, rfl⟩⟩

theorem witness_HostRegisterAccess :
    (∃ s : State, s.running.read s.active = none ∧ RegName.ofNumber 21 = some .payOff ∧ RegName.payOff.hostWritable = true
      ∧ 2 ^ 19 - 1 < 2 ^ RegName.payOff.width s.params.lenW ∧ s.host = .wr 21 (2 ^ 19 - 1) :: .rd 21 :: [])
    ∧ (∃ s : State, s.running.read s.active = none ∧ RegName.ofNumber 11 = some .cc ∧ s.readReg .cc = some 15 ∧ s.host = .rd 11 :: [])
    ∧ (∀ n ∈ [1, 21], ∃ (s : State) (r : RegName), s.running.read s.active = none ∧ RegName.ofNumber n = some r ∧ r ≠ .cmd
        ∧ s.readReg r = none ∧ s.host = .rd n :: [])
    ∧ (∃ s : State, s.running.read s.active = none ∧ s.codec.result.read = some .malformedPacket ∧ s.host = .rd 1 :: [])
    ∧ (∃ s : State, s.running.read s.active = none ∧ s.host = .rd 2 :: [])
    ∧ (∃ s : State, s.running.read s.active = none ∧ s.host = .wr 1 7 :: [])
    ∧ (∃ s : State, s.running.read s.active = none ∧ s.host = .rd 0 :: [])
    ∧ ∀ n ∈ [5, 7, 22], (4 < n ∧ n < 8 ∨ 21 < n) ∧ ∃ s : State, s.running.read s.active = none ∧ s.host = .rd n :: [] := by
  refine ⟨⟨{ machine blank with host := [.wr 21 (2 ^ 19 - 1), .rd 21] }, rfl, rfl, rfl, by decide, rfl⟩,
    ⟨{ machine { blank with pkt := { Pkt.reset with cc := Reg.holding 15 } } with host := [.rd 11] }, rfl, rfl, rfl, rfl⟩, unread,
    ⟨{ machine { blank with result := Reg.holding .malformedPacket } with host := [.rd 1] }, rfl, rfl, rfl⟩,
    ⟨{ machine blank with host := [.rd 2] }, rfl, rfl⟩, ⟨{ machine blank with host := [.wr 1 7] }, rfl, rfl⟩, ⟨{ machine blank with host := [.rd 0] }, rfl, rfl⟩, ?_⟩
  intro n hn
  exact ⟨by revert n; decide, { machine blank with host := [.rd n] }, rfl, rfl⟩
where
  unread : ∀ n ∈ [1, 21], ∃ (s : State) (r : RegName), s.running.read s.active = none ∧ RegName.ofNumber n = some r ∧ r ≠ .cmd
      ∧ s.readReg r = none ∧ s.host = .rd n :: [] := by
    intro n hn
    simp only [List.mem_cons, List.not_mem_nil, or_false] at hn
    rcases hn with rfl | rfl
    · exact ⟨{ machine blank with host := [.rd 1] }, .result, rfl, rfl, by decide, rfl, rfl⟩
    · exact ⟨{ machine blank with host := [.rd 21] }, .payOff, rfl, rfl, by decide, rfl, rfl⟩

/-- The last cells of each memory. -/
theorem witness_HostLoadsTheOperandMemories :
    (∀ sp, (machine blank).byteSpaceSize sp = 64 ∧ 62 + [(7 : Byte), 8].length ≤ (machine blank).byteSpaceSize sp
      ∧ ∃ s : State, s.running.read s.active = none ∧ s.host = .ldBytes sp 62 [7, 8] :: [])
    ∧ (∃ s : State, s.running.read s.active = none ∧ s.host = .ldWords .txcsrc 14 [7] :: []
        ∧ 14 + [(7 : Word)].length ≤ WordSpace.txcsrc.size)
    ∧ ∃ s : State, s.running.read s.active = none ∧ s.host = .ldWords .txext 65534 [7] :: []
        ∧ 65534 + [(7 : Word)].length ≤ WordSpace.txext.size := by
  refine ⟨fun sp => ?_, ⟨{ machine blank with host := [.ldWords .txcsrc 14 [7]] }, rfl, rfl, by decide⟩,
    { machine blank with host := [.ldWords .txext 65534 [7]] }, rfl, rfl, by decide⟩
  cases sp
  · exact ⟨rfl, by decide, { machine blank with host := [.ldBytes .wire 62 [7, 8]] }, rfl, rfl⟩
  · exact ⟨rfl, by decide, { machine blank with host := [.ldBytes .txpay 62 [7, 8]] }, rfl, rfl⟩

theorem witness_InstanceInsideACommandIsClosed : ∀ a ∈ [HostAction.wr 0 0x3E, .rd 2, .beginInit 0x05, .reset],
    ∃ s : State, s.host = a :: [] ∧ s.running.read s.active = some 0x05 :=
  fun a _ => ⟨{ machine blank with host := [a], running := [(0, 0x05)] }, rfl, rfl⟩

/-- V-D21's views, each at its last element and one past it; and the same elements of a buffer in which nothing past cell 22 is written. -/
theorem witness_ViewElementsAreBigEndian :
    (let c := { (received fullBytes).codec with pkt := Pkt.decoded full 0xBEDE 1 28 32 2 }
     c.pkt.cc.read = some 3 ∧ c.pkt.csrcOff.read = some 12 ∧ 2 < (3 : BitVec 4).toNat ∧ 12 + 4 * 2 + 4 ≤ c.wireSize
      ∧ c.wire.readBE32 (12 + 4 * 2) = some 0xCAFEBABE
      ∧ c.pkt.extLen.read = some 1 ∧ c.pkt.extOff.read = some 28 ∧ 0 < (1 : Half).toNat ∧ 28 + 4 * 0 + 4 ≤ c.wireSize
      ∧ c.wire.readBE32 (28 + 4 * 0) = some 0x10203040
      ∧ c.pkt.payLen.read = some 2 ∧ c.pkt.payOff.read = some 32 ∧ 1 < 2 ∧ 32 + 1 + 1 ≤ c.wireSize
      ∧ c.wire.read (32 + 1) = some 0xBB ∧ c.pkt.viewCount .payload = some 2 ∧ 2 ≤ 2
      ∧ (machine c).running.read (machine c).active = none)
    ∧ (let c := { (received (fullBytes.take 23)).codec with pkt := Pkt.decoded full 0xBEDE 1 28 32 2, wireSize := 36 }
     c.pkt.viewCount .csrc = some 3 ∧ c.pkt.viewOffset .csrc = some 12 ∧ 12 + 4 * 2 + 4 ≤ c.wireSize
      ∧ c.wire.readBE32 (12 + 4 * 2) = none
      ∧ c.pkt.viewCount .ext = some 1 ∧ c.pkt.viewOffset .ext = some 28 ∧ 28 + 4 * 0 + 4 ≤ c.wireSize
      ∧ c.wire.readBE32 (28 + 4 * 0) = none
      ∧ 32 + 1 + 1 ≤ c.wireSize ∧ c.wire.read (32 + 1) = none)
    ∧ after (step { machine { (received fullBytes).codec with pkt := Pkt.decoded full 0xBEDE 1 28 32 2 } with host := [.rdView .payload 1] })
      (fun t => decide (t.readData = 0xBB ∧ t.draws = 0)) = true := by decide

/-- A frame of which the first bytes alone are in `WIRE`. -/
def cutShort (n : Nat) (bytes : List Byte) : State :=
  machine { blank with inLen := Reg.holding n, wire := Memory.writeN [] 0 bytes }

/-- SERIALIZE and SIZEQ: V-R6, V-R5, a length register alone unwritten, `PKT.P` unwritten, the last payload cell unwritten under `P = 1`, V-R11. -/
theorem witness_UnwrittenReadsAreRefused_serialize :
    ((machine blank).initRace = false ∧ (machine blank).codec.cap.read = none)
    ∧ ((machine blank).ctxInit = true ∧ LengthUnwritten (machine blank).codec.pkt)
    ∧ (let s := machine { s3 36 |>.codec with pkt := { (s3 36).codec.pkt with extLen := Reg.unwritten 0 } }
       s.ctxInit = true ∧ LengthUnwritten s.codec.pkt ∧ s.codec.cap.read = some 36)
    ∧ (let s := machine { (s1 24).codec with pkt := { (s1 24).codec.pkt with p := Reg.unwritten false } }
       SerializeOpen (.serialize allPresent) s 24 24 12 ∧ s.codec.pkt.p.read = none)
    ∧ (let s := machine { sender padded [] 0 [] [0x61, 0x01] 14 with txpay := Memory.writeN [] 0 [0x61] }
       SerializeOpen (.serialize allPresent) s 14 14 2 ∧ s.codec.pkt.p.read = some true ∧ 0 < 2
        ∧ s.codec.txpay.read (2 - 1) = none)
    ∧ (let s := machine { sender base [] 0 [] hello 24 with txpay := Memory.writeN [] 0 (hello.take 11) }
       SerializeOpen (.serialize allPresent) s 24 24 12 ∧ PaddingConsistent s 12 ∧ s.codec.txPacket = none) :=
  ⟨by decide, ⟨rfl, .inl rfl⟩, ⟨rfl, .inr (.inr (.inr ⟨rfl, rfl⟩)), rfl⟩,
    ⟨⟨⟨rfl, rfl, rfl, by decide, by decide, by decide⟩, by decide, by decide, rfl, by decide⟩, rfl⟩,
    ⟨⟨⟨rfl, rfl, rfl, by decide, by decide, by decide⟩, by decide, by decide, rfl, by decide⟩, rfl, by decide, by decide⟩,
    ⟨⟨rfl, rfl, rfl, by decide, by decide, by decide⟩, by decide, by decide, rfl, by decide⟩,
    ⟨false, rfl, fun h => by cases h⟩, by decide⟩

/-- DESERIALIZE: V-R7, byte 0 missing, the header's last byte missing, the extension header's last byte missing, the pad count missing. And a sizing query with nothing else written. -/
theorem witness_UnwrittenReadsAreRefused_deserialize :
    ((machine blank).initRace = false ∧ (machine blank).codec.inLen.read = none)
    ∧ (DeserializePast (.deserialize allPresent) (cutShort 12 []) 12 ∧ (cutShort 12 []).codec.wire.read 0 = none)
    ∧ (let s := cutShort 12 (hdr.take 11)
       DeserializePast (.deserialize allPresent) s 12 ∧ s.codec.wire.read 0 = some 0x80 ∧ (0x80 : Byte).toNat / 64 = 2
        ∧ 11 < 12 ∧ s.codec.wire.read 11 = none)
    ∧ (let s := cutShort 16 (0x90 :: h11 ++ [0x00, 0x00, 0x00])
       let h := { base with x := true }
       DeserializePast (.deserialize allPresent) s 16 ∧ WireHolds s.codec.wire h ∧ h.x = true
        ∧ 12 + 4 * h.cc.toNat + 4 ≤ 16 ∧ 12 + 4 * h.cc.toNat ≤ 15 ∧ 15 < 12 + 4 * h.cc.toNat + 4
        ∧ s.codec.wire.read 15 = none)
    ∧ (let s := cutShort 13 (0xA0 :: h11)
       let h := { base with p := true }
       DeserializePast (.deserialize allPresent) s 13 ∧ WireHolds s.codec.wire h
        ∧ ExtDeclared s.codec.wire h 0 0 12 ∧ h.p = true ∧ 12 + 4 * (0 : Half).toNat < 13
        ∧ s.codec.wire.read (13 - 1) = none)
    ∧ (let s := machine { blank with pkt := Pkt.decoded base 0 0 0 0 12 }
       s.ctxInit = true ∧ s.codec.pkt.requiredLength = some 24 ∧ 24 ≤ s.params.maxLen ∧ s.codec.cap.read = none
        ∧ s.codec.wire = [] ∧ s.codec.txcsrc = [] ∧ s.codec.txext = [] ∧ s.codec.txpay = []) := by
  refine ⟨by decide, ⟨⟨⟨_, rfl, rfl, rfl, rfl⟩, rfl, by decide, rfl, by decide⟩, rfl⟩,
    ⟨⟨⟨_, rfl, rfl, rfl, rfl⟩, rfl, by decide, rfl, by decide⟩, by decide, by decide, by decide, by decide⟩,
    ⟨⟨⟨_, rfl, rfl, rfl, rfl⟩, rfl, by decide, rfl, by decide⟩,
      ⟨0x90, 0x60, by decide, by decide, by decide, by decide, by decide, by decide, by decide⟩,
      rfl, by decide, by decide, by decide, by decide⟩,
    ⟨⟨⟨_, rfl, rfl, rfl, rfl⟩, rfl, by decide, rfl, by decide⟩,
      ⟨0xA0, 0x60, by decide, by decide, by decide, by decide, by decide, by decide, by decide⟩,
      ?_, rfl, by decide, by decide⟩, by decide⟩
  rw [ExtDeclared, if_neg (by decide)]
  exact ⟨rfl, rfl, rfl⟩

theorem witness_InitRaceIsRefused : racing.ctxInit = false ∧ (1, (0x05 : Byte)) ∈ racing.running ∧ 1 ≠ racing.active
    ∧ (machine blank).ctxInit = true := by decide

/-- `InstancesAreIsolated` with an INIT that sets `CTX.INIT`. -/
theorem witness_InstancesAreIsolated : ∃ t, exec (.init contextOnly) State.reset = .next t
    ∧ (t.ctxInit && !State.reset.ctxInit) = true := of_after (by decide)

theorem witness_SelectThereAndBack :
    (let s : State := { machine blank with host := [.select 1, .select 0] }
     s.sound = true ∧ 1 ≠ s.active
      ∧ after (step s) (fun t => after (step t) fun u => decide (u = { s with host := [] })) = true) := by decide

/-- Each of the three ways `CTX.INIT` changes. -/
theorem witness_OnlyInitAndResetWriteCtx :
    after (step { State.reset with host := [.wr 0 0x05] }) (fun t => t.ctxInit)
    && after (step { racing with host := [.endInit], active := 1 }) (fun t => t.ctxInit)
    && after (step { machine blank with host := [.reset] }) (fun t => !t.ctxInit) = true := by decide

/-- Two commands and a reserved word, the first of which has its effect. -/
theorem witness_CommandRunsNeverFault :
    (let s : State := { State.reset with host := [.wr 0 0x05, .wr 0 0x2E, .wr 0 0xC0] }
     (∀ a ∈ s.host, a = .wr 0 0x05 ∨ a = .wr 0 0x2E ∨ a = .wr 0 0xC0)
      ∧ after (step s) (fun t => t.ctxInit) = true) := by decide

theorem witness_ResetIsSound : Params.ok { lenW := 19, txpaySize := 64, nCodec := 2 } = true ∧ Params.default.ok = true := by
  decide

theorem witness_StepKeepsSoundness : (racing.sound && (s3 36).sound) = true
    ∧ after (step { racing with host := [.wr 3 9] }) (fun t => t.sound) = true := by decide

/-- Two states that differ in a value no one wrote. -/
theorem witness_UnwrittenValuesNeverMatter :
    (let t := machine { blank with cap := { written := false, val := 7 } }
     (machine blank).forget = t.forget ∧ machine blank ≠ t) := by decide

/-- The last cells of each memory, written and unwritten, and the first that does not exist. -/
theorem witness_HostReadsTheMemories :
    (let c := { blank with wire := [(63, 7)], txpay := [(63, 8)], txcsrc := [(14, 9)], txext := [(65534, 10)] }
     (machine c).running.read (machine c).active = none
      ∧ 63 < c.wireSize ∧ c.wire.read 63 = some 7 ∧ 63 < (machine c).params.txpaySize ∧ c.txpay.read 63 = some 8
      ∧ 14 < 15 ∧ c.txcsrc.read 14 = some 9 ∧ 65534 < 65535 ∧ c.txext.read 65534 = some 10
      ∧ c.wire.read 62 = none ∧ c.txpay.read 62 = none ∧ c.txcsrc.read 13 = none ∧ c.txext.read 65533 = none
      ∧ c.wireSize ≤ 64 ∧ (machine c).params.txpaySize ≤ 64)
    ∧ after (step { machine { blank with txext := [(65534, 10)] } with host := [.rdWord .txext 65534] })
      (fun t => decide (t.readData = 10)) = true := by decide

/-- A buffer of the largest size with its last cell written twice, one of no cell, one too large, one with an entry outside. -/
theorem witness_HostRepointsTheBuffer :
    (let cells : List (Nat × Byte) := [(524286, 1), (0, 2), (524286, 3)]
     524287 < 2 ^ (machine blank).params.lenW ∧ (∀ e ∈ cells, e.1 < 524287)
      ∧ cells = [(524286, 1), (0, 2)] ++ (524286, 3) :: []
      ∧ after (step { machine blank with host := [.repoint 524287 cells] })
        (fun t => decide (t.codec.wire = [(0, 2), (524286, 3)] ∧ t.codec.wireSize = 524287)) = true)
    ∧ 0 < 2 ^ (machine blank).params.lenW ∧ 2 ^ (machine blank).params.lenW ≤ 524288
    ∧ (1 < 2 ^ (machine blank).params.lenW ∧ (1, (7 : Byte)) ∈ [(1, (7 : Byte))] ∧ 1 ≤ 1) := by decide

theorem readSet_s3 : SerializeReadSetWritten (s3 36).codec := by
  refine ⟨by decide, by decide, by decide, by decide, by decide, by decide, by decide, ?_, ?_, fun _ => ⟨by decide, ?_⟩⟩
  · intro cc k h hk
    cases h
    exact (by decide : ∀ k, k < 3 → (s3 36).codec.txcsrc.read k ≠ none) k hk
  · intro len j h hj
    cases h
    exact (by decide : ∀ j, j < 4 → (s3 36).codec.txpay.read j ≠ none) j hj
  · intro n k h hk
    cases h
    exact (by decide : ∀ k, k < 1 → (s3 36).codec.txext.read k ≠ none) k hk

/-- V-S3 and V-D21, whose hosts have written what their commands read. -/
theorem witness_CommandsEndOnceTheHostHasDoneItsDuties :
    ((s3 36).ctxInit = true ∧ LengthWritten (s3 36).codec.pkt 36 ∧ 36 < 2 ^ (s3 36).params.lenW
      ∧ SerializeReadSetWritten (s3 36).codec ∧ (s3 36).codec.cap.read = some 36 ∧ 36 ≤ (s3 36).codec.wireSize
      ∧ (s3 36).codec.pkt.payLen.read = some 4 ∧ 4 ≤ (s3 36).params.txpaySize)
    ∧ ((s1 24).ctxInit = true ∧ LengthWritten (s1 24).codec.pkt 24)
    ∧ (received fullBytes).ctxInit = true ∧ (received fullBytes).codec.inLen.read = some 36
      ∧ 36 ≤ (received fullBytes).codec.wireSize
      ∧ ∀ a, a < 36 → (received fullBytes).codec.wire.read a ≠ none :=
  ⟨⟨rfl, ⟨true, 3, 4, 1, rfl, rfl, rfl, fun _ => rfl, rfl⟩, by decide, readSet_s3, rfl, by decide, rfl, by decide⟩,
    ⟨rfl, false, 0, 12, 0, rfl, rfl, rfl, by decide, rfl⟩, rfl, by decide, by decide, by decide⟩

end Sys2Proof.Tests
end

section
/-! SUPPORT. The machine's invariant, part by part: which changes of one codec, of the active codec and of the whole machine keep it, then every instruction and every host action, and last the step and the reset state (00_scope.md R4; 20_memory.md R40, R42, R43; 60_exceptions.md R166). -/

namespace Sys2Proof.Machine

/-! ## Canonical memories -/

/-- The canonical form as an order on the list of entries: each entry's address lies below all later ones. -/
theorem Memory.wf_iff_pairwise {α : Type} {m : Memory α} :
    Memory.wf m = true ↔ List.Pairwise (fun e f => e.1 < f.1) m := by
  induction m with
  | nil => simp [Memory.wf]
  | cons e m ih => simp [Memory.wf, Memory.above, ih]

/-- In a canonical memory, one new entry in the place of a listed one keeps the number of entries. -/
theorem Memory.length_write_erase {α : Type} {m : Memory α} (hm : Memory.wf m = true) {a b : Nat} {u : α}
    (ha : m.read a = some u) (hb : m.read b = none) (v : α) : ((m.erase a).write b v).length = m.length := by
  have hfree : (m.erase a).read b = none := by rw [Memory.read_erase]; split <;> simp [hb]
  rw [Memory.length_write hfree, Memory.length_erase hm ha]

/-! ## One codec -/

/-- What a length register has bits for is within R4's bound. -/
theorem Params.le_maxLen {p : Params} {v : Nat} (h : v < 2 ^ p.lenW) : v ≤ p.maxLen := by
  unfold Params.maxLen; omega

/-- A sound codec's buffer is no larger than R4 allows. -/
theorem Codec.wireSize_le_maxLen {p : Params} {c : Codec} (h : c.sound p = true) : c.wireSize ≤ p.maxLen := by
  obtain ⟨-, -, -, hsize, -⟩ := Codec.sound_iff.1 h
  exact hsize

/-- `RESULT` has no part in the invariant. -/
@[simp] theorem Codec.sound_withResult (p : Params) (c : Codec) (k : ResultKind) :
    (c.withResult k).sound p = c.sound p := rfl

/-- Right after reset a codec is sound, if its buffer is no larger than R4 allows. -/
theorem Codec.sound_reset {p : Params} {size : Nat} (h : size ≤ p.maxLen) : (Codec.reset size).sound p = true := by
  simp [Codec.sound_iff, Codec.reset, Pkt.reset, Memory.wf, Memory.within, h]

/-- The reset event leaves a sound codec sound (70_reset_and_hazards.md R170). -/
theorem Codec.sound_afterReset {p : Params} {c : Codec} (h : c.sound p = true) : c.afterReset.sound p = true :=
  Codec.sound_reset (Codec.wireSize_le_maxLen h)

/-- `CAP` may hold any `LEN_W`-bit number. -/
theorem Codec.sound_withCap {p : Params} {c : Codec} (h : c.sound p = true) {v : Nat} (hv : v ≤ p.maxLen) :
    (c.withCap v).sound p = true := by
  obtain ⟨⟨-, hlens⟩, hmems⟩ := Codec.sound_iff.1 h
  exact Codec.sound_iff.2 ⟨⟨hv, hlens⟩, hmems⟩

/-- The packet registers may hold anything whose length and offsets are `LEN_W`-bit numbers. -/
theorem Codec.sound_withPkt {p : Params} {c : Codec} (h : c.sound p = true) {q : Pkt}
    (hlen : q.payLen.val ≤ p.maxLen) (hcsrc : q.csrcOff.val ≤ p.maxLen) (hext : q.extOff.val ≤ p.maxLen)
    (hpay : q.payOff.val ≤ p.maxLen) : (c.withPkt q).sound p = true := by
  obtain ⟨⟨hcap, hin, -⟩, hmems⟩ := Codec.sound_iff.1 h
  exact Codec.sound_iff.2 ⟨⟨hcap, hin, hlen, hcsrc, hext, hpay⟩, hmems⟩

/-- A host write of a value its register has bits for keeps the codec sound: only the six length and offset registers have a bound, and it is their width. -/
theorem Codec.sound_writeReg {p : Params} {c : Codec} (h : c.sound p = true) {r : RegName} {v : Nat}
    (hv : v < 2 ^ r.width p.lenW) : (c.writeReg r v).sound p = true := by
  obtain ⟨⟨hcap, hin, hlen, hcsrc, hext, hpay⟩, hmems⟩ := Codec.sound_iff.1 h
  cases r
  case cap => exact Codec.sound_withCap h (Params.le_maxLen hv)
  case inLen => exact Codec.sound_iff.2 ⟨⟨hcap, Params.le_maxLen hv, hlen, hcsrc, hext, hpay⟩, hmems⟩
  case payLen => exact Codec.sound_withPkt h (Params.le_maxLen hv) hcsrc hext hpay
  case csrcOff => exact Codec.sound_withPkt h hlen (Params.le_maxLen hv) hext hpay
  case extOff => exact Codec.sound_withPkt h hlen hcsrc (Params.le_maxLen hv) hpay
  case payOff => exact Codec.sound_withPkt h hlen hcsrc hext (Params.le_maxLen hv)
  all_goals exact h

/-- Any canonical contents of a buffer that R4 allows keep the codec sound (20_memory.md R40). -/
theorem Codec.sound_withBuffer {p : Params} {c : Codec} (h : c.sound p = true) {m : Memory Byte} {size : Nat}
    (hwf : Memory.wf m = true) (hin : Memory.within size m = true) (hsize : size ≤ p.maxLen) :
    ({ c with wire := m, wireSize := size } : Codec).sound p = true := by
  obtain ⟨hlens, -, -, -, hrest⟩ := Codec.sound_iff.1 h
  exact Codec.sound_iff.2 ⟨hlens, hwf, hin, hsize, hrest⟩

/-- Bytes laid on cells of `WIRE` that exist keep the codec sound. -/
theorem Codec.sound_withWire_writeN {p : Params} {c : Codec} (h : c.sound p = true) {off : Nat} {bytes : List Byte}
    (hb : bytes.length = 0 ∨ off + bytes.length ≤ c.wireSize) :
    (c.withWire (c.wire.writeN off bytes)).sound p = true := by
  obtain ⟨-, hwf, hin, hsize, -⟩ := Codec.sound_iff.1 h
  exact Codec.sound_withBuffer h (Memory.wf_writeN hwf off bytes) (Memory.within_writeN hin bytes hb) hsize

/-! ## The whole machine -/

/-- The machine's invariant, part by part. -/
theorem State.sound_iff {s : State} : s.sound = true ↔
    s.params.ok = true ∧ s.codec.sound s.params = true
      ∧ (∀ e ∈ s.parked, e.2.sound s.params = true ∧ e.1 < s.params.nCodec ∧ e.1 ≠ s.active)
      ∧ Memory.wf s.parked = true ∧ s.parked.length + 1 = s.params.nCodec ∧ s.active < s.params.nCodec
      ∧ Memory.wf s.running = true ∧ ∀ e ∈ s.running, e.1 < s.params.nCodec ∧ isInitWord e.2 = true := by
  simp only [State.sound, Bool.and_eq_true, decide_eq_true_eq, List.all_eq_true, and_assoc]

@[simp] theorem State.sound_withHost (s : State) (q : List HostAction) : (s.withHost q).sound = s.sound := rfl

@[simp] theorem State.sound_withReadData (s : State) (v : Nat) : (s.withReadData v).sound = s.sound := rfl

@[simp] theorem State.sound_withDraw (s : State) : s.withDraw.sound = s.sound := rfl

@[simp] theorem State.sound_setInit (s : State) : s.setInit.sound = s.sound := rfl

@[simp] theorem State.sound_raise (s : State) (k : ResultKind) : (s.raise k).sound = s.sound := rfl

@[simp] theorem State.sound_done (s : State) : s.done.sound = s.sound := rfl

/-- The active codec replaced by a sound one. -/
theorem State.sound_withCodec {s : State} (h : s.sound = true) {c : Codec} (hc : c.sound s.params = true) :
    (s.withCodec c).sound = true := by
  obtain ⟨hok, -, hrest⟩ := State.sound_iff.1 h
  exact State.sound_iff.2 ⟨hok, hc, hrest⟩

/-- The running commands replaced by INITs of codecs that exist. -/
theorem State.sound_withRunning {s : State} (h : s.sound = true) {r : Memory Byte} (hwf : Memory.wf r = true)
    (hr : ∀ e ∈ r, e.1 < s.params.nCodec ∧ isInitWord e.2 = true) : (s.withRunning r).sound = true := by
  obtain ⟨hok, hcodec, hparked, hpwf, hlen, hactive, -⟩ := State.sound_iff.1 h
  exact State.sound_iff.2 ⟨hok, hcodec, hparked, hpwf, hlen, hactive, hwf, hr⟩

/-! ## Commands, primitives and formats -/

/-- INIT keeps the invariant: it writes no length and no memory (41_init.md R101). -/
theorem execInit_keeps_sound {p : Present} {s t : State} (hs : s.sound = true) (h : execInit p s = .next t) :
    t.sound = true := by
  rw [execInit_next, next_eq_next] at h
  subst h
  split
  · simpa using hs
  · simpa using hs

/-- A sizing query leaves a `LEN_W`-bit number in `CAP`. -/
theorem sized_sound {req : Nat} {s : State} (hs : s.sound = true) (hreq : req ≤ s.params.maxLen) :
    (sized req s).sound = true :=
  State.sound_withCodec hs (Codec.sound_withCap (State.sound_codec hs) hreq)

/-- An emission that fits its buffer keeps the invariant; its length then is a `LEN_W`-bit number, as the buffer's is. -/
theorem emitted_sound {p : TxPacket} {s : State} (hs : s.sound = true) (hfit : p.bytes.length ≤ s.codec.wireSize) :
    (emitted p s).sound = true := by
  have hc := State.sound_codec hs
  refine State.sound_withCodec hs ?_
  rw [Codec.sound_withResult]
  exact Codec.sound_withCap (Codec.sound_withWire_writeN hc (.inr (by omega)))
    (hfit.trans (Codec.wireSize_le_maxLen hc))

/-- Stage 6 of SERIALIZE keeps the invariant: the bytes emitted are as many as were checked against the buffer. -/
theorem serializeChecked_keeps_sound {req : Nat} {s t : State} (hs : s.sound = true)
    (hreq : s.codec.pkt.requiredLength = some req) (h : serializeChecked req s = .next t) : t.sound = true := by
  obtain ⟨len, p, -, hfit, -, -, ⟨-, -, last, -, -, rfl⟩ | ⟨-, pkt, hpkt, rfl⟩⟩ := serializeChecked_eq_next.1 h
  · simpa using hs
  · exact emitted_sound hs (Codec.txPacket_length hpkt hreq ▸ hfit)

/-- Stages 2 to 5 of SERIALIZE keep the invariant. -/
theorem serializeReady_keeps_sound {b : Bool} {s t : State} (hs : s.sound = true)
    (h : serializeReady b s = .next t) : t.sound = true := by
  obtain ⟨-, req, hreq, hmax, ⟨-, rfl⟩ | ⟨-, cap, -, ⟨-, rfl⟩ | ⟨-, h⟩⟩⟩ := serializeReady_eq_next.1 h
  · exact sized_sound hs hmax
  · simpa using hs
  · exact serializeChecked_keeps_sound hs hreq h

/-- SERIALIZE and SIZEQ keep the invariant. -/
theorem serializeCommand_keeps_sound {p : Present} {s t : State} (hs : s.sound = true)
    (h : serializeCommand p s = .next t) : t.sound = true := by
  obtain ⟨-, ⟨-, rfl⟩ | ⟨-, -, -, -, -, rfl⟩ | ⟨-, -, -, -, -, h⟩ | ⟨-, -, -, -, h⟩⟩ := serializeCommand_eq_next.1 h
  · simpa using hs
  · simpa using hs
  · exact serializeReady_keeps_sound hs h
  · exact serializeReady_keeps_sound hs h

/-- A successful DESERIALIZE keeps the invariant when the views it reports lie inside a frame of `LEN_W`-bit length. -/
theorem decodedState_sound {h : Header} {profile extLen : Half} {extOff payOff payLen inLen : Nat} {s : State}
    (hs : s.sound = true) (hin : inLen ≤ s.params.maxLen) (hfixed : 12 ≤ extOff) (hext : extOff ≤ payOff)
    (hpay : payOff + payLen ≤ inLen) : (decodedState h profile extLen extOff payOff payLen s).sound = true := by
  refine State.sound_withCodec hs ?_
  rw [Codec.sound_withResult]
  refine Codec.sound_withPkt (State.sound_codec hs) ?_ ?_ ?_ ?_ <;>
    simp only [Pkt.decoded, Reg.holding_val, Config.fixedHdr] <;> omega

/-- Stages 8 and 9 of DESERIALIZE keep the invariant once the extension's data lies inside the frame. -/
theorem deserializePayload_keeps_sound {h : Header} {profile extLen : Half} {extOff inLen : Nat} {s t : State}
    (hs : s.sound = true) (hin : inLen ≤ s.params.maxLen) (hfixed : 12 ≤ extOff)
    (hdata : extOff + 4 * extLen.toNat ≤ inLen)
    (hx : deserializePayload h profile extLen extOff inLen s = .next t) : t.sound = true := by
  obtain ⟨payOff, hpo, ⟨-, rfl⟩ | ⟨-, -, pad, -, ⟨-, rfl⟩ | ⟨-, rfl⟩⟩⟩ := deserializePayload_eq_next.1 hx
  · exact decodedState_sound hs hin hfixed (by omega) (by omega)
  · exact decodedState_sound hs hin hfixed (by omega) (by omega)
  · simpa using hs

/-- Stages 6 and 7 of DESERIALIZE keep the invariant once the cursor lies inside the frame. -/
theorem deserializeExt_keeps_sound {h : Header} {cur inLen : Nat} {s t : State} (hs : s.sound = true)
    (hin : inLen ≤ s.params.maxLen) (hfixed : 12 ≤ cur) (hcur : cur ≤ inLen)
    (hx : deserializeExt h cur inLen s = .next t) : t.sound = true := by
  obtain ⟨-, hx⟩ | ⟨-, ⟨-, rfl⟩ | ⟨hroom, profile, extLen, -, -, ⟨-, rfl⟩ | ⟨hdata, hx⟩⟩⟩ :=
    deserializeExt_eq_next.1 hx
  · exact deserializePayload_keeps_sound hs hin hfixed (by simpa using hcur) hx
  · simpa using hs
  · simpa using hs
  · exact deserializePayload_keeps_sound hs hin (by omega) (by omega) hx

/-- Stages 2 to 5 of DESERIALIZE keep the invariant: the frame lies inside the buffer, and the contributing sources inside the frame. -/
theorem deserializeReady_keeps_sound {inLen : Nat} {s t : State} (hs : s.sound = true) (hmin : 12 ≤ inLen)
    (hx : deserializeReady inLen s = .next t) : t.sound = true := by
  obtain ⟨-, hbuf, b0, -, ⟨-, rfl⟩ | ⟨-, h, -, hx⟩⟩ := deserializeReady_eq_next.1 hx
  · simpa using hs
  · have hin : inLen ≤ s.params.maxLen := hbuf.trans (Codec.wireSize_le_maxLen (State.sound_codec hs))
    obtain ⟨-, -, rfl⟩ | ⟨hids, hx⟩ := deserializeCsrc_eq_next.1 hx
    · simpa using hs
    · exact deserializeExt_keeps_sound hs hin (by omega) (by omega) hx

/-- DESERIALIZE keeps the invariant. -/
theorem execDeserialize_keeps_sound {p : Present} {s t : State} (hs : s.sound = true)
    (h : execDeserialize p s = .next t) : t.sound = true := by
  obtain ⟨-, ⟨-, rfl⟩ | ⟨-, -, -, n, -, ⟨-, rfl⟩ | ⟨hmin, h⟩⟩⟩ := execDeserialize_eq_next.1 h
  · simpa using hs
  · simpa using hs
  · exact deserializeReady_keeps_sound hs hmin h

/-- A read primitive keeps the invariant. -/
theorem handOut_keeps_sound {w : Nat} {here : Bool} {o : Option (BitVec w)} {s t : State} (hs : s.sound = true)
    (h : handOut here o s = .next t) : t.sound = true := by
  obtain ⟨-, v, -, rfl⟩ := handOut_eq_next.1 h
  simpa using hs

/-- A write primitive or a wire format keeps the invariant. -/
theorem layOnWire_keeps_sound {off : Nat} {bytes : List Byte} {s t : State} (hs : s.sound = true)
    (h : layOnWire off bytes s = .next t) : t.sound = true := by
  obtain ⟨hb, rfl⟩ := layOnWire_eq_next.1 h
  exact State.sound_withCodec hs (Codec.sound_withWire_writeN (State.sound_codec hs) hb)

/-- Every instruction keeps the invariant. -/
theorem exec_keeps_sound {i : Instr} {s t : State} (hs : s.sound = true) (h : exec i s = .next t) :
    t.sound = true := by
  cases i with
  | init p => exact execInit_keeps_sound hs h
  | serialize p => exact serializeCommand_keeps_sound hs h
  | sizeq => exact serializeCommand_keeps_sound hs h
  | deserialize p => exact execDeserialize_keeps_sound hs h
  | reservedOp00 p => cases h
  | reservedHighBits w => cases h
  | rdBE32 a => exact handOut_keeps_sound hs h
  | rdBE16 a => exact handOut_keeps_sound hs h
  | wrBE32 v a => exact layOnWire_keeps_sound hs h
  | wrBE16 v a => exact layOnWire_keeps_sound hs h
  | fixed hd => exact layOnWire_keeps_sound hs h
  | csrc ids => exact layOnWire_keeps_sound hs h
  | ext cc profile words => exact layOnWire_keeps_sound hs h
  | payload cc n p bytes => exact layOnWire_keeps_sound hs h

/-! ## Host actions -/

/-- A load of bytes keeps the invariant. -/
theorem hostLoadBytes_keeps_sound {sp : ByteSpace} {off : Nat} {bytes : List Byte} {s t : State}
    (hs : s.sound = true) (h : hostLoadBytes sp off bytes s = .next t) : t.sound = true := by
  obtain ⟨hb, rfl⟩ := hostLoadBytes_eq_next.1 h
  have hc := State.sound_codec hs
  refine State.sound_withCodec hs ?_
  cases sp with
  | wire => exact Codec.sound_withWire_writeN hc hb
  | txpay =>
    obtain ⟨hlens, hwire, hwin, hsize, hcsrc, hcin, hext, hein, hpay, hpin⟩ := Codec.sound_iff.1 hc
    exact Codec.sound_iff.2 ⟨hlens, hwire, hwin, hsize, hcsrc, hcin, hext, hein,
      Memory.wf_writeN hpay off bytes, Memory.within_writeN hpin bytes hb⟩

/-- A load of words keeps the invariant. -/
theorem hostLoadWords_keeps_sound {sp : WordSpace} {off : Nat} {words : List Word} {s t : State}
    (hs : s.sound = true) (h : hostLoadWords sp off words s = .next t) : t.sound = true := by
  obtain ⟨hb, rfl⟩ := hostLoadWords_eq_next.1 h
  obtain ⟨hlens, hwire, hwin, hsize, hcsrc, hcin, hext, hein, hpay⟩ := Codec.sound_iff.1 (State.sound_codec hs)
  refine State.sound_withCodec hs (Codec.sound_iff.2 ?_)
  cases sp with
  | txcsrc => exact ⟨hlens, hwire, hwin, hsize, Memory.wf_writeN hcsrc off words,
      Memory.within_writeN hcin words hb, hext, hein, hpay⟩
  | txext => exact ⟨hlens, hwire, hwin, hsize, hcsrc, hcin, Memory.wf_writeN hext off words,
      Memory.within_writeN hein words hb, hpay⟩

/-- A change of the buffer keeps the invariant (20_memory.md R40). -/
theorem hostRepoint_keeps_sound {size : Nat} {cells : List (Nat × Byte)} {s t : State} (hs : s.sound = true)
    (h : hostRepoint size cells s = .next t) : t.sound = true := by
  obtain ⟨hsize, hcells, rfl⟩ := hostRepoint_eq_next.1 h
  exact State.sound_withCodec hs (Codec.sound_withBuffer (State.sound_codec hs) (bufferContents_wf cells)
    (bufferContents_within hcells) hsize)

/-- The choice of a codec keeps the invariant: the old and the new active codec change places, so the numbers stay `0 .. N_CODEC-1` (60_exceptions.md R166). -/
theorem hostSelect_keeps_sound {k : Nat} {s t : State} (hs : s.sound = true) (h : hostSelect k s = .next t) :
    t.sound = true := by
  obtain ⟨-, rfl⟩ | ⟨hne, c, hc, rfl⟩ := hostSelect_eq_next.1 h
  · exact hs
  obtain ⟨hok, hcodec, hparked, hwf, hlen, hactive, hrun⟩ := State.sound_iff.1 hs
  have hfree : s.parked.read s.active = none := by
    rw [Option.eq_none_iff_forall_ne_some]
    intro d hd
    obtain ⟨-, -, hna⟩ := hparked _ (Memory.mem_of_read hd)
    exact hna rfl
  obtain ⟨hcs, hk, -⟩ := hparked _ (Memory.mem_of_read hc)
  refine State.sound_iff.2 ⟨hok, hcs, fun e he => ?_, Memory.wf_write (Memory.wf_erase hwf k) _ _,
    (Memory.length_write_erase hwf hc hfree _).symm ▸ hlen, hk, hrun⟩
  obtain rfl | he := Memory.mem_write he
  · exact ⟨hcodec, hactive, hne.symm⟩
  · obtain ⟨hmem, hek⟩ := Memory.mem_erase.1 he
    obtain ⟨hes, hen, -⟩ := hparked e hmem
    exact ⟨hes, hen, hek⟩

/-- The reset event keeps the invariant (70_reset_and_hazards.md R170). -/
theorem hostReset_keeps_sound {s t : State} (hs : s.sound = true) (h : hostReset s = .next t) : t.sound = true := by
  obtain ⟨-, rfl⟩ := hostReset_eq_next.1 h
  obtain ⟨hok, hcodec, hparked, hwf, hlen, hrest⟩ := State.sound_iff.1 hs
  refine State.sound_iff.2 ⟨hok, Codec.sound_afterReset hcodec, ?_, ?_, by simpa using hlen, hrest⟩
  · intro e he
    obtain ⟨d, hd, rfl⟩ := List.mem_map.1 he
    obtain ⟨hds, hnum⟩ := hparked d hd
    exact ⟨Codec.sound_afterReset hds, hnum⟩
  · exact Memory.wf_iff_pairwise.2 (List.pairwise_map.2 (Memory.wf_iff_pairwise.1 hwf))

/-- The issue of an INIT that is not waited for keeps the invariant. -/
theorem hostBeginInit_keeps_sound {w : Byte} {s t : State} (hs : s.sound = true) (h : hostBeginInit w s = .next t) :
    t.sound = true := by
  obtain ⟨⟨p, hp⟩, rfl⟩ := hostBeginInit_eq_next.1 h
  obtain ⟨-, -, -, -, -, hactive, hwf, hrun⟩ := State.sound_iff.1 hs
  refine State.sound_withRunning hs (Memory.wf_write hwf _ _) fun e he => ?_
  obtain rfl | he := Memory.mem_write he
  · exact ⟨hactive, by simp [isInitWord, hp]⟩
  · exact hrun e he

/-- The INIT that ends is taken off the running ones; the others stay. -/
theorem hostEndInit_run_sound {s t : State} {i : Instr} (hs : s.sound = true) (h : hostEndInit s = .run i t) :
    t.sound = true := by
  obtain ⟨w, -, -, rfl⟩ := hostEndInit_eq_run.1 h
  obtain ⟨-, -, -, -, -, -, hwf, hrun⟩ := State.sound_iff.1 hs
  exact State.sound_withRunning hs (Memory.wf_erase hwf _) fun e he => hrun e (Memory.mem_erase.1 he).1

/-- The end of an INIT has no outcome of its own that is a next state: it runs the INIT. -/
theorem hostEndInit_ne_next {s t : State} : hostEndInit s ≠ .ended (.next t) := by
  unfold hostEndInit; split <;> simp

/-- The load of an image has no outcome of its own that is a next state: it runs the format. -/
theorem hostImage_ne_next {port : Port} {bytes : List Byte} {s t : State} :
    hostImage port bytes s ≠ .ended (.next t) := by
  unfold hostImage fetchDecoded; split <;> [simp; split <;> simp]

/-- An action that issues an instruction runs it in a sound state: `CMD` and images change nothing before it, and the end of an INIT only what runs. -/
theorem hostAction_run_sound {a : HostAction} {i : Instr} {s t : State} (hs : s.sound = true)
    (h : hostAction a s = .run i t) : t.sound = true := by
  cases a with
  | wr n v =>
    obtain ⟨-, h⟩ := unlessBusy_eq_run.1 h
    obtain ⟨-, -, -, rfl⟩ := hostWrite_eq_run.1 h
    exact hs
  | image port bytes =>
    obtain ⟨-, h⟩ := unlessBusy_eq_run.1 h
    obtain ⟨-, -, rfl⟩ := hostImage_eq_run.1 h
    exact hs
  | endInit => exact hostEndInit_run_sound hs h
  | select | reset => cases h
  | rd | ldBytes | ldWords | rdByte | rdWord | rdView | repoint | beginInit => cases (unlessBusy_eq_run.1 h).2

/-- What an action changes by itself keeps the invariant. -/
theorem hostAction_keeps_sound {a : HostAction} {s t : State} (hs : s.sound = true)
    (h : hostAction a s = .ended (.next t)) : t.sound = true := by
  have busy : ∀ {f : Fetched}, unlessBusy s f = .ended (.next t) → f = .ended (.next t) :=
    fun h => (unlessBusy_eq_next.1 h).2
  have own : ∀ {o : Out}, Fetched.ended o = .ended (.next t) → o = .next t := fun h => by injection h
  cases a with
  | wr n v =>
    obtain ⟨r, -, -, hv, rfl⟩ := hostWrite_eq_next.1 (busy h)
    exact State.sound_withCodec hs (Codec.sound_writeReg (State.sound_codec hs) hv)
  | rd n =>
    obtain ⟨r, -, -, ⟨v, -, rfl⟩ | ⟨-, rfl⟩⟩ := hostRead_eq_next.1 (own (busy h))
    · simpa using hs
    · simpa using hs
  | ldBytes sp off bytes => exact hostLoadBytes_keeps_sound hs (own (busy h))
  | ldWords sp off words => exact hostLoadWords_keeps_sound hs (own (busy h))
  | rdByte sp off =>
    obtain ⟨-, ⟨b, -, rfl⟩ | ⟨-, rfl⟩⟩ := hostReadByte_eq_next.1 (own (busy h))
    · simpa using hs
    · simpa using hs
  | rdWord sp off =>
    obtain ⟨-, ⟨w, -, rfl⟩ | ⟨-, rfl⟩⟩ := hostReadWord_eq_next.1 (own (busy h))
    · simpa using hs
    · simpa using hs
  | rdView v i => rw [hostReadView_frame (own (busy h))]; exact hs
  | image port bytes => exact absurd (busy h) hostImage_ne_next
  | repoint size cells => exact hostRepoint_keeps_sound hs (own (busy h))
  | select k => exact hostSelect_keeps_sound hs (own h)
  | beginInit w => exact hostBeginInit_keeps_sound hs (own (busy h))
  | endInit => exact absurd h hostEndInit_ne_next
  | reset => exact hostReset_keeps_sound hs (own h)

/-! ## The obligations -/

/-- Settles O54: a step either stays, or performs an action that keeps the invariant, or runs an instruction, which keeps it, in a state that meets it. -/
theorem stepKeepsSoundness : Obligations.StepKeepsSoundness := by
  intro s t hs h
  obtain ⟨-, rfl⟩ | ⟨a, rest, -, ⟨i, u, hrun, hx⟩ | ha⟩ := step_eq_next.1 h
  · exact hs
  · exact exec_keeps_sound (hostAction_run_sound ((State.sound_withHost s rest).trans hs) hrun) hx
  · exact hostAction_keeps_sound ((State.sound_withHost s rest).trans hs) ha

/-- Settles O53: the parked codecs are numbered `1 .. N_CODEC-1`, and every codec is as reset with the largest buffer R4 allows. -/
theorem resetIsSound : Obligations.ResetIsSound := by
  intro p hok
  have hn : 1 ≤ p.nCodec := by
    simp only [Params.ok, Bool.and_eq_true, decide_eq_true_eq] at hok
    exact hok.2
  have hcodec : (Codec.reset p.maxLen).sound p = true := Codec.sound_reset (Nat.le_refl _)
  refine State.sound_iff.2 ⟨hok, hcodec, ?_, ?_, ?_, hn, rfl, ?_⟩
  · intro e he
    obtain ⟨k, hk, rfl⟩ := List.mem_map.1 he
    rw [List.mem_range] at hk
    exact ⟨hcodec, by simp only [State.resetWith]; omega, Nat.succ_ne_zero k⟩
  · refine Memory.wf_iff_pairwise.2 (List.pairwise_map.2 ?_)
    exact List.pairwise_lt_range.imp Nat.succ_lt_succ
  · simp only [State.resetWith, List.length_map, List.length_range]; omega
  · simp [State.resetWith]

end Sys2Proof.Machine
end

section
/-! SUPPORT. What a register nothing has written stores never matters (10_state.md R33): every meaning, every host action and the step commute with `State.forget`, which replaces those stored values. -/

namespace Sys2Proof.Machine

/-! ## What forgetting leaves -/

@[simp] theorem State.forget_params (s : State) : s.forget.params = s.params := rfl
@[simp] theorem State.forget_ctxInit (s : State) : s.forget.ctxInit = s.ctxInit := rfl
@[simp] theorem State.forget_active (s : State) : s.forget.active = s.active := rfl
@[simp] theorem State.forget_codec (s : State) : s.forget.codec = s.codec.forget := rfl
@[simp] theorem State.forget_parked (s : State) :
    s.forget.parked = s.parked.map fun e => (e.1, e.2.forget) := rfl
@[simp] theorem State.forget_running (s : State) : s.forget.running = s.running := rfl
@[simp] theorem State.forget_host (s : State) : s.forget.host = s.host := rfl
@[simp] theorem State.forget_initRace (s : State) : s.forget.initRace = s.initRace := rfl
@[simp] theorem State.forget_byteSpaceSize (s : State) (sp : ByteSpace) :
    s.forget.byteSpaceSize sp = s.byteSpaceSize sp := by cases sp <;> rfl

@[simp] theorem Codec.forget_wire (c : Codec) : c.forget.wire = c.wire := rfl
@[simp] theorem Codec.forget_wireSize (c : Codec) : c.forget.wireSize = c.wireSize := rfl
@[simp] theorem Codec.forget_txcsrc (c : Codec) : c.forget.txcsrc = c.txcsrc := rfl
@[simp] theorem Codec.forget_txext (c : Codec) : c.forget.txext = c.txext := rfl
@[simp] theorem Codec.forget_txpay (c : Codec) : c.forget.txpay = c.txpay := rfl
@[simp] theorem Codec.forget_pkt (c : Codec) : c.forget.pkt = c.pkt.forget := rfl
@[simp] theorem Codec.forget_wireHas (c : Codec) (a n : Nat) : c.forget.wireHas a n = c.wireHas a n := rfl
@[simp] theorem Codec.forget_bytesOf (c : Codec) (sp : ByteSpace) : c.forget.bytesOf sp = c.bytesOf sp := by
  cases sp <;> rfl
@[simp] theorem Codec.forget_wordsIn (c : Codec) (sp : WordSpace) : c.forget.wordsIn sp = c.wordsIn sp := by
  cases sp <;> rfl

/-! ## What is read is what was read before -/

@[simp] theorem Codec.forget_cap_read (c : Codec) : c.forget.cap.read = c.cap.read := Reg.forget_read 0 c.cap
@[simp] theorem Codec.forget_inLen_read (c : Codec) : c.forget.inLen.read = c.inLen.read := Reg.forget_read 0 c.inLen
@[simp] theorem Pkt.forget_p_read (p : Pkt) : p.forget.p.read = p.p.read := Reg.forget_read false p.p
@[simp] theorem Pkt.forget_payLen_read (p : Pkt) : p.forget.payLen.read = p.payLen.read := Reg.forget_read 0 p.payLen

@[simp] theorem State.forget_readReg (s : State) (r : RegName) : s.forget.readReg r = s.readReg r := by
  cases r <;> simp [State.readReg, Codec.forget, Pkt.forget]

@[simp] theorem Pkt.forget_viewCount (p : Pkt) (v : View) : p.forget.viewCount v = p.viewCount v := by
  cases v <;> simp [Pkt.viewCount, Pkt.forget]

@[simp] theorem Pkt.forget_viewOffset (p : Pkt) (v : View) : p.forget.viewOffset v = p.viewOffset v := by
  cases v <;> simp [Pkt.viewOffset, Pkt.forget]

@[simp] theorem Pkt.forget_extOperand (p : Pkt) : p.forget.extOperand = p.extOperand := by
  simp [Pkt.extOperand, Pkt.forget]

@[simp] theorem Pkt.forget_requiredLength (p : Pkt) : p.forget.requiredLength = p.requiredLength := by
  unfold Pkt.requiredLength
  simp only [Pkt.forget_extOperand]
  simp [Pkt.forget]

@[simp] theorem Pkt.forget_header (p : Pkt) : p.forget.header = p.header := by
  simp [Pkt.header, Pkt.forget]

@[simp] theorem Codec.forget_extPacket (c : Codec) : c.forget.extPacket = c.extPacket := by
  unfold Codec.extPacket
  simp only [Codec.forget_pkt, Pkt.forget_extOperand, Codec.forget_txext]
  simp [Pkt.forget]

@[simp] theorem Codec.forget_txPacket (c : Codec) : c.forget.txPacket = c.txPacket := by
  simp [Codec.txPacket]

/-! ## Updates commute with forgetting -/

@[simp] theorem Codec.forget_withResult (c : Codec) (k : ResultKind) :
    (c.withResult k).forget = c.forget.withResult k := rfl
@[simp] theorem Codec.forget_withCap (c : Codec) (v : Nat) : (c.withCap v).forget = c.forget.withCap v := rfl
@[simp] theorem Codec.forget_withWire (c : Codec) (m : Memory Byte) : (c.withWire m).forget = c.forget.withWire m := rfl
@[simp] theorem Codec.forget_withPkt (c : Codec) (p : Pkt) : (c.withPkt p).forget = c.forget.withPkt p.forget := rfl
@[simp] theorem Pkt.forget_decoded (h : Header) (profile extLen : Half) (extOff payOff payLen : Nat) :
    (Pkt.decoded h profile extLen extOff payOff payLen).forget = Pkt.decoded h profile extLen extOff payOff payLen := rfl
@[simp] theorem Codec.forget_writeReg (c : Codec) (r : RegName) (v : Nat) :
    (c.writeReg r v).forget = c.forget.writeReg r v := by cases r <;> rfl

/-- The reset leaves nothing to forget: it stores the values `forget` puts in place (log 2). -/
@[simp] theorem Codec.forget_afterReset (c : Codec) : c.afterReset.forget = c.forget.afterReset := rfl

@[simp] theorem State.forget_withCodec (s : State) (c : Codec) :
    (s.withCodec c).forget = s.forget.withCodec c.forget := rfl
@[simp] theorem State.forget_raise (s : State) (k : ResultKind) : (s.raise k).forget = s.forget.raise k := rfl
@[simp] theorem State.forget_done (s : State) : s.done.forget = s.forget.done := rfl
@[simp] theorem State.forget_setInit (s : State) : s.setInit.forget = s.forget.setInit := rfl
@[simp] theorem State.forget_withReadData (s : State) (v : Nat) :
    (s.withReadData v).forget = s.forget.withReadData v := rfl
@[simp] theorem State.forget_withHost (s : State) (q : List HostAction) :
    (s.withHost q).forget = s.forget.withHost q := rfl
@[simp] theorem State.forget_withRunning (s : State) (r : Memory Byte) :
    (s.withRunning r).forget = s.forget.withRunning r := rfl

/-! ## Instructions -/

/-- The emission and its checks (42_serialize.md R116 to R119) commute with forgetting. -/
theorem serializeChecked_forget (req : Nat) (s : State) :
    serializeChecked req s.forget = mapNext State.forget (serializeChecked req s) := by
  have hemit : serializeEmit s.forget = mapNext State.forget (serializeEmit s) := by
    simp [serializeEmit, mapNext_need, emitted]
  simp [serializeChecked, mapNext_need, mapNext_ite, hemit]

theorem serializeReady_forget (buffer : Bool) (s : State) :
    serializeReady buffer s.forget = mapNext State.forget (serializeReady buffer s) := by
  simp [serializeReady, mapNext_need, mapNext_ite, serializeChecked_forget]

theorem serializeCommand_forget (p : Present) (s : State) :
    serializeCommand p s.forget = mapNext State.forget (serializeCommand p s) := by
  simp [serializeCommand, mapNext_need, mapNext_ite, serializeReady_forget]

theorem deserializePayload_forget (h : Header) (profile extLen : Half) (extOff inLen : Nat) (s : State) :
    deserializePayload h profile extLen extOff inLen s.forget
      = mapNext State.forget (deserializePayload h profile extLen extOff inLen s) := by
  simp [deserializePayload, mapNext_need, mapNext_ite, decodedState]

theorem deserializeReady_forget (inLen : Nat) (s : State) :
    deserializeReady inLen s.forget = mapNext State.forget (deserializeReady inLen s) := by
  have hext (h : Header) (cur : Nat) :
      deserializeExt h cur inLen s.forget = mapNext State.forget (deserializeExt h cur inLen s) := by
    simp [deserializeExt, mapNext_need, mapNext_ite, deserializePayload_forget]
  have hcsrc (h : Header) :
      deserializeCsrc h inLen s.forget = mapNext State.forget (deserializeCsrc h inLen s) := by
    simp [deserializeCsrc, mapNext_ite, hext]
  simp [deserializeReady, mapNext_need, mapNext_ite, hcsrc]

theorem execDeserialize_forget (p : Present) (s : State) :
    execDeserialize p s.forget = mapNext State.forget (execDeserialize p s) := by
  simp [execDeserialize, mapNext_need, mapNext_ite, deserializeReady_forget]

theorem handOut_forget {w : Nat} (here : Bool) (v : Option (BitVec w)) (s : State) :
    handOut here v s.forget = mapNext State.forget (handOut here v s) := by
  simp [handOut, mapNext_need, mapNext_ite]

theorem layOnWire_forget (off : Nat) (bytes : List Byte) (s : State) :
    layOnWire off bytes s.forget = mapNext State.forget (layOnWire off bytes s) := by
  unfold layOnWire
  rw [mapNext_ite]
  rfl

/-- Every instruction commutes with forgetting. -/
theorem exec_forget (i : Instr) (s : State) : exec i s.forget = mapNext State.forget (exec i s) := by
  cases i with
  | init p => simp [exec, execInit, mapNext_ite]
  | serialize p => exact serializeCommand_forget p s
  | sizeq => exact serializeCommand_forget _ s
  | deserialize p => exact execDeserialize_forget p s
  | reservedOp00 p => rfl
  | reservedHighBits w => rfl
  | rdBE32 a => exact handOut_forget _ _ s
  | wrBE32 v a => exact layOnWire_forget _ _ s
  | rdBE16 a => exact handOut_forget _ _ s
  | wrBE16 h a => exact layOnWire_forget _ _ s
  | fixed h => exact layOnWire_forget _ _ s
  | csrc ids => exact layOnWire_forget _ _ s
  | ext cc profile words => exact layOnWire_forget _ _ s
  | payload cc n p bytes => exact layOnWire_forget _ _ s

/-! ## Parked codecs -/

/-- The contents of a memory whose every value is replaced. -/
theorem Memory.read_mapValues {α β : Type} (f : α → β) (m : Memory α) (a : Nat) :
    Memory.read (m.map fun e => (e.1, f e.2)) a = (Memory.read m a).map f := by
  induction m with
  | nil => rfl
  | cons e m ih => simp only [List.map_cons, Memory.read, ih]; split <;> rfl

/-- Replacing every value goes through a write. -/
theorem Memory.mapValues_write {α β : Type} (f : α → β) (m : Memory α) (a : Nat) (v : α) :
    (Memory.write m a v).map (fun e => (e.1, f e.2)) = Memory.write (m.map fun e => (e.1, f e.2)) a (f v) := by
  induction m with
  | nil => rfl
  | cons e m ih =>
    simp only [List.map_cons, Memory.write]
    split
    · rfl
    · split
      · rfl
      · simp [ih]

/-- Replacing every value goes through the loss of one. -/
theorem Memory.mapValues_erase {α β : Type} (f : α → β) (m : Memory α) (a : Nat) :
    (Memory.erase m a).map (fun e => (e.1, f e.2)) = Memory.erase (m.map fun e => (e.1, f e.2)) a := by
  simp only [Memory.erase, List.filter_map]; rfl

/-! ## Host actions -/

/-- A host's read that commutes with forgetting where there is a value does so where the value is free. -/
theorem orFree_forget {k : Nat → State → Out} (hk : ∀ v s, k v s.forget = mapNext State.forget (k v s))
    (o : Option Nat) (w : Nat) (s : State) : orFree o w k s.forget = mapNext State.forget (orFree o w k s) := by
  cases o with
  | none => exact hk (s.freeValue w) s.withDraw
  | some v => exact hk v s

theorem receive_forget (v : Nat) (s : State) : receive v s.forget = mapNext State.forget (receive v s) := rfl

theorem hostLoadBytes_forget (sp : ByteSpace) (off : Nat) (bytes : List Byte) (s : State) :
    hostLoadBytes sp off bytes s.forget = mapNext State.forget (hostLoadBytes sp off bytes s) := by
  unfold hostLoadBytes
  rw [mapNext_ite, State.forget_byteSpaceSize]
  cases sp <;> rfl

theorem hostLoadWords_forget (sp : WordSpace) (off : Nat) (words : List Word) (s : State) :
    hostLoadWords sp off words s.forget = mapNext State.forget (hostLoadWords sp off words s) := by
  unfold hostLoadWords
  rw [mapNext_ite]
  cases sp <;> rfl

theorem hostReadView_forget (v : View) (i : Nat) (s : State) :
    hostReadView v i s.forget = mapNext State.forget (hostReadView v i s) := by
  have element (off : Nat) (s : State) :
      hostReadElement v off i s.forget = mapNext State.forget (hostReadElement v off i s) := by
    unfold hostReadElement
    rw [mapNext_ite]
    refine ite_congr rfl (fun _ => ?_) fun _ => rfl
    cases v <;> simp [mapNext_need, orFree_forget receive_forget, receive_forget]
  simp only [hostReadView, State.forget_codec, Codec.forget_pkt, Pkt.forget_viewCount, State.forget_params]
  refine orFree_forget (fun n s => ?_) _ _ s
  simp [mapNext_ite, orFree_forget element]

theorem hostSelect_forget (k : Nat) (s : State) :
    hostSelect k s.forget = mapNext State.forget (hostSelect k s) := by
  unfold hostSelect
  rw [mapNext_ite, State.forget_parked, Memory.read_mapValues]
  refine ite_congr rfl (fun _ => rfl) fun _ => ?_
  cases s.parked.read k with
  | none => rfl
  | some c => simp [State.forget, Memory.mapValues_write, Memory.mapValues_erase]

theorem hostReset_forget (s : State) : hostReset s.forget = mapNext State.forget (hostReset s) := by
  simp [hostReset, mapNext_ite, State.forget, Function.comp_def]

theorem hostBeginInit_forget (w : Byte) (s : State) :
    hostBeginInit w s.forget = mapNext State.forget (hostBeginInit w s) := by
  unfold hostBeginInit
  split <;> rfl

/-- What an action comes to, with every state in it replaced: the state an instruction runs in, or the next state. -/
def Fetched.mapState (f : State → State) : Fetched → Fetched
  | .run i s => .run i (f s)
  | .ended o => .ended (mapNext f o)

theorem fetchDecoded_forget (port : Port) (bytes : List Byte) (s : State) :
    fetchDecoded port bytes s.forget = (fetchDecoded port bytes s).mapState State.forget := by
  unfold fetchDecoded
  rw [State.forget_params]
  split <;> rfl

theorem hostWrite_forget (n v : Nat) (s : State) :
    hostWrite n v s.forget = (hostWrite n v s).mapState State.forget := by
  unfold hostWrite
  rw [State.forget_params]
  split
  · rfl
  · next r _ =>
    split
    · rfl
    · split
      · exact fetchDecoded_forget _ _ s
      · split
        · simp [Fetched.mapState]
        · rfl

theorem hostImage_forget (port : Port) (bytes : List Byte) (s : State) :
    hostImage port bytes s.forget = (hostImage port bytes s).mapState State.forget := by
  unfold hostImage
  split
  · rfl
  · exact fetchDecoded_forget port bytes s

theorem hostEndInit_forget (s : State) : hostEndInit s.forget = (hostEndInit s).mapState State.forget := by
  unfold hostEndInit
  simp only [State.forget_running, State.forget_active]
  split <;> rfl

theorem unlessBusy_forget {f g : Fetched} (s : State) (h : f = g.mapState State.forget) :
    unlessBusy s.forget f = (unlessBusy s g).mapState State.forget := by
  unfold unlessBusy
  simp only [State.forget_running, State.forget_active]
  split
  · rfl
  · exact h

/-- Every host action commutes with forgetting. -/
theorem hostAction_forget (a : HostAction) (s : State) :
    hostAction a s.forget = (hostAction a s).mapState State.forget := by
  cases a with
  | wr n v => exact unlessBusy_forget s (hostWrite_forget n v s)
  | rd n =>
    refine unlessBusy_forget s (congrArg Fetched.ended ?_)
    unfold hostRead
    split
    · rfl
    · simp [mapNext_ite, orFree_forget receive_forget]
  | ldBytes sp off bytes => exact unlessBusy_forget s (congrArg Fetched.ended (hostLoadBytes_forget sp off bytes s))
  | ldWords sp off words => exact unlessBusy_forget s (congrArg Fetched.ended (hostLoadWords_forget sp off words s))
  | rdByte sp off =>
    refine unlessBusy_forget s (congrArg Fetched.ended ?_)
    simp [hostReadByte, mapNext_ite, orFree_forget receive_forget]
  | rdWord sp off =>
    refine unlessBusy_forget s (congrArg Fetched.ended ?_)
    simp [hostReadWord, mapNext_ite, orFree_forget receive_forget]
  | rdView v i => exact unlessBusy_forget s (congrArg Fetched.ended (hostReadView_forget v i s))
  | image port bytes => exact unlessBusy_forget s (hostImage_forget port bytes s)
  | repoint size cells =>
    refine unlessBusy_forget s (congrArg Fetched.ended ?_)
    simp only [hostRepoint, mapNext_ite]; rfl
  | select k => exact congrArg Fetched.ended (hostSelect_forget k s)
  | beginInit w => exact unlessBusy_forget s (congrArg Fetched.ended (hostBeginInit_forget w s))
  | endInit => exact hostEndInit_forget s
  | reset => exact congrArg Fetched.ended (hostReset_forget s)

theorem fetch_forget (s : State) : fetch s.forget = (fetch s).mapState State.forget := by
  unfold fetch
  rw [State.forget_host]
  split
  · rfl
  · next a rest _ => exact hostAction_forget a (s.withHost rest)

/-- The step commutes with forgetting. -/
theorem step_forget (s : State) : step s.forget = mapNext State.forget (step s) := by
  unfold step
  rw [fetch_forget]
  cases fetch s with
  | run i t => exact exec_forget i t
  | ended o => rfl

/-- Settles O55: what a step answers, seen without the values no one wrote, is what it answers from the state seen without them. -/
theorem unwrittenValuesNeverMatter : Obligations.UnwrittenValuesNeverMatter := by
  intro s t h
  calc mapNext State.forget (step s)
      = step s.forget := (step_forget s).symm
    _ = step t.forget := by rw [h]
    _ = mapNext State.forget (step t) := step_forget t

end Sys2Proof.Machine
end

section
/-! SUPPORT. The host's registers, the reset values, and what a step does with the instruction it fetches (10_state.md R10 to R14, R33, R34; 70_reset_and_hazards.md R189). -/

namespace Sys2Proof.Machine

/-! ## Reset -/

/-- An codec right after reset holds nothing, whatever the size of its buffer (R34). -/
theorem holdsNothing_reset (size : Nat) : HoldsNothing (Codec.reset size) := by
  simp [HoldsNothing, Codec.reset, Pkt.reset, Memory.read]

/-- Settles O1: the active codec and every parked one are as reset. -/
theorem resetHoldsNothing : Obligations.ResetHoldsNothing := by
  intro p
  refine ⟨rfl, holdsNothing_reset p.maxLen, fun k c hc => ?_⟩
  obtain ⟨j, -, hj⟩ := List.mem_map.1 hc
  cases hj
  exact holdsNothing_reset p.maxLen

/-! ## The instruction a step runs -/

/-- Settles O42: each of the three actions fetches its instruction, in the state with the action taken off the queue. -/
theorem stepRunsTheDecodedInstruction : Obligations.StepRunsTheDecodedInstruction := by
  intro s rest
  refine ⟨fun v hv hhost hfree => step_of_run hhost ?_,
    fun port bytes i hhost hport hfree hdec => step_of_run hhost ?_,
    fun w hhost hrun => step_of_run hhost ?_⟩
  · exact unlessBusy_eq_run.2 ⟨hfree, hostWrite_eq_run.2 ⟨rfl, hv, rfl, rfl⟩⟩
  · exact unlessBusy_eq_run.2 ⟨hfree, hostImage_eq_run.2 ⟨hport, hdec, rfl⟩⟩
  · exact hostEndInit_eq_run.2 ⟨w, hrun, rfl, rfl⟩

/-! ## Who writes `CTX.INIT` -/

/-- The image of a section is never an INIT: no section is a command (30_encoding.md R60 to R64). -/
theorem decode_ne_init {lenW : Nat} {port : Port} {bytes : List Byte} (hport : port ≠ .cmd) (p : Present) :
    decode lenW port bytes ≠ .ok (.init p) := by
  intro h
  cases port with
  | cmd => exact hport rfl
  | fixed =>
    simp only [decode, decodeFixed] at h
    split at h
    · split at h <;> cases h
    · cases h
  | csrc =>
    simp only [decode, decodeCsrc] at h
    split at h
    · cases h
    · split at h <;> cases h
  | ext cc =>
    simp only [decode, decodeExt] at h
    split at h
    · split at h
      · cases h
      · split at h <;> cases h
    · cases h
  | payload cc n q =>
    simp only [decode] at h
    split at h
    · cases h
    · split at h <;> cases h

/-- The stages of SERIALIZE leave `CTX.INIT` as it is. -/
theorem serializeCommand_ctxInit {p : Present} {s t : State} (h : serializeCommand p s = .next t) :
    t.ctxInit = s.ctxInit := by
  have ready {b : Bool} (h : serializeReady b s = .next t) : t.ctxInit = s.ctxInit := by
    obtain ⟨-, req, -, -, ⟨-, rfl⟩ | ⟨-, cap, -, ⟨-, rfl⟩ | ⟨-, h⟩⟩⟩ := serializeReady_eq_next.1 h
    · rfl
    · rfl
    · obtain ⟨len, pad, -, -, -, -, ⟨-, -, last, -, -, rfl⟩ | ⟨-, pkt, -, rfl⟩⟩ := serializeChecked_eq_next.1 h <;> rfl
  obtain ⟨-, ⟨-, rfl⟩ | ⟨-, -, -, -, -, rfl⟩ | ⟨-, -, -, -, -, h⟩ | ⟨-, -, -, -, h⟩⟩ := serializeCommand_eq_next.1 h
  · rfl
  · rfl
  · exact ready h
  · exact ready h

/-- The stages of DESERIALIZE leave `CTX.INIT` as it is. -/
theorem execDeserialize_ctxInit {p : Present} {s t : State} (h : execDeserialize p s = .next t) :
    t.ctxInit = s.ctxInit := by
  have payload {h : Header} {profile extLen : Half} {extOff n : Nat}
      (hx : deserializePayload h profile extLen extOff n s = .next t) : t.ctxInit = s.ctxInit := by
    obtain ⟨payOff, -, ⟨-, rfl⟩ | ⟨-, -, pad, -, ⟨-, rfl⟩ | ⟨-, rfl⟩⟩⟩ := deserializePayload_eq_next.1 hx <;> rfl
  obtain ⟨-, ⟨-, rfl⟩ | ⟨-, -, -, n, -, ⟨-, rfl⟩ | ⟨-, h⟩⟩⟩ := execDeserialize_eq_next.1 h
  · rfl
  · rfl
  obtain ⟨-, -, b0, -, ⟨-, rfl⟩ | ⟨-, hdr, -, h⟩⟩ := deserializeReady_eq_next.1 h
  · rfl
  obtain ⟨-, -, rfl⟩ | ⟨-, h⟩ := deserializeCsrc_eq_next.1 h
  · rfl
  obtain ⟨-, h⟩ | ⟨-, ⟨-, rfl⟩ | ⟨-, profile, extLen, -, -, ⟨-, rfl⟩ | ⟨-, h⟩⟩⟩ := deserializeExt_eq_next.1 h
  · exact payload h
  · rfl
  · rfl
  · exact payload h

/-- Of all instructions only an INIT with the context present changes `CTX.INIT`, and it sets it and ends with OK. -/
theorem exec_ctxInit {i : Instr} {s t : State} (h : exec i s = .next t) :
    t.ctxInit = s.ctxInit ∨ ∃ p, i = .init p ∧ p.c = true ∧ t = s.setInit.done := by
  have lay {off : Nat} {bytes : List Byte} (h : layOnWire off bytes s = .next t) : t.ctxInit = s.ctxInit := by
    obtain ⟨-, rfl⟩ := layOnWire_eq_next.1 h; rfl
  have hand {w : Nat} {here : Bool} {o : Option (BitVec w)} (h : handOut here o s = .next t) :
      t.ctxInit = s.ctxInit := by
    obtain ⟨-, v, -, rfl⟩ := handOut_eq_next.1 h; rfl
  cases i with
  | init p =>
    have ht := next_eq_next.1 ((execInit_next p s).symm.trans h)
    cases hc : p.c with
    | false => rw [hc] at ht; exact .inl (by rw [ht]; rfl)
    | true => rw [hc] at ht; exact .inr ⟨p, rfl, hc, ht⟩
  | serialize p => exact .inl (serializeCommand_ctxInit h)
  | sizeq => exact .inl (serializeCommand_ctxInit h)
  | deserialize p => exact .inl (execDeserialize_ctxInit h)
  | reservedOp00 p => cases h
  | reservedHighBits w => cases h
  | rdBE32 a => exact .inl (hand h)
  | wrBE32 v a => exact .inl (lay h)
  | rdBE16 a => exact .inl (hand h)
  | wrBE16 v a => exact .inl (lay h)
  | fixed h' => exact .inl (lay h)
  | csrc ids => exact .inl (lay h)
  | ext cc profile words => exact .inl (lay h)
  | payload cc n p bytes => exact .inl (lay h)

/-- The three ways the host has an instruction run: a byte written to `CMD`, the image of a section, the end of an INIT. -/
theorem hostAction_run {a : HostAction} {i : Instr} {s u : State} (h : hostAction a s = .run i u) :
    (∃ w : Byte, a = .wr 0 w.toNat ∧ i = decodeCmd w ∧ u = s)
    ∨ (∃ port bytes, a = .image port bytes ∧ port ≠ .cmd ∧ decode s.params.lenW port bytes = .ok i ∧ u = s)
    ∨ (∃ w, a = .endInit ∧ s.running.read s.active = some w ∧ i = decodeCmd w
        ∧ u = s.withRunning (s.running.erase s.active)) := by
  cases a with
  | wr n v =>
    obtain ⟨-, h⟩ := unlessBusy_eq_run.1 h
    obtain ⟨rfl, hv, hi, hu⟩ := hostWrite_eq_run.1 h
    have hw : (BitVec.ofNat 8 v).toNat = v := (BitVec.toNat_ofNat v 8).trans (Nat.mod_eq_of_lt hv)
    exact .inl ⟨BitVec.ofNat 8 v, by rw [hw], hi, hu⟩
  | image port bytes =>
    obtain ⟨-, h⟩ := unlessBusy_eq_run.1 h
    exact .inr (.inl ⟨port, bytes, rfl, hostImage_eq_run.1 h⟩)
  | endInit =>
    obtain ⟨w, hw, hi, hu⟩ := hostEndInit_eq_run.1 h
    exact .inr (.inr ⟨w, rfl, hw, hi, hu⟩)
  | select | reset => cases h
  | rd | ldBytes | ldWords | rdByte | rdWord | rdView | repoint | beginInit => cases (unlessBusy_eq_run.1 h).2

/-- What an action does by itself leaves `CTX.INIT` as it is, or is the reset and clears it (R12). -/
theorem hostAction_ctxInit {a : HostAction} {s t : State} (h : hostAction a s = .ended (.next t)) :
    t.ctxInit = s.ctxInit ∨ a = .reset ∧ t.ctxInit = false := by
  have own {o : Out} (h : unlessBusy s (.ended o) = .ended (.next t)) : o = .next t := by
    injection (unlessBusy_eq_next.1 h).2
  cases a with
  | wr n v =>
    obtain ⟨r, -, -, -, rfl⟩ := hostWrite_eq_next.1 (unlessBusy_eq_next.1 h).2
    exact .inl rfl
  | rd n =>
    obtain ⟨r, -, -, ⟨v, -, rfl⟩ | ⟨-, rfl⟩⟩ := hostRead_eq_next.1 (own h) <;> exact .inl rfl
  | ldBytes sp off bytes =>
    obtain ⟨-, rfl⟩ := hostLoadBytes_eq_next.1 (own h)
    exact .inl rfl
  | ldWords sp off words =>
    obtain ⟨-, rfl⟩ := hostLoadWords_eq_next.1 (own h)
    exact .inl rfl
  | rdByte sp off =>
    obtain ⟨-, ⟨b, -, rfl⟩ | ⟨-, rfl⟩⟩ := hostReadByte_eq_next.1 (own h) <;> exact .inl rfl
  | rdWord sp off =>
    obtain ⟨-, ⟨w, -, rfl⟩ | ⟨-, rfl⟩⟩ := hostReadWord_eq_next.1 (own h) <;> exact .inl rfl
  | rdView v i => exact .inl (by rw [hostReadView_frame (own h)])
  | image port bytes => exact absurd (unlessBusy_eq_next.1 h).2 hostImage_ne_next
  | repoint size cells =>
    obtain ⟨-, -, rfl⟩ := hostRepoint_eq_next.1 (own h)
    exact .inl rfl
  | select k =>
    injection h with h
    obtain ⟨-, rfl⟩ | ⟨-, c, -, rfl⟩ := hostSelect_eq_next.1 h <;> exact .inl rfl
  | beginInit w =>
    obtain ⟨-, rfl⟩ := hostBeginInit_eq_next.1 (own h)
    exact .inl rfl
  | endInit => exact absurd h hostEndInit_ne_next
  | reset =>
    injection h with h
    obtain ⟨-, rfl⟩ := hostReset_eq_next.1 h
    exact .inr ⟨rfl, rfl⟩

/-- Settles O51: a step that changes `CTX.INIT` performs the reset, or runs an INIT, whose word the host wrote to `CMD` or which ends. -/
theorem onlyInitAndResetWriteCtx : Obligations.OnlyInitAndResetWriteCtx := by
  intro s t h hne
  obtain ⟨-, rfl⟩ | ⟨a, rest, hhost, ⟨i, u, hrun, hx⟩ | hact⟩ := step_eq_next.1 h
  · exact absurd rfl hne
  · have hu : u.ctxInit = s.ctxInit := by
      obtain ⟨w, -, -, rfl⟩ | ⟨port, bytes, -, -, -, rfl⟩ | ⟨w, -, -, -, rfl⟩ := hostAction_run hrun <;> rfl
    obtain heq | ⟨p, rfl, hc, rfl⟩ := exec_ctxInit hx
    · exact absurd (heq.trans hu) hne
    refine .inl ⟨rfl, rfl, ?_⟩
    obtain ⟨w, rfl, hw, -⟩ | ⟨port, bytes, -, hport, hdec, -⟩ | ⟨w, rfl, hw, hi, -⟩ := hostAction_run hrun
    · exact ⟨w, p, hw.symm, hc, .inl ⟨rest, hhost⟩⟩
    · exact absurd hdec (decode_ne_init hport p)
    · exact ⟨w, p, hi.symm, hc, .inr ⟨rest, hhost, hw⟩⟩
  · obtain heq | ⟨rfl, hclear⟩ := hostAction_ctxInit hact
    · exact absurd heq hne
    · exact .inr ⟨hclear, rest, hhost⟩

/-! ## The host's registers -/

/-- On an codec that is not inside a command, a host read of a register is the step's outcome. -/
theorem step_rd {s : State} {n : Nat} {rest : List HostAction} (hfree : s.running.read s.active = none)
    (hhost : s.host = .rd n :: rest) : step s = hostRead n (s.withHost rest) :=
  step_of_ended hhost (unlessBusy_free hfree)

/-- On an codec that is not inside a command, a host write that issues no command is the step's outcome. -/
theorem step_wr {s : State} {n v : Nat} {rest : List HostAction} {o : Out}
    (hfree : s.running.read s.active = none) (hhost : s.host = .wr n v :: rest)
    (hw : hostWrite n v (s.withHost rest) = .ended o) : step s = o :=
  step_of_ended hhost ((unlessBusy_free hfree).trans hw)

/-- What a register holds has nothing to do with what the host asks for next. -/
@[simp] theorem State.readReg_withHost (s : State) (q : List HostAction) (r : RegName) :
    (s.withHost q).readReg r = s.readReg r := by cases r <;> rfl

/-- A host read hands out the value the register holds; `CMD` holds none (R11). -/
theorem step_rd_held {s : State} {n w : Nat} {r : RegName} {rest : List HostAction}
    (hfree : s.running.read s.active = none) (hhost : s.host = .rd n :: rest)
    (hr : RegName.ofNumber n = some r) (hw : s.readReg r = some w) :
    step s = .next { s with host := rest, readData := w } := by
  have hcmd : r ≠ .cmd := by rintro rfl; cases hw
  rw [step_rd hfree hhost]
  exact hostRead_eq_next.2 ⟨r, hr, hcmd, .inl ⟨w, by simpa using hw, rfl⟩⟩

/-- A host read of a register nothing has written hands out a free value of its width (log 5). -/
theorem step_rd_free {s : State} {n : Nat} {r : RegName} {rest : List HostAction}
    (hfree : s.running.read s.active = none) (hhost : s.host = .rd n :: rest)
    (hr : RegName.ofNumber n = some r) (hcmd : r ≠ .cmd) (hw : s.readReg r = none) :
    step s = .next { s with
      host := rest, readData := s.freeValue (r.width s.params.lenW), draws := s.draws + 1 } := by
  rw [step_rd hfree hhost]
  exact hostRead_eq_next.2 ⟨r, hr, hcmd, .inr ⟨by simpa using hw, rfl⟩⟩

/-- A host write makes a register that the host can write hold the value. -/
theorem step_wr_held {s : State} {n v : Nat} {r : RegName} {rest : List HostAction}
    (hfree : s.running.read s.active = none) (hhost : s.host = .wr n v :: rest)
    (hr : RegName.ofNumber n = some r) (hwr : r.hostWritable = true) (hv : v < 2 ^ r.width s.params.lenW) :
    step s = .next ((s.withHost rest).withCodec (s.codec.writeReg r v)) :=
  step_wr hfree hhost (hostWrite_eq_next.2 ⟨r, hr, hwr, hv, rfl⟩)

/-- The numbers R10 leaves out have no register. -/
theorem RegName.ofNumber_unassigned {n : Nat} (h : 4 < n ∧ n < 8 ∨ 21 < n) : RegName.ofNumber n = none := by
  unfold RegName.ofNumber
  split <;> simp at h ⊢

/-- Settles O43, clause by clause: what a write stores, what a read hands out, and where each stops. -/
theorem hostRegisterAccess : Obligations.HostRegisterAccess := by
  intro s n v rest hfree
  refine ⟨fun r hr hwr hv hhost => ?_, fun r w hr hw hhost => step_rd_held hfree hhost hr hw,
    fun r hr hcmd hw hhost => ⟨_, s.freeValue_lt _, step_rd_free hfree hhost hr hcmd hw⟩,
    fun k hk hhost => ?_, fun hhost => ?_, fun hn hhost => ?_, fun hhost => ?_, fun hn hhost => ?_⟩
  · have hheld : ((s.withHost rest).withCodec (s.codec.writeReg r v)).readReg r = some v :=
      State.readReg_writeReg (s := s.withHost rest) hwr hv
    refine ⟨_, step_wr_held hfree hhost hr hwr hv, hheld, fun r' hne => ?_, ?_, fun more hmore => ?_⟩
    · exact (State.readReg_writeReg_other (s := s.withHost rest) hne v).trans (s.readReg_withHost rest r')
    · exact congrArg (s.withHost rest).withCodec (s.codec.writeReg_frame r v)
    · exact step_rd_held hfree hmore hr hheld
  · have hcode : s.readReg .result = some k.code.toNat := by simp [State.readReg, hk]
    rw [step_rd_held hfree hhost rfl hcode]
    cases k <;> rfl
  · rw [step_rd_held (r := .ctx) hfree hhost rfl rfl]
    cases s.ctxInit <;> rfl
  · refine step_wr hfree hhost ?_
    obtain ⟨rfl, hv⟩ | ⟨rfl, hv⟩ := hn
    · simp [hostWrite, RegName.ofNumber, RegName.width, RegName.hostWritable, hv]
    · simp [hostWrite, RegName.ofNumber, RegName.width, RegName.hostWritable, hv]
  · rw [step_rd hfree hhost]; rfl
  · have hnone := RegName.ofNumber_unassigned hn
    obtain hhost | hhost := hhost
    · exact step_wr hfree hhost (by simp [hostWrite, hnone])
    · rw [step_rd hfree hhost]; simp [hostRead, hnone]

end Sys2Proof.Machine
end

section
/-! SUPPORT. How far a command comes before it reads a place that holds no value (10_state.md R33): what each stage answers once its checks are passed, and that a missing operand stops it. -/

namespace Sys2Proof.Machine

/-! ## Missing operands -/

/-- The required length is missing where a register it is computed from is (42_serialize.md R112). -/
theorem Pkt.requiredLength_eq_none {p : Pkt} (h : LengthUnwritten p) : p.requiredLength = none := by
  refine Option.eq_none_iff_forall_ne_some.2 fun req hreq => ?_
  obtain ⟨n, cc, len, hn, hcc, hlen, -⟩ := Pkt.requiredLength_eq_some.1 hreq
  obtain ⟨hx, -⟩ | ⟨hx, n, hext, -⟩ := Pkt.extOperand_eq_some.1 hn
  · simp [LengthUnwritten, hx, hcc, hlen] at h
  · simp [LengthUnwritten, hx, hcc, hlen, hext] at h

/-- `rdBE16` needs both its cells (40_word_codec.md R92). -/
theorem Memory.readBE16_eq_none {m : Memory Byte} {a b : Nat} (hlo : a ≤ b) (hhi : b < a + 2)
    (h : m.read b = none) : m.readBE16 a = none := by
  refine Option.eq_none_iff_forall_ne_some.2 fun v hv => ?_
  obtain ⟨b0, b1, h0, h1, -⟩ := Memory.readBE16_eq_some.1 hv
  obtain rfl | rfl : b = a ∨ b = a + 1 := by omega
  all_goals simp_all

/-- `rdBE32` needs all four cells (R90). -/
theorem Memory.readBE32_eq_none {m : Memory Byte} {a b : Nat} (hlo : a ≤ b) (hhi : b < a + 4)
    (h : m.read b = none) : m.readBE32 a = none := by
  refine Option.eq_none_iff_forall_ne_some.2 fun v hv => ?_
  obtain ⟨b0, b1, b2, b3, h0, h1, h2, h3, -⟩ := Memory.readBE32_eq_some.1 hv
  obtain rfl | rfl | rfl | rfl : b = a ∨ b = a + 1 ∨ b = a + 2 ∨ b = a + 3 := by omega
  all_goals simp_all

/-- The fixed header needs all twelve cells (43_deserialize.md R134). -/
theorem readHeader_eq_none {m : Memory Byte} {a : Nat} (ha : a < 12) (h : m.read a = none) : readHeader m = none := by
  refine Option.eq_none_iff_forall_ne_some.2 fun hdr hhdr => ?_
  obtain ⟨b0, b1, seq, ts, ssrc, h0, h1, hseq, hts, hssrc, -⟩ := readHeader_eq_some.1 hhdr
  obtain rfl | rfl | hr | hr | hr : a = 0 ∨ a = 1 ∨ (2 ≤ a ∧ a < 4) ∨ (4 ≤ a ∧ a < 8) ∨ (8 ≤ a ∧ a < 12) := by omega
  · rw [h] at h0; cases h0
  · rw [h] at h1; cases h1
  · rw [Memory.readBE16_eq_none hr.1 hr.2 h] at hseq; cases hseq
  · rw [Memory.readBE32_eq_none hr.1 hr.2 h] at hts; cases hts
  · rw [Memory.readBE32_eq_none hr.1 hr.2 h] at hssrc; cases hssrc

/-! ## The fixed header as numbers -/

/-- The version of a byte is 2 when its upper two bits are (30_encoding.md R60). -/
theorem versionOf_eq_rtpVersion {b : Byte} : versionOf b = rtpVersion ↔ b.toNat / 64 = 2 := by
  have hb := b.isLt
  have h2 : rtpVersion.toNat = 2 := rfl
  rw [← BitVec.toNat_inj, versionOf, BitVec.extractLsb'_toNat, Nat.shiftRight_eq_div_pow, h2]
  omega

theorem byte0_toNat (h : Header) :
    h.byte0.toNat = 2 * 64 + bit h.p * 32 + bit h.x * 16 + h.cc.toNat := by
  obtain ⟨p, x, cc, m, pt, seq, ts, ssrc⟩ := h
  simp only [Header.byte0, rtpVersion]
  revert p x cc
  decide

theorem byte1_toNat (h : Header) : h.byte1.toNat = bit h.m * 128 + h.pt.toNat := by
  obtain ⟨p, x, cc, m, pt, seq, ts, ssrc⟩ := h
  simp only [Header.byte1]
  revert m pt
  decide

/-- Cells that hold a header of version 2 are read as that header. -/
theorem readHeader_of_wireHolds {m : Memory Byte} {h : Header} (hm : WireHolds m h) :
    m.read 0 = some h.byte0 ∧ readHeader m = some h := by
  obtain ⟨b0, b1, h0, h1, e0, e1, hseq, hts, hssrc⟩ := hm
  obtain rfl : b0 = h.byte0 := BitVec.eq_of_toNat_eq (e0.trans (byte0_toNat h).symm)
  obtain rfl : b1 = h.byte1 := BitVec.eq_of_toNat_eq (e1.trans (byte1_toNat h).symm)
  exact ⟨h0, readHeader_eq_some.2 ⟨_, _, _, _, _, h0, h1, hseq, hts, hssrc, h.ofFields_bytes.symm⟩⟩

/-! ## SERIALIZE, past its checks -/

/-- With every reference present SERIALIZE reads `CAP` first (42_serialize.md R110). -/
theorem serialize_reads_cap {s : State} (hrace : s.initRace = false) :
    exec (.serialize { c := true, k := true, b := true, l := true }) s
      = need s.codec.cap.read fun cap => if cap = 0 then .next (s.raise .badParam) else serializeReady true s := by
  simp [exec, execSerialize, serializeCommand, hrace]

/-- With the context initialised the required length comes next (R112). -/
theorem serializeReady_unwritten {b : Bool} {s : State} (hinit : s.ctxInit = true) (h : LengthUnwritten s.codec.pkt) :
    serializeReady b s = .refused .unwrittenRead := by
  rw [serializeReady, if_pos hinit, Pkt.requiredLength_eq_none h, need_none]

/-- Past the capacity check and the bounds SERIALIZE reads `PKT.P`, the last payload cell of a padded packet, and the operands of the emission (R116, R121). -/
theorem serialize_open {i : Instr} {s : State} {req cap len : Nat} (h : SerializeOpen i s req cap len) :
    exec i s = need s.codec.pkt.p.read fun p =>
      if p ∧ 0 < len then
        need (s.codec.txpay.read (len - 1)) fun last =>
          if padConsistent last len then serializeEmit s else .next (s.raise .malformedPacket)
      else serializeEmit s := by
  obtain ⟨⟨rfl, hinit, hcap, h0, hreq, hmax⟩, hroom, hwire, hlen, htx⟩ := h
  rw [serialize_reads_cap (initRace_of_init hinit), hcap, need_some, if_neg h0,
    serializeReady, if_pos hinit, hreq, need_some, if_neg (by omega), if_pos rfl, hcap, need_some, if_neg (by omega),
    serializeChecked, hlen, need_some, if_neg (by omega)]

/-- A packet whose padding is consistent comes to its emission. -/
theorem serialize_open_consistent {i : Instr} {s : State} {req cap len : Nat} (h : SerializeOpen i s req cap len)
    (hpad : PaddingConsistent s len) : exec i s = serializeEmit s := by
  obtain ⟨p, hp, hlast⟩ := hpad
  rw [serialize_open h, hp, need_some]
  split
  · next hc =>
    obtain ⟨last, hread, hlo, hhi⟩ := hlast hc.1 hc.2
    rw [hread, need_some, if_pos (by simp [padConsistent, hlo, hhi])]
  · rfl

/-! ## DESERIALIZE, past its checks -/

/-- Past its checks DESERIALIZE reads byte 0 of `WIRE`, and of a version 2 frame the fixed header (43_deserialize.md R133, R134). -/
theorem deserialize_past {i : Instr} {s : State} {n : Nat} (h : DeserializePast i s n) :
    exec i s = need (s.codec.wire.read 0) fun b0 =>
      if versionOf b0 = rtpVersion then need (readHeader s.codec.wire) fun h => deserializeCsrc h n s
      else .next (s.raise .wrongVersion) := by
  obtain ⟨⟨p, rfl, hc, hb, hk⟩, hn, hmin, hinit, hwire⟩ := h
  simp only [exec, execDeserialize]
  rw [if_neg (by simp [initRace_of_init hinit]), if_pos ⟨hc, hb, hk⟩, hn, need_some, if_neg (by simpa using hmin),
    deserializeReady, if_pos hinit, if_neg (by omega)]

/-- With a header on `WIRE` and room for its contributing sources DESERIALIZE comes to the extension (R135). -/
theorem deserialize_holds {i : Instr} {s : State} {n : Nat} {h : Header} (hpast : DeserializePast i s n)
    (hm : WireHolds s.codec.wire h) (hroom : 12 + 4 * h.cc.toNat ≤ n) :
    exec i s = deserializeExt h (12 + 4 * h.cc.toNat) n s := by
  obtain ⟨h0, hh⟩ := readHeader_of_wireHolds hm
  rw [deserialize_past hpast, h0, need_some, if_pos (versionOf_byte0 h), hh, need_some, deserializeCsrc,
    extStart_eq, Config.fixedHdr, if_neg (by omega)]

/-- Where the declared extension ends inside the frame, DESERIALIZE comes to the payload region (R136, R137). -/
theorem deserialize_declared {i : Instr} {s : State} {n extOff : Nat} {h : Header} {profile extLen : Half}
    (hpast : DeserializePast i s n) (hm : WireHolds s.codec.wire h)
    (hdecl : ExtDeclared s.codec.wire h profile extLen extOff) (hroom : extOff + 4 * extLen.toNat ≤ n) :
    exec i s = deserializePayload h profile extLen extOff n s := by
  unfold ExtDeclared at hdecl
  split at hdecl
  · next hx =>
    obtain ⟨hprofile, hlen, rfl⟩ := hdecl
    rw [deserialize_holds hpast hm (by omega), deserializeExt, if_pos hx, Config.extHdr, if_neg (by omega), hprofile,
      need_some, hlen, need_some, if_neg (by omega)]
  · next hx =>
    obtain ⟨rfl, rfl, rfl⟩ := hdecl
    rw [deserialize_holds hpast hm (by omega), deserializeExt, if_neg hx]

/-- An extension header that is not wholly written stops DESERIALIZE (R136). -/
theorem deserializeExt_unwritten {h : Header} {cur n a : Nat} {s : State} (hx : h.x = true) (hroom : cur + 4 ≤ n)
    (hlo : cur ≤ a) (hhi : a < cur + 4) (ha : s.codec.wire.read a = none) :
    deserializeExt h cur n s = .refused .unwrittenRead := by
  rw [deserializeExt, if_pos hx, Config.extHdr, if_neg (by omega)]
  obtain hlt | hge : a < cur + 2 ∨ cur + 2 ≤ a := by omega
  · rw [Memory.readBE16_eq_none hlo hlt ha, need_none]
  · rw [Memory.readBE16_eq_none (a := cur + 2) hge (by omega) ha]
    cases s.codec.wire.readBE16 cur <;> rfl

/-- A padded region whose last cell is not written stops DESERIALIZE (R139). -/
theorem deserializePayload_unwritten {h : Header} {profile extLen : Half} {extOff n : Nat} {s : State}
    (hp : h.p = true) (hroom : extOff + 4 * extLen.toNat < n) (ha : s.codec.wire.read (n - 1) = none) :
    deserializePayload h profile extLen extOff n s = .refused .unwrittenRead := by
  simp only [deserializePayload]
  rw [if_neg (by omega), if_pos hp, ha, need_none]

/-- Settles O47, one goal for each place where a command reads, and the sizing query that reads none of them. -/
theorem unwrittenReadsAreRefused : Obligations.UnwrittenReadsAreRefused := by
  intro s
  refine ⟨fun hrace hcap => ?cap, fun hinit hlen => ?requiredLength, fun i req cap len hopen hp => ?p,
    fun i req cap len hopen hp hpos hlast => ?lastPayloadCell, fun i req cap len hopen hpad ht => ?operands,
    fun hrace hin p hc hk hb => ?inLen, fun i n hpast h0 => ?byte0, fun i n b0 a hpast h0 hv ha hnone => ?header,
    fun i n h a hpast hm hx hroom hlo hhi hnone => ?extension,
    fun i n h profile extLen extOff hpast hm hdecl hp hroom hnone => ?padCount,
    fun req hinit hreq hmax _ _ _ _ _ => ?sizing⟩
  case cap => rw [serialize_reads_cap hrace, hcap, need_none]
  case requiredLength =>
    have hrace := initRace_of_init hinit
    refine ⟨?_, ?_, fun cap hcap h0 => ?_⟩
    · simp [exec, execSizeq, serializeCommand, hrace, serializeReady_unwritten hinit hlen]
    · simp [exec, execSerialize, serializeCommand, hrace, serializeReady_unwritten hinit hlen]
    · rw [serialize_reads_cap hrace, hcap, need_some, if_neg h0, serializeReady_unwritten hinit hlen]
  case p => rw [serialize_open hopen, hp, need_none]
  case lastPayloadCell => rw [serialize_open hopen, hp, need_some, if_pos ⟨rfl, hpos⟩, hlast, need_none]
  case operands => rw [serialize_open_consistent hopen hpad, serializeEmit, ht, need_none]
  case inLen => simp [exec, execDeserialize, hrace, hc, hk, hb, hin]
  case byte0 => rw [deserialize_past hpast, h0, need_none]
  case header =>
    rw [deserialize_past hpast, h0, need_some, if_pos (versionOf_eq_rtpVersion.2 hv), readHeader_eq_none ha hnone,
      need_none]
  case extension =>
    rw [deserialize_holds hpast hm (by omega), deserializeExt_unwritten hx hroom hlo hhi hnone]
  case padCount =>
    rw [deserialize_declared hpast hm hdecl hroom.le, deserializePayload_unwritten hp hroom hnone]
  case sizing =>
    exact serializeCommand_eq_next.2 ⟨initRace_of_init hinit, .inr (.inr (.inr ⟨rfl, rfl, rfl, rfl,
      serializeReady_eq_next.2 ⟨hinit, req, hreq, hmax, .inl ⟨rfl, rfl⟩⟩⟩))⟩

end Sys2Proof.Machine
end

section
/-! SUPPORT. The four memories as the host and the formats meet them: where an access stops because a cell does not exist, what a host load, a host read and a change of the buffer do (20_memory.md R40 to R43, R49; 70_reset_and_hazards.md R189). -/

namespace Sys2Proof.Machine

/-! ## Cells of `WIRE` that do not exist -/

/-- A reading primitive that has not all its cells faults, whatever they would hold. -/
theorem handOut_fault {w a n : Nat} {o : Option (BitVec w)} {s : State} (hn : n ≠ 0)
    (h : s.codec.wireSize < a + n) : handOut (s.codec.wireHas a n) o s = .fault .noSuchCell := by
  have : s.codec.wireHas a n = false := by
    rw [Bool.eq_false_iff, Ne, Codec.wireHas_iff]; omega
  simp [handOut, this]

/-- Settles O13: the readers by `handOut_fault`, the writers and the formats by `layOnWire_fault`; the lists that take no cells are the ones left out. -/
theorem cellsThatDoNotExistFault : Obligations.CellsThatDoNotExistFault := by
  intro s a v h
  refine ⟨fun hlt => ⟨?_, ?_⟩, fun hlt => ⟨?_, ?_⟩, fun hd hlt => ?_, fun ids hne hlt => ?_,
    fun cc pr ws hlt => ?_, fun cc n p bs hne hlt => ?_⟩
  · exact handOut_fault (by decide) hlt
  · exact layOnWire_fault (by simp) (by simpa using hlt)
  · exact handOut_fault (by decide) hlt
  · exact layOnWire_fault (by simp) (by simpa using hlt)
  · exact layOnWire_fault (by simp) (by simpa using hlt)
  · exact layOnWire_fault (by simpa using hne) (by simpa using hlt)
  · exact layOnWire_fault (by simp) (by rw [extBytes_length, extStart_eq]; omega)
  · exact layOnWire_fault (by simpa using hne) hlt

/-! ## Loads -/

/-- On a codec that is not inside a command, an action that issues no instruction has the step's outcome. -/
theorem step_of_free {s : State} {a : HostAction} {rest : List HostAction} {o : Out}
    (hfree : s.running.read s.active = none) (hhost : s.host = a :: rest)
    (ha : hostAction a (s.withHost rest) = unlessBusy (s.withHost rest) (.ended o)) : step s = o :=
  step_of_ended hhost (ha.trans (unlessBusy_free hfree))

@[simp] theorem State.byteSpaceSize_withHost (s : State) (q : List HostAction) (sp : ByteSpace) :
    (s.withHost q).byteSpaceSize sp = s.byteSpaceSize sp := by cases sp <;> rfl

/-- Of the byte spaces a load changes the one it names, by a run of writes. -/
theorem hostLoadBytes_bytesOf {sp : ByteSpace} {off : Nat} {bytes : List Byte} {s t : State}
    (h : hostLoadBytes sp off bytes s = .next t) (sp' : ByteSpace) : t.codec.bytesOf sp'
      = if sp' = sp then (s.codec.bytesOf sp').writeN off bytes else s.codec.bytesOf sp' := by
  obtain ⟨-, rfl⟩ := hostLoadBytes_eq_next.1 h
  cases sp <;> cases sp' <;> rfl

/-- Of the word spaces a load changes the one it names, by a run of writes. -/
theorem hostLoadWords_wordsIn {sp : WordSpace} {off : Nat} {words : List Word} {s t : State}
    (h : hostLoadWords sp off words s = .next t) (sp' : WordSpace) : t.codec.wordsIn sp'
      = if sp' = sp then (s.codec.wordsIn sp').writeN off words else s.codec.wordsIn sp' := by
  obtain ⟨-, rfl⟩ := hostLoadWords_eq_next.1 h
  cases sp <;> cases sp' <;> rfl

/-- Where of several memories one took a run of writes, each of its cells holds its value of the run, and every other cell of all of them what it held. -/
theorem Memory.cells_of_run {σ α : Type} [DecidableEq σ] {m m' : σ → Memory α} {sp : σ} {off : Nat} {vs : List α}
    (h : ∀ sp', m' sp' = if sp' = sp then (m sp').writeN off vs else m sp') :
    (∀ j, j < vs.length → (m' sp).read (off + j) = vs[j]?)
    ∧ ∀ sp' a, ¬ (sp' = sp ∧ off ≤ a ∧ a < off + vs.length) → (m' sp').read a = (m sp').read a := by
  refine ⟨fun j hj => ?_, fun sp' a hout => ?_⟩
  · rw [h, if_pos rfl, Memory.read_writeN_inside _ off vs j hj, List.getElem?_eq_getElem hj]
  · rw [h]
    split
    · next hsp => exact Memory.read_writeN_outside _ off vs a fun hin => hout ⟨hsp, hin⟩
    · rfl

/-- Settles O44: a load that fits writes a run of cells of the memory it names, and no other. -/
theorem hostLoadsTheOperandMemories : Obligations.HostLoadsTheOperandMemories := by
  intro s off rest hfree
  refine ⟨fun sp bytes hhost hfit => ?_, fun sp words hhost hfit => ?_⟩
  · have hload := (hostLoadBytes_eq_next (s := s.withHost rest)).2 ⟨.inr (by simpa using hfit), rfl⟩
    have hspaces := hostLoadBytes_bytesOf hload
    refine ⟨_, (step_of_free hfree hhost rfl).trans hload, ?_, Memory.cells_of_run hspaces⟩
    cases sp with
    | wire => exact .inl rfl
    | txpay => exact .inr rfl
  · have hload := (hostLoadWords_eq_next (s := s.withHost rest)).2 ⟨.inr hfit, rfl⟩
    have hspaces := hostLoadWords_wordsIn hload
    refine ⟨_, (step_of_free hfree hhost rfl).trans hload, ?_, Memory.cells_of_run hspaces⟩
    cases sp with
    | txcsrc => exact .inl rfl
    | txext => exact .inr rfl

/-! ## Reads of a memory -/

/-- All that a host read of a byte comes to: the byte the cell holds, a free one, or a fault. -/
theorem step_rdByte_cases {s : State} {sp : ByteSpace} {off : Nat} {rest : List HostAction}
    (hfree : s.running.read s.active = none) (hhost : s.host = .rdByte sp off :: rest) :
    (∀ b, off < s.byteSpaceSize sp → (s.codec.bytesOf sp).read off = some b →
        step s = .next { s with host := rest, readData := b.toNat })
    ∧ (off < s.byteSpaceSize sp → (s.codec.bytesOf sp).read off = none →
        ∃ w, w < 2 ^ 8 ∧ step s = .next { s with host := rest, readData := w, draws := s.draws + 1 })
    ∧ (s.byteSpaceSize sp ≤ off → step s = .fault .noSuchCell) := by
  rw [step_of_free hfree hhost rfl]
  refine ⟨fun b hin hb => ?held, fun hin hnone => ⟨_, s.freeValue_lt 8, ?free⟩, fun hout => ?missing⟩
  case held => exact hostReadByte_eq_next.2 ⟨by simpa using hin, .inl ⟨b, hb, rfl⟩⟩
  case free => exact hostReadByte_eq_next.2 ⟨by simpa using hin, .inr ⟨hnone, rfl⟩⟩
  case missing => rw [hostReadByte, State.byteSpaceSize_withHost, if_neg (by omega)]

/-- All that a host read of a word comes to: the word the cell holds, a free one, or a fault. -/
theorem step_rdWord_cases {s : State} {sp : WordSpace} {off : Nat} {rest : List HostAction}
    (hfree : s.running.read s.active = none) (hhost : s.host = .rdWord sp off :: rest) :
    (∀ v, off < sp.size → (s.codec.wordsIn sp).read off = some v →
        step s = .next { s with host := rest, readData := v.toNat })
    ∧ (off < sp.size → (s.codec.wordsIn sp).read off = none →
        ∃ w, w < 2 ^ 32 ∧ step s = .next { s with host := rest, readData := w, draws := s.draws + 1 })
    ∧ (sp.size ≤ off → step s = .fault .noSuchCell) := by
  rw [step_of_free hfree hhost rfl]
  refine ⟨fun v hin hv => ?held, fun hin hnone => ⟨_, s.freeValue_lt 32, ?free⟩, fun hout => ?missing⟩
  case held => exact hostReadWord_eq_next.2 ⟨hin, .inl ⟨v, hv, rfl⟩⟩
  case free => exact hostReadWord_eq_next.2 ⟨hin, .inr ⟨hnone, rfl⟩⟩
  case missing => rw [hostReadWord, if_neg (by omega)]

/-- Settles O56, memory by memory. -/
theorem hostReadsTheMemories : Obligations.HostReadsTheMemories := by
  intro s off rest hfree
  refine ⟨fun sp hhost => ?_, fun sp hhost => ?_⟩
  · have h := step_rdByte_cases hfree hhost
    cases sp with
    | wire => exact h
    | txpay => exact h
  · have h := step_rdWord_cases hfree hhost
    cases sp with
    | txcsrc => exact h
    | txext => exact h

/-! ## Reads of a view -/

/-- With both registers of the view written and an element there, the read comes down to the element's cells (20_memory.md R49). -/
theorem step_rdView_element {s : State} {v : View} {i n off : Nat} {rest : List HostAction}
    (hfree : s.running.read s.active = none) (hhost : s.host = .rdView v i :: rest)
    (hn : s.codec.pkt.viewCount v = some n) (hoff : s.codec.pkt.viewOffset v = some off) (hi : i < n) :
    step s = hostReadElement v off i (s.withHost rest) := by
  rw [step_of_free hfree hhost rfl]
  simp [hostReadView, hn, hoff, hi]

/-- An element whose cells exist and hold values is handed out. -/
theorem step_rdView_held {s : State} {v : View} {i n off x : Nat} {rest : List HostAction}
    (hfree : s.running.read s.active = none) (hhost : s.host = .rdView v i :: rest)
    (hn : s.codec.pkt.viewCount v = some n) (hoff : s.codec.pkt.viewOffset v = some off) (hi : i < n)
    (hin : off + v.elementSize * i + v.elementSize ≤ s.codec.wireSize)
    (hx : viewElement s.codec.wire v off i = some x) :
    step s = .next { s with host := rest, readData := x } := by
  rw [step_rdView_element hfree hhost hn hoff hi]
  exact hostReadElement_eq_next.2 ⟨Codec.wireHas_iff.2 (.inr hin), .inl ⟨x, hx, rfl⟩⟩

/-- Past the end of a view there is no element. -/
theorem step_rdView_past {s : State} {v : View} {i n : Nat} {rest : List HostAction}
    (hfree : s.running.read s.active = none) (hhost : s.host = .rdView v i :: rest)
    (hn : s.codec.pkt.viewCount v = some n) (hi : n ≤ i) : step s = .fault .noSuchElement := by
  rw [step_of_free hfree hhost rfl]
  simp [hostReadView, hn, hi]

/-- A view of words is read by `rdBE32`, which refuses a cell without a value (40_word_codec.md R90). -/
theorem hostReadElement_unwritten {v : View} {off i : Nat} {s : State} (hv : v ≠ .payload)
    (hin : off + 4 * i + 4 ≤ s.codec.wireSize) (hnone : s.codec.wire.readBE32 (off + 4 * i) = none) :
    hostReadElement v off i s = .refused .unwrittenRead := by
  have hhas : s.codec.wireHas (off + 4 * i) 4 = true := Codec.wireHas_iff.2 (.inr hin)
  cases v with
  | csrc => simp [hostReadElement, View.elementSize, viewElement, hhas, hnone]
  | ext => simp [hostReadElement, View.elementSize, viewElement, hhas, hnone]
  | payload => exact absurd rfl hv

/-- Settles O46: the two views of words, the payload, what stops, the free byte and the frame. -/
theorem viewElementsAreBigEndian : Obligations.ViewElementsAreBigEndian := by
  intro s i rest hfree
  refine ⟨fun cc off v hhost hn hoff hi hin hv => ?csrc, fun n off v hhost hn hoff hi hin hv => ?ext,
    fun len off b hhost hn hoff hi hin hb => ?payload, fun v n hhost hn hi => step_rdView_past hfree hhost hn hi,
    fun v n off hhost hv hn hoff hi hin hnone => ?unwrittenWord,
    fun len off hhost hn hoff hi hin hnone => ⟨_, s.freeValue_lt 8, ?freeByte⟩, fun v t hhost ht => ?frame⟩
  case csrc =>
    exact step_rdView_held hfree hhost (by simp [Pkt.viewCount, hn]) hoff hi hin (by simp [viewElement, hv])
  case ext =>
    exact step_rdView_held hfree hhost (by simp [Pkt.viewCount, hn]) hoff hi hin (by simp [viewElement, hv])
  case payload =>
    exact step_rdView_held hfree hhost hn hoff hi (by simpa [View.elementSize] using hin) (by simp [viewElement, hb])
  case unwrittenWord =>
    rw [step_rdView_element hfree hhost hn hoff hi]
    exact hostReadElement_unwritten hv hin hnone
  case freeByte =>
    rw [step_rdView_element hfree hhost hn hoff hi]
    exact hostReadElement_eq_next.2
      ⟨Codec.wireHas_iff.2 (.inr (by simpa [View.elementSize] using hin)), .inr ⟨rfl, by simp [viewElement, hnone], rfl⟩⟩
  case frame =>
    rw [step_of_free hfree hhost rfl] at ht
    exact hostReadView_frame ht

/-! ## Another buffer -/

/-- A buffer larger than R4 allows is refused (log 15). -/
theorem hostRepoint_tooLarge {size : Nat} {cells : List (Nat × Byte)} {s : State} (h : s.params.maxLen < size) :
    hostRepoint size cells s = .refused .valueTooWide := by rw [hostRepoint, if_pos h]

/-- An entry outside the buffer faults (log 16). -/
theorem hostRepoint_outside {size a : Nat} {b : Byte} {cells : List (Nat × Byte)} {s : State}
    (hsize : size ≤ s.params.maxLen) (hmem : (a, b) ∈ cells) (ha : size ≤ a) :
    hostRepoint size cells s = .fault .noSuchCell := by
  have hout : ¬ (cells.all fun e => decide (e.1 < size)) = true := fun hall => by
    have := List.all_eq_true.1 hall _ hmem
    simp only [decide_eq_true_eq] at this
    omega
  rw [hostRepoint, if_neg (by omega), if_neg hout]

/-- Settles O57: of the entries for a cell the last one counts; a size and an entry out of bounds stop the change. -/
theorem hostRepointsTheBuffer : Obligations.HostRepointsTheBuffer := by
  intro s size cells rest hfree hhost
  rw [step_of_free hfree hhost rfl]
  refine ⟨fun hsize hin => ?changed, fun hsize => hostRepoint_tooLarge ?tooLarge,
    fun hsize ⟨a, b, hmem, ha⟩ => hostRepoint_outside (Params.le_maxLen hsize) hmem ha⟩
  case changed =>
    have hall : (cells.all fun e => decide (e.1 < size)) = true :=
      List.all_eq_true.2 fun e he => decide_eq_true (hin e.1 e.2 he)
    refine ⟨_, hostRepoint_eq_next.2 ⟨Params.le_maxLen hsize, hall, rfl⟩, rfl, ?_,
      fun a hno => bufferContents_read_none hno⟩
    rintro before a b later rfl hlast
    exact bufferContents_read hlast
  case tooLarge =>
    have := Nat.two_pow_pos s.params.lenW
    simp only [State.withHost_params, Params.maxLen]
    omega

end Sys2Proof.Machine
end

section
/-! SUPPORT. What a DESERIALIZE reads of `WIRE` and where its views lie (20_memory.md R41, R49; 43_deserialize.md R143): a successful one as one state with its bounds, and every stage with other contents behind `WIRE`. -/

namespace Sys2Proof.Machine

/-! ## A successful DESERIALIZE -/

/-- A failure does not read as OK (60_exceptions.md R155). -/
theorem State.raise_not_ok {s : State} {k : ResultKind} (hk : k ≠ .ok) :
    (s.raise k).codec.result.read ≠ some .ok := by simpa using hk

/-- Where the extension's data ends inside the frame, what is left holds the payload (43_deserialize.md R138, R139). -/
theorem deserializePayload_ok {h : Header} {profile extLen : Half} {extOff n : Nat} {s t : State}
    (hdata : extOff + 4 * extLen.toNat ≤ n) (hx : deserializePayload h profile extLen extOff n s = .next t)
    (hok : t.codec.result.read = some .ok) : ∃ len, extOff + 4 * extLen.toNat + len ≤ n
      ∧ t = decodedState h profile extLen extOff (extOff + 4 * extLen.toNat) len s := by
  obtain ⟨payOff, rfl, ⟨-, rfl⟩ | ⟨-, -, pad, -, ⟨-, rfl⟩ | ⟨-, rfl⟩⟩⟩ := deserializePayload_eq_next.1 hx
  · exact ⟨_, by omega, rfl⟩
  · exact ⟨_, by omega, rfl⟩
  · exact absurd hok (State.raise_not_ok (by decide))

/-- Where the cursor lies inside the frame, so do the extension's data and what follows it (R136, R137). -/
theorem deserializeExt_ok {h : Header} {cur n : Nat} {s t : State} (hcur : cur ≤ n)
    (hx : deserializeExt h cur n s = .next t) (hok : t.codec.result.read = some .ok) :
    ∃ profile extLen extOff len, cur ≤ extOff ∧ extOff + 4 * extLen.toNat + len ≤ n
      ∧ t = decodedState h profile extLen extOff (extOff + 4 * extLen.toNat) len s := by
  obtain ⟨-, hx⟩ | ⟨-, ⟨-, rfl⟩ | ⟨hroom, profile, extLen, -, -, ⟨-, rfl⟩ | ⟨hdata, hx⟩⟩⟩ :=
    deserializeExt_eq_next.1 hx
  · obtain ⟨len, hlen, ht⟩ := deserializePayload_ok (by simpa using hcur) hx hok
    exact ⟨0, 0, cur, len, le_rfl, hlen, ht⟩
  · exact absurd hok (State.raise_not_ok (by decide))
  · exact absurd hok (State.raise_not_ok (by decide))
  · obtain ⟨len, hlen, ht⟩ := deserializePayload_ok (by omega) hx hok
    exact ⟨profile, extLen, cur + 4, len, by omega, hlen, ht⟩

/-- A DESERIALIZE that ends with OK has found contributing sources, extension and payload in this order, one behind the other and inside the frame (20_memory.md R49). -/
theorem execDeserialize_ok {p : Present} {s t : State} (hx : execDeserialize p s = .next t)
    (hok : t.codec.result.read = some .ok) : ∃ n h profile extLen extOff len, s.codec.inLen.read = some n
      ∧ 12 + 4 * h.cc.toNat ≤ extOff ∧ extOff + 4 * extLen.toNat + len ≤ n
      ∧ t = decodedState h profile extLen extOff (extOff + 4 * extLen.toNat) len s := by
  obtain ⟨-, ⟨-, rfl⟩ | ⟨-, -, -, n, hn, ⟨-, rfl⟩ | ⟨hmin, hx⟩⟩⟩ := execDeserialize_eq_next.1 hx
  · exact absurd hok (State.raise_not_ok (by decide))
  · exact absurd hok (State.raise_not_ok (by decide))
  obtain ⟨-, -, b0, -, ⟨-, rfl⟩ | ⟨-, h, -, hx⟩⟩ := deserializeReady_eq_next.1 hx
  · exact absurd hok (State.raise_not_ok (by decide))
  obtain ⟨-, -, rfl⟩ | ⟨hids, hx⟩ := deserializeCsrc_eq_next.1 hx
  · exact absurd hok (State.raise_not_ok (by decide))
  obtain ⟨profile, extLen, extOff, len, hstart, hend, ht⟩ := deserializeExt_ok (by omega) hx hok
  exact ⟨n, h, profile, extLen, extOff, len, hn, hstart, hend, ht⟩

/-- Settles O34: the three offsets are those of `execDeserialize_ok`, the first of them 12. -/
theorem viewsAreOrderedInsideTheFrame : Obligations.ViewsAreOrderedInsideTheFrame := by
  intro s t p n hx hok hn
  obtain ⟨m, h, profile, extLen, extOff, len, hm, hstart, hend, rfl⟩ := execDeserialize_ok hx hok
  obtain rfl : m = n := Option.some.inj (hm.symm.trans hn)
  exact ⟨h.cc, extLen, len, 12, extOff, extOff + 4 * extLen.toNat, rfl, rfl, rfl, rfl, rfl, rfl,
    le_rfl, hstart, le_rfl, hend⟩

/-! ## Reads of cells that are alike -/

/-- `rdBE16` looks at its two cells only (40_word_codec.md R92). -/
theorem Memory.readBE16_congr {m m' : Memory Byte} {a : Nat} (h : ∀ b, a ≤ b → b < a + 2 → m'.read b = m.read b) :
    m'.readBE16 a = m.readBE16 a := by
  simp only [Memory.readBE16, h a (by omega) (by omega), h (a + 1) (by omega) (by omega)]

/-- `rdBE32` looks at its four cells only (R90). -/
theorem Memory.readBE32_congr {m m' : Memory Byte} {a : Nat} (h : ∀ b, a ≤ b → b < a + 4 → m'.read b = m.read b) :
    m'.readBE32 a = m.readBE32 a := by
  simp only [Memory.readBE32, h a (by omega) (by omega), h (a + 1) (by omega) (by omega),
    h (a + 2) (by omega) (by omega), h (a + 3) (by omega) (by omega)]

/-- The fixed header is its twelve cells (43_deserialize.md R134). -/
theorem readHeader_congr {m m' : Memory Byte} (h : ∀ a, a < 12 → m'.read a = m.read a) :
    readHeader m' = readHeader m := by
  simp only [readHeader, h 0 (by omega), h 1 (by omega),
    Memory.readBE16_congr (a := 2) fun b _ hb => h b (by omega),
    Memory.readBE32_congr (a := 4) fun b _ hb => h b (by omega),
    Memory.readBE32_congr (a := 8) fun b _ hb => h b (by omega)]

theorem bit_le_one (b : Bool) : bit b ≤ 1 := by cases b <;> decide

/-- The header's flags and its count are bits of byte 0 of a version 2 frame (30_encoding.md R60). -/
theorem readHeader_byte0 {m : Memory Byte} {h : Header} {b0 : Byte} (hb0 : m.read 0 = some b0)
    (hv : versionOf b0 = rtpVersion) (hh : readHeader m = some h) :
    (h.p = true → b0.toNat / 32 % 2 = 1) ∧ (h.x = true → b0.toNat / 16 % 2 = 1) ∧ b0.toNat % 16 = h.cc.toNat := by
  obtain ⟨c0, b1, seq, ts, ssrc, hc0, -, -, -, -, rfl⟩ := readHeader_eq_some.1 hh
  obtain rfl : c0 = b0 := Option.some.inj (hc0.symm.trans hb0)
  have hbyte := byte0_toNat (Header.ofFields c0 b1 seq ts ssrc)
  rw [Header.byte0_ofFields _ _ _ _ _ hv] at hbyte
  generalize Header.ofFields c0 b1 seq ts ssrc = h at hbyte
  have hcc := h.cc.isLt
  have hpbit := bit_le_one h.p
  have hxbit := bit_le_one h.x
  have hset : bit true = 1 := rfl
  refine ⟨fun hp => ?_, fun hx => ?_, by omega⟩
  · rw [hp, hset] at hbyte; omega
  · rw [hx, hset] at hbyte; omega

/-! ## DESERIALIZE with other contents behind `WIRE` -/

/-- Other contents behind `WIRE` and nothing else changed. -/
def State.rewired (m : Memory Byte) (s : State) : State := s.withCodec (s.codec.withWire m)

@[simp] theorem State.rewired_ctxInit (m : Memory Byte) (s : State) : (s.rewired m).ctxInit = s.ctxInit := rfl
@[simp] theorem State.rewired_initRace (m : Memory Byte) (s : State) : (s.rewired m).initRace = s.initRace := rfl
@[simp] theorem State.rewired_codec (m : Memory Byte) (s : State) : (s.rewired m).codec = s.codec.withWire m := rfl
@[simp] theorem State.rewired_raise (m : Memory Byte) (s : State) (k : ResultKind) :
    (s.raise k).rewired m = (s.rewired m).raise k := rfl
@[simp] theorem decodedState_rewired (h : Header) (profile extLen : Half) (extOff payOff len : Nat)
    (m : Memory Byte) (s : State) : (decodedState h profile extLen extOff payOff len s).rewired m
      = decodedState h profile extLen extOff payOff len (s.rewired m) := rfl

section
variable {m : Memory Byte} {s : State} {h : Header} {n : Nat}

/-- Stages 8 and 9 read the last cell of the frame, and only with the padding flag set (43_deserialize.md R139). -/
theorem deserializePayload_rewired {profile extLen : Half} {extOff : Nat}
    (hlast : h.p = true → m.read (n - 1) = s.codec.wire.read (n - 1)) :
    deserializePayload h profile extLen extOff n (s.rewired m)
      = mapNext (State.rewired m) (deserializePayload h profile extLen extOff n s) := by
  cases hp : h.p with
  | false => simp [deserializePayload, mapNext_ite, hp]
  | true => simp [deserializePayload, mapNext_ite, mapNext_need, hp, hlast hp]

/-- Stages 6 and 7 read the four cells at the cursor, and only with the extension flag set (R136). -/
theorem deserializeExt_rewired {cur : Nat}
    (hext : h.x = true → ∀ a, cur ≤ a → a < cur + 4 → m.read a = s.codec.wire.read a)
    (hlast : h.p = true → m.read (n - 1) = s.codec.wire.read (n - 1)) :
    deserializeExt h cur n (s.rewired m) = mapNext (State.rewired m) (deserializeExt h cur n s) := by
  cases hx : h.x with
  | false => simp [deserializeExt, hx, deserializePayload_rewired hlast]
  | true =>
    have hprofile : m.readBE16 cur = s.codec.wire.readBE16 cur :=
      Memory.readBE16_congr fun a hlo hhi => hext hx a hlo (by omega)
    have hlen : m.readBE16 (cur + 2) = s.codec.wire.readBE16 (cur + 2) :=
      Memory.readBE16_congr fun a hlo hhi => hext hx a (by omega) (by omega)
    simp [deserializeExt, mapNext_ite, mapNext_need, hx, hprofile, hlen, deserializePayload_rewired hlast]

/-- Stage 5 reads nothing of its own (R135). -/
theorem deserializeCsrc_rewired
    (hext : h.x = true → ∀ a, 12 + 4 * h.cc.toNat ≤ a → a < 12 + 4 * h.cc.toNat + 4 → m.read a = s.codec.wire.read a)
    (hlast : h.p = true → m.read (n - 1) = s.codec.wire.read (n - 1)) :
    deserializeCsrc h n (s.rewired m) = mapNext (State.rewired m) (deserializeCsrc h n s) := by
  simp [deserializeCsrc, extStart_eq, mapNext_ite, deserializeExt_rewired hext hlast]

end

/-- Stages 2 to 4 read the fixed header, whose byte 0 says which of the other cells the later stages read (R133, R134). -/
theorem deserializeReady_rewired {m : Memory Byte} {s : State} {n : Nat}
    (hfixed : ∀ a, a < 12 → m.read a = s.codec.wire.read a)
    (hrest : ∀ b0, s.codec.wire.read 0 = some b0 → versionOf b0 = rtpVersion →
      ∀ h, readHeader s.codec.wire = some h →
        deserializeCsrc h n (s.rewired m) = mapNext (State.rewired m) (deserializeCsrc h n s)) :
    deserializeReady n (s.rewired m) = mapNext (State.rewired m) (deserializeReady n s) := by
  unfold deserializeReady
  simp only [mapNext_ite, mapNext_need, State.rewired_ctxInit, State.rewired_codec, Codec.withWire_wire,
    Codec.withWire_wireSize, hfixed 0 (by omega), readHeader_congr hfixed]
  refine ite_congr rfl (fun _ => ite_congr rfl (fun _ => rfl) fun _ => ?_) fun _ => rfl
  cases hb0 : s.codec.wire.read 0 with
  | none => rfl
  | some b0 =>
    refine ite_congr rfl (fun hv => ?_) fun _ => rfl
    cases hh : readHeader s.codec.wire with
    | none => rfl
    | some h => exact hrest b0 hb0 hv h hh

/-- Settles O35: each stage with other contents behind `WIRE` answers the same, since the cells it reads are among those that agree. -/
theorem deserializeReadsOnlyTheFraming : Obligations.DeserializeReadsOnlyTheFraming := by
  intro s p m hagree
  change execDeserialize p (s.rewired m) = mapNext (State.rewired m) (execDeserialize p s)
  have hready : ∀ n, s.codec.inLen.read = some n →
      deserializeReady n (s.rewired m) = mapNext (State.rewired m) (deserializeReady n s) := by
    refine fun n hn => deserializeReady_rewired (fun a ha => hagree a (.inl ha)) fun b0 hb0 hv h hh => ?_
    obtain ⟨hp, hx, hcc⟩ := readHeader_byte0 hb0 hv hh
    refine deserializeCsrc_rewired (fun hxt a hlo hhi => ?_) fun hpt => ?_
    · exact hagree a (.inr (.inl ⟨b0, hb0, hx hxt, by omega, by omega⟩))
    · exact hagree (n - 1) (.inr (.inr ⟨b0, n, hb0, hp hpt, hn, rfl⟩))
  unfold execDeserialize
  simp only [mapNext_ite, mapNext_need, State.rewired_initRace, State.rewired_codec]
  refine ite_congr rfl (fun _ => rfl) fun _ => ite_congr rfl (fun _ => ?_) fun _ => rfl
  cases hn : s.codec.inLen.read with
  | none => simp [hn]
  | some n => simp [hn, hready n hn]

end Sys2Proof.Machine
end

section
/-! SUPPORT. The decoder and the encoder, format by format: what each accepts, in both directions (30_encoding.md R60 to R72), and which command words are reserved. -/

open Sys2Proof.Machine

namespace Sys2Proof

/-! ## The wire formats -/

/-- The words of an image, in both directions. -/
theorem wordsOf_eq_some {bytes : List Byte} {vs : List Word} : wordsOf bytes = some vs ↔ wordBytes vs = bytes :=
  ⟨wordBytes_of_wordsOf, fun h => h ▸ wordsOf_wordBytes vs⟩

/-- A `FIXED` image is the twelve bytes of a header (R60, R68). -/
theorem decodeFixed_eq_ok {bytes : List Byte} {i : Instr} :
    decodeFixed bytes = .ok i ↔ ∃ h : Header, i = .fixed h ∧ h.bytes = bytes := by
  constructor
  · intro hdec
    unfold decodeFixed at hdec
    split at hdec
    · split at hdec
      · next hv =>
        cases hdec
        refine ⟨_, rfl, ?_⟩
        rw [Header.bytes, Header.byte0_ofFields _ _ _ _ _ hv, Header.byte1_ofFields]
        simp only [Header.ofFields, be16_ofBe16, be32_ofBe32]
        rfl
      · cases hdec
    · cases hdec
  · rintro ⟨h, rfl, rfl⟩
    simp [Header.bytes, be16, be32, decodeFixed, ofBe16_be16, ofBe32_be32, Header.ofFields_bytes]

/-- A `CSRC` image is at most fifteen identifiers (R62). -/
theorem decodeCsrc_eq_ok {bytes : List Byte} {i : Instr} :
    decodeCsrc bytes = .ok i ↔ ∃ ids, i = .csrc ids ∧ ids.length ≤ Config.maxCsrc ∧ wordBytes ids = bytes := by
  constructor
  · intro hdec
    unfold decodeCsrc at hdec
    split at hdec
    · cases hdec
    · next ids hids =>
      split at hdec
      · next hlen => cases hdec; exact ⟨ids, rfl, hlen, wordsOf_eq_some.1 hids⟩
      · cases hdec
  · rintro ⟨ids, rfl, hlen, rfl⟩
    simp [decodeCsrc, wordsOf_wordBytes, hlen]

/-- The length-in-words of an extension is its number of data words (R63). -/
theorem ofNat_length_of_lengthField {words : List Word} {n : Half} (h : words.length = n.toNat) :
    BitVec.ofNat 16 words.length = n := by
  rw [h, BitVec.ofNat_toNat, BitVec.setWidth_eq]

/-- An `EXT` image is profile, number of data words, data words (R63). -/
theorem decodeExt_eq_ok {cc : BitVec 4} {bytes : List Byte} {i : Instr} : decodeExt cc bytes = .ok i ↔
    ∃ profile words, i = .ext cc profile words ∧ words.length ≤ Config.maxExtWords
      ∧ extBytes profile words = bytes := by
  constructor
  · intro hdec
    unfold decodeExt at hdec
    split at hdec
    · split at hdec
      · cases hdec
      · next words hwords =>
        split at hdec
        · next hlen =>
          cases hdec
          refine ⟨_, words, rfl, ?_, ?_⟩
          · rw [hlen]; exact Nat.le_of_lt_succ (BitVec.isLt _)
          · rw [extBytes, ofNat_length_of_lengthField hlen, be16_ofBe16, be16_ofBe16, wordsOf_eq_some.1 hwords]
            rfl
        · cases hdec
    · cases hdec
  · rintro ⟨profile, words, rfl, hlen, rfl⟩
    have hfit : words.length = (BitVec.ofNat 16 words.length).toNat := by
      rw [BitVec.toNat_ofNat, Nat.mod_eq_of_lt (Nat.lt_succ_of_le hlen)]
    simp only [extBytes, be16, List.cons_append, List.nil_append, decodeExt, wordsOf_wordBytes, ofBe16_be16]
    rw [if_pos hfit]

/-- A `PAYLOAD` image is itself, with its length and its pad count in range (R64). -/
theorem decode_payload_eq_ok {lenW : Nat} {cc : BitVec 4} {n : Option Half} {p : Bool} {bytes : List Byte}
    {i : Instr} : decode lenW (.payload cc n p) bytes = .ok i ↔
    i = .payload cc n p bytes ∧ bytes.length < 2 ^ lenW ∧ padOk p bytes = true := by
  simp only [decode]
  split
  · next hlong => simp [hlong]
  · next hfit =>
    split
    · next hpad => simp [not_not.1 hfit, hpad, eq_comm]
    · next hpad => simp [hpad]

/-! ## The command word -/

/-- The one word with two names is `SERIALIZE C,K,L` (R75). -/
theorem cmdWord_eq_sizeqWord {p : Present} {op : BitVec 2} : cmdWord p op = sizeqWord ↔
    op = 2 ∧ (p.c && p.k && p.l && !p.b) = true := by
  obtain ⟨c, k, b, l⟩ := p
  revert c k b l op
  decide

/-- Every byte is the word of the instruction it decodes to (R69, R71, R72). -/
theorem encode_decodeCmd (w : Byte) : encode (decodeCmd w) = some (.cmd, [w]) := by
  unfold decodeCmd
  by_cases hhigh : w.extractLsb' 6 2 = 0
  · have hw := cmdWord_of_fields w hhigh
    rw [if_neg (not_not.2 hhigh)]
    split_ifs with h0 hs h1 h2
    · rw [h0] at hw; simp only [encode, hw]
    · rw [hs]; rfl
    · rw [h1] at hw; simp only [encode, hw]
    · rw [h2] at hw; simp only [encode, hw]
    · have h3 : opOf w = 3 := by
        revert h0 h1 h2
        generalize opOf w = op
        revert op
        decide
      rw [h3] at hw; simp only [encode, hw]
  · rw [if_pos hhigh]; rfl

/-- What a byte decodes to is well-formed: `SIZEQ`'s word is not read as a SERIALIZE (R75), a word with bits 7:6 `00` not as reserved for them (R72). -/
theorem wellFormed_decodeCmd (lenW : Nat) (w : Byte) : (decodeCmd w).wellFormed lenW = true := by
  unfold decodeCmd
  split_ifs with hhigh h0 hs h1 h2
  · exact decide_eq_true hhigh
  · rfl
  · rfl
  · rfl
  · have hne : ¬ cmdWord (presentOf w) (opOf w) = sizeqWord := by rwa [cmdWord_of_fields w (not_not.1 hhigh)]
    rw [cmdWord_eq_sizeqWord, not_and, Bool.not_eq_true] at hne
    simp only [Instr.wellFormed, hne h2, Bool.not_false]
  · rfl

/-- Any word with bits 7:6 `00` but `SIZEQ`'s is read by its `OP` (R71, R72). -/
theorem decodeCmd_cmdWord {p : Present} {op : BitVec 2} (hne : cmdWord p op ≠ sizeqWord) :
    decodeCmd (cmdWord p op) = if op = 0 then .reservedOp00 p else if op = 1 then .init p
      else if op = 2 then .serialize p else .deserialize p := by
  obtain ⟨hop, hp, hhigh⟩ := cmdWord_fields p op
  simp only [decodeCmd, hop, hp, hhigh, ne_eq, not_true_eq_false, if_false, if_neg hne]

/-- The word of a well-formed command decodes to that command (R69, R71). -/
theorem decodeCmd_of_encode {lenW : Nat} {i : Instr} {w : Byte} (hwf : i.wellFormed lenW = true)
    (henc : encode i = some (.cmd, [w])) : decodeCmd w = i := by
  cases i with
  | init p | deserialize p | reservedOp00 p =>
    cases henc
    rw [decodeCmd_cmdWord (by simp [cmdWord_eq_sizeqWord])]
    rfl
  | serialize p =>
    cases henc
    rw [decodeCmd_cmdWord fun h => ?_]
    · rfl
    · rw [cmdWord_eq_sizeqWord] at h
      simp [Instr.wellFormed, h.2] at hwf
  | sizeq => cases henc; rfl
  | reservedHighBits v => cases henc; exact if_pos (of_decide_eq_true hwf)
  | _ => cases henc

/-! ## Decoder and encoder -/

/-- The decoder accepts exactly the encodings of the well-formed instructions, each at its own port. -/
theorem decode_eq_ok_iff {lenW : Nat} {port : Port} {bytes : List Byte} {i : Instr} :
    decode lenW port bytes = .ok i ↔ i.wellFormed lenW = true ∧ encode i = some (port, bytes) := by
  constructor
  · intro hdec
    cases port with
    | cmd =>
      simp only [decode] at hdec
      split at hdec
      · next w => cases hdec; exact ⟨wellFormed_decodeCmd lenW w, encode_decodeCmd w⟩
      · cases hdec
    | fixed => obtain ⟨h, rfl, rfl⟩ := decodeFixed_eq_ok.1 hdec; exact ⟨rfl, rfl⟩
    | csrc =>
      obtain ⟨ids, rfl, hlen, rfl⟩ := decodeCsrc_eq_ok.1 hdec
      exact ⟨decide_eq_true hlen, rfl⟩
    | ext cc =>
      obtain ⟨profile, words, rfl, hlen, rfl⟩ := decodeExt_eq_ok.1 hdec
      exact ⟨decide_eq_true hlen, rfl⟩
    | payload cc n p =>
      obtain ⟨rfl, hlen, hpad⟩ := decode_payload_eq_ok.1 hdec
      exact ⟨by simp [Instr.wellFormed, hlen, hpad], rfl⟩
  · rintro ⟨hwf, henc⟩
    have command {w : Byte} (h : encode i = some (.cmd, [w])) : decode lenW .cmd [w] = .ok i :=
      congrArg Except.ok (decodeCmd_of_encode hwf h)
    cases i with
    | init p | serialize p | deserialize p | reservedOp00 p => cases henc; exact command rfl
    | sizeq => cases henc; exact command rfl
    | reservedHighBits w => cases henc; exact command rfl
    | rdBE32 a | rdBE16 a => cases henc
    | wrBE32 v a | wrBE16 v a => cases henc
    | fixed h => cases henc; exact decodeFixed_eq_ok.2 ⟨h, rfl, rfl⟩
    | csrc ids => cases henc; exact decodeCsrc_eq_ok.2 ⟨ids, rfl, of_decide_eq_true hwf, rfl⟩
    | ext cc profile words =>
      cases henc; exact decodeExt_eq_ok.2 ⟨profile, words, rfl, of_decide_eq_true hwf, rfl⟩
    | payload cc n p bytes =>
      cases henc; exact decode_payload_eq_ok.2 ⟨rfl, by simpa [Instr.wellFormed] using hwf⟩

/-- The instructions without bytes are the four Word Codec primitives (40_word_codec.md). -/
theorem encode_eq_none {i : Instr} (h : encode i = none) :
    (∃ a, i = .rdBE32 a) ∨ (∃ v a, i = .wrBE32 v a) ∨ (∃ a, i = .rdBE16 a) ∨ (∃ v a, i = .wrBE16 v a) := by
  cases i with
  | rdBE32 a => exact .inl ⟨a, rfl⟩
  | wrBE32 v a => exact .inr (.inl ⟨v, a, rfl⟩)
  | rdBE16 a => exact .inr (.inr (.inl ⟨a, rfl⟩))
  | wrBE16 v a => exact .inr (.inr (.inr ⟨v, a, rfl⟩))
  | _ => cases h

/-- Settles O4: the encoder's bytes, where there are any, are among those the decoder accepts. -/
theorem decodeOfEncodeIsTheInstruction : Obligations.DecodeOfEncodeIsTheInstruction := by
  intro lenW i hwf
  cases henc : encode i with
  | some e => exact .inl ⟨e.1, e.2, rfl, decode_eq_ok_iff.2 ⟨hwf, henc⟩⟩
  | none => exact .inr ⟨rfl, encode_eq_none henc⟩

/-- Settles O5: the other direction of `decode_eq_ok_iff`. -/
theorem encodeOfDecodeIsTheBytes : Obligations.EncodeOfDecodeIsTheBytes :=
  fun _ _ _ _ => decode_eq_ok_iff.1

/-- Settles O3, word by word. -/
theorem testVectorWordsDecode : Obligations.TestVectorWordsDecode := by
  unfold Obligations.TestVectorWordsDecode
  decide

/-! ## Reserved command words -/

/-- The two reserved rows of the opcode table (R72). -/
def Instr.reserved : Instr → Bool
  | .reservedOp00 _ | .reservedHighBits _ => true
  | _ => false

/-- A byte is a reserved command word when its `OP` is `00` or its bits 7:6 are not (R72). -/
theorem decodeCmd_reserved {w : Byte} : (decodeCmd w).reserved = true ↔ w.toNat % 4 = 0 ∨ 64 ≤ w.toNat := by
  have hw := w.isLt
  have hop : opOf w = 0 ↔ w.toNat % 4 = 0 := by simp [← BitVec.toNat_inj, opOf]
  have hhigh : w.extractLsb' 6 2 = 0 ↔ w.toNat < 64 := by
    rw [← BitVec.toNat_inj, BitVec.extractLsb'_toNat, Nat.shiftRight_eq_div_pow,
      show (0 : BitVec 2).toNat = 0 from rfl]
    omega
  rw [← hop, ← Nat.not_lt, ← hhigh]
  unfold decodeCmd
  split_ifs with h1 h2
  · exact iff_of_true rfl (.inr h1)
  · exact iff_of_true rfl (.inl h2)
  all_goals exact iff_of_false Bool.false_ne_true (not_or.2 ⟨h2, h1⟩)

namespace Machine

/-- What a command word that is not reserved, a primitive or a format can be refused as (60_exceptions.md R167). -/
def Refusal.ofCommand : Refusal → Bool
  | .useBeforeInit | .unwrittenRead | .lengthOverflow | .bufferBound | .initRace => true
  | _ => false

/-- An outcome that, where it is a refusal, is one of these. -/
def CommandRefusalOnly (o : Out) : Prop := ∀ r, o = .refused r → r.ofCommand = true

namespace CommandRefusalOnly

theorem next (s : State) : CommandRefusalOnly (.next s) := fun _ h => by cases h

theorem fault (f : Fault) : CommandRefusalOnly (.fault f) := fun _ h => by cases h

theorem refused {r : Refusal} (h : r.ofCommand = true) : CommandRefusalOnly (.refused r) :=
  fun _ hr => by cases hr; exact h

theorem ite {c : Prop} [Decidable c] {a b : Out} (ha : CommandRefusalOnly a) (hb : CommandRefusalOnly b) :
    CommandRefusalOnly (if c then a else b) := by
  split
  · exact ha
  · exact hb

/-- A missing value is such a refusal itself (10_state.md R33). -/
theorem need {α : Type} {o : Option α} {k : α → Out} (h : ∀ v, CommandRefusalOnly (k v)) :
    CommandRefusalOnly (need o k) := by
  cases o with
  | none => exact refused rfl
  | some v => exact h v

end CommandRefusalOnly

/-- How SERIALIZE and SIZEQ are refused, stage by stage (R121). -/
theorem serializeCommand_refusals (p : Present) (s : State) : CommandRefusalOnly (serializeCommand p s) := by
  have emit : CommandRefusalOnly (serializeEmit s) := .need fun t => .next _
  have checked (req : Nat) : CommandRefusalOnly (serializeChecked req s) :=
    .need fun len => .ite (.refused rfl) (.need fun p => .ite (.need fun last => .ite emit (.next _)) emit)
  have ready (b : Bool) : CommandRefusalOnly (serializeReady b s) :=
    .ite (.need fun req => .ite (.refused rfl) (.ite (.need fun cap => .ite (.next _) (checked req)) (.next _)))
      (.refused rfl)
  exact .ite (.refused rfl) (.ite (.ite (.need fun cap => .ite (.next _) (ready true)) (ready false)) (.next _))

/-- How DESERIALIZE is refused, stage by stage (R143). -/
theorem execDeserialize_refusals (p : Present) (s : State) : CommandRefusalOnly (execDeserialize p s) := by
  have payload {h : Header} {profile extLen : Half} {extOff n : Nat} :
      CommandRefusalOnly (deserializePayload h profile extLen extOff n s) :=
    .ite (.next _) (.ite (.need fun pad => .ite (.next _) (.next _)) (.next _))
  have ext {h : Header} {cur n : Nat} : CommandRefusalOnly (deserializeExt h cur n s) :=
    .ite (.ite (.next _) (.need fun profile => .need fun extLen => .ite (.next _) payload)) payload
  have csrc {h : Header} {n : Nat} : CommandRefusalOnly (deserializeCsrc h n s) := .ite (.next _) ext
  have ready {n : Nat} : CommandRefusalOnly (deserializeReady n s) :=
    .ite (.ite (.refused rfl) (.need fun b0 => .ite (.need fun h => csrc) (.next _))) (.refused rfl)
  exact .ite (.refused rfl) (.ite (.need fun n => .ite (.next _) ready) (.next _))

/-- How a reading primitive is refused (40_word_codec.md R90). -/
theorem handOut_refusals {w : Nat} {here : Bool} {o : Option (BitVec w)} {s : State} :
    CommandRefusalOnly (handOut here o s) := .ite (.need fun _ => .next _) (.fault _)

/-- A writing primitive or a format goes on or faults. -/
theorem layOnWire_refusals {off : Nat} {bytes : List Byte} {s : State} :
    CommandRefusalOnly (layOnWire off bytes s) := .ite (.next _) (.fault _)

/-- Exactly the reserved rows are refused as reserved words, in every state (R72). -/
theorem exec_eq_reservedCommand {i : Instr} {s : State} :
    exec i s = .refused .reservedCommand ↔ i.reserved = true := by
  have not_reserved {o : Out} (h : CommandRefusalOnly o) (hi : i.reserved = false) :
      o = .refused .reservedCommand ↔ i.reserved = true :=
    iff_of_false (fun ho => by cases h _ ho) (by simp [hi])
  cases i with
  | init p => exact not_reserved (.ite (.next _) (.next _)) rfl
  | serialize p => exact not_reserved (serializeCommand_refusals p s) rfl
  | sizeq => exact not_reserved (serializeCommand_refusals _ s) rfl
  | deserialize p => exact not_reserved (execDeserialize_refusals p s) rfl
  | reservedOp00 p => exact iff_of_true rfl rfl
  | reservedHighBits w => exact iff_of_true rfl rfl
  | rdBE32 a => exact not_reserved handOut_refusals rfl
  | rdBE16 a => exact not_reserved handOut_refusals rfl
  | wrBE32 v a => exact not_reserved layOnWire_refusals rfl
  | wrBE16 h a => exact not_reserved layOnWire_refusals rfl
  | fixed h => exact not_reserved layOnWire_refusals rfl
  | csrc ids => exact not_reserved layOnWire_refusals rfl
  | ext cc profile words => exact not_reserved layOnWire_refusals rfl
  | payload cc n p bytes => exact not_reserved layOnWire_refusals rfl

/-- Settles O6: the step runs what the byte decodes to, and only the reserved rows are refused so. -/
theorem reservedWordsAreRefused : Obligations.ReservedWordsAreRefused := by
  intro s v rest hhost hv hfree
  have hstep : step s = exec (decodeCmd (BitVec.ofNat 8 v)) (s.withHost rest) :=
    (stepRunsTheDecodedInstruction s rest).1 v hv hhost hfree
  rw [hstep, exec_eq_reservedCommand, decodeCmd_reserved, BitVec.toNat_ofNat, Nat.mod_eq_of_lt hv]

/-- Settles O7: both rows by `exec_eq_reservedCommand`. -/
theorem reservedRowsStop : Obligations.ReservedRowsStop :=
  fun _ _ _ => ⟨exec_eq_reservedCommand.2 rfl, exec_eq_reservedCommand.2 rfl⟩

/-! ## Bits that do not matter -/

/-- Settles O20: INIT asks for `C` alone, DESERIALIZE for `C`, `B` and `K`. -/
theorem ignoredBitsChangeNothing : Obligations.IgnoredBitsChangeNothing := by
  intro s p q
  refine ⟨fun hc => ?_, fun hc hk hb => ?_⟩
  · simp only [exec, execInit, hc]
  · simp only [exec, execDeserialize, hc, hk, hb]

/-- Settles O21: both are the one command with these references. -/
theorem sizeqIsSerializeWithoutBuffer : Obligations.SizeqIsSerializeWithoutBuffer := fun _ => rfl

end Machine
end Sys2Proof
end

section
/-! SUPPORT. The four wire formats on `WIRE`: what laying a run of bytes leaves, read back field by field, and an emission as the four of them in a row (30_encoding.md R60 to R65; 42_serialize.md R117, R118). -/

namespace Sys2Proof.Machine

/-! ## A run of bytes laid on `WIRE` -/

/-- The state with `bytes` on `WIRE` from `off` on: what a format leaves. -/
def State.laid (off : Nat) (bytes : List Byte) (s : State) : State := s.rewired (s.codec.wire.writeN off bytes)

@[simp] theorem State.laid_wire (off : Nat) (bytes : List Byte) (s : State) :
    (s.laid off bytes).codec.wire = s.codec.wire.writeN off bytes := rfl

@[simp] theorem State.laid_wireSize (off : Nat) (bytes : List Byte) (s : State) :
    (s.laid off bytes).codec.wireSize = s.codec.wireSize := rfl

/-- Byte `j` of the run stands at `off + j`. -/
theorem State.laid_read {off : Nat} {bytes : List Byte} {s : State} {j : Nat} (hj : j < bytes.length) :
    (s.laid off bytes).codec.wire.read (off + j) = bytes[j]? := by
  rw [State.laid_wire, Memory.read_writeN_inside _ off bytes j hj, List.getElem?_eq_getElem hj]

/-- A run of bytes changes its own cells and nothing else. -/
theorem onlyWireCells_laid {off n : Nat} {bytes : List Byte} {s : State} (hn : bytes.length = n) :
    OnlyWireCells s (s.laid off bytes) off n :=
  ⟨rfl, fun a ha => Memory.read_writeN_outside _ off bytes a (hn ▸ ha)⟩

section

variable {s : State}

/-- A fixed header needs its twelve cells (R60). -/
theorem exec_fixed {h : Header} (hfit : 12 ≤ s.codec.wireSize) : exec (.fixed h) s = .next (s.laid 0 h.bytes) :=
  layOnWire_next (.inr hfit)

/-- A contributing-source list needs four cells for each identifier (R62). -/
theorem exec_csrc {ids : List Word} (hfit : ids = [] ∨ 12 + 4 * ids.length ≤ s.codec.wireSize) :
    exec (.csrc ids) s = .next (s.laid 12 (wordBytes ids)) :=
  layOnWire_next (by simpa using hfit)

/-- An extension section needs four cells and four for each data word (R63). -/
theorem exec_ext {cc : BitVec 4} {profile : Half} {words : List Word}
    (hfit : 12 + 4 * cc.toNat + 4 + 4 * words.length ≤ s.codec.wireSize) :
    exec (.ext cc profile words) s = .next (s.laid (12 + 4 * cc.toNat) (extBytes profile words)) :=
  layOnWire_next (.inr (by rw [extBytes_length, extStart_eq]; omega))

/-- A payload region needs a cell for each byte (R64). -/
theorem exec_payload {cc : BitVec 4} {n : Option Half} {p : Bool} {bytes : List Byte}
    (hfit : bytes = [] ∨ payStart cc n + bytes.length ≤ s.codec.wireSize) :
    exec (.payload cc n p bytes) s = .next (s.laid (payStart cc n) bytes) :=
  layOnWire_next (by simpa using hfit)

end

/-! ## The formats, read back -/

/-- Cells that hold the twelve bytes of a header hold its fields (R60). -/
theorem wireHolds_of_bytes {m : Memory Byte} {h : Header} (hm : ∀ j, j < 12 → m.read j = h.bytes[j]?) :
    WireHolds m h := by
  refine ⟨h.byte0, h.byte1, hm 0 (by decide), hm 1 (by decide), byte0_toNat h, byte1_toNat h, ?_, ?_, ?_⟩
  · exact Memory.readBE16_eq_some.2 ⟨_, _, hm 2 (by decide), hm 3 (by decide), ofBe16_be16 h.seq⟩
  · exact Memory.readBE32_eq_some.2
      ⟨_, _, _, _, hm 4 (by decide), hm 5 (by decide), hm 6 (by decide), hm 7 (by decide), ofBe32_be32 h.ts⟩
  · exact Memory.readBE32_eq_some.2
      ⟨_, _, _, _, hm 8 (by decide), hm 9 (by decide), hm 10 (by decide), hm 11 (by decide), ofBe32_be32 h.ssrc⟩

/-- Settles O14: the header's run of bytes, read back by `wireHolds_of_bytes`. -/
theorem fixedLaysTheHeader : Obligations.FixedLaysTheHeader := by
  intro s h hfit
  refine ⟨_, exec_fixed hfit, onlyWireCells_laid h.bytes_length, wireHolds_of_bytes fun j hj => ?_⟩
  simpa using State.laid_read (s := s) (off := 0) (bytes := h.bytes) hj

/-- Settles O15: the identifiers' run of bytes, read back word by word. -/
theorem csrcLaysTheList : Obligations.CsrcLaysTheList := by
  intro s ids hfit
  refine ⟨_, exec_csrc hfit, onlyWireCells_laid (wordBytes_length ids), ?_⟩
  exact Memory.readBE32_of_wordBytes fun j hj => State.laid_read (by simpa using hj)

/-- Settles O16: the section's run of bytes, read back by `Memory.reads_of_extBytes`. -/
theorem extLaysTheSection : Obligations.ExtLaysTheSection := by
  intro s cc profile words _ hfit
  refine ⟨_, exec_ext hfit, onlyWireCells_laid (extBytes_length profile words), ?_⟩
  exact Memory.reads_of_extBytes fun j hj => State.laid_read (by simpa using hj)

/-- Settles O17: the run of bytes itself. -/
theorem payloadLaysTheRegion : Obligations.PayloadLaysTheRegion := by
  intro s cc n p bytes start hstart hfit
  obtain rfl : start = payStart cc n := by rw [hstart]; cases n <;> rfl
  exact ⟨_, exec_payload hfit, onlyWireCells_laid rfl, fun j hj => State.laid_read hj⟩

/-! ## An emission, section by section -/

/-- What the registers say of the packet of an emission: one identifier per contributing source, and an extension whose length fits the length register (42_serialize.md R118). -/
theorem Codec.txPacket_counts {c : Codec} {pk : TxPacket} (h : c.txPacket = some pk) :
    pk.csrc.length = pk.header.cc.toNat ∧ ∀ e, pk.ext = some e → e.2.length < 2 ^ 16 := by
  obtain ⟨-, hext, -, hids, -⟩ := Codec.txPacket_eq_some.1 h
  refine ⟨Memory.readN_length hids, fun e he => ?_⟩
  obtain ⟨-, hnone⟩ | ⟨n, profile, words, -, -, hwords, hsome⟩ := Codec.extPacket_eq_some.1 hext
  · rw [hnone] at he; cases he
  · rw [hsome] at he; cases he
    rw [Memory.readN_length hwords]; exact n.isLt

/-- An open SERIALIZE with consistent padding ends in the emission of its packet, which fits the buffer (R116 to R119). -/
theorem serialize_emits {i : Instr} {s t : State} {req cap len : Nat} {pk : TxPacket}
    (hopen : SerializeOpen i s req cap len) (hpad : PaddingConsistent s len) (hpk : s.codec.txPacket = some pk)
    (hexec : exec i s = .next t) : t = emitted pk s ∧ pk.bytes.length ≤ s.codec.wireSize := by
  rw [serialize_open_consistent hopen hpad] at hexec
  obtain ⟨pk', hpk', rfl⟩ := serializeEmit_eq_next.1 hexec
  obtain ⟨⟨-, -, -, -, hreq, -⟩, -, hwire, -, -⟩ := hopen
  rw [hpk] at hpk'; cases hpk'
  exact ⟨rfl, by rwa [Codec.txPacket_length hpk hreq]⟩

/-- Settles O28: the packet's bytes are the four runs one after the other, each where its format starts. -/
theorem emissionIsTheFourSections : Obligations.EmissionIsTheFourSections := by
  intro s t i req cap len pk hopen hpad hpk hexec
  obtain ⟨rfl, hfit⟩ := serialize_emits hopen hpad hpk hexec
  obtain ⟨hcc, hext⟩ := Codec.txPacket_counts hpk
  rw [TxPacket.bytes_length] at hfit
  cases hx : pk.ext with
  | none =>
    have hpay : payStart pk.header.cc none = 12 + 4 * pk.header.cc.toNat := rfl
    simp only [hx, hcc] at hfit
    refine ⟨_, _, _, _, exec_fixed (by omega), exec_csrc (.inr ?_), ⟨rfl, exec_payload (.inr ?_)⟩, ?_⟩
    · rw [State.laid_wireSize]; omega
    · rw [State.laid_wireSize, State.laid_wireSize]; omega
    · rw [emitted_wire, TxPacket.bytes, hx]
      exact (Memory.writeN_append4 (c := []) _ rfl rfl (by simp [hpay, hcc])).symm
  | some e =>
    obtain ⟨profile, words⟩ := e
    have hpay : payStart pk.header.cc (some (BitVec.ofNat 16 words.length))
        = 12 + 4 * pk.header.cc.toNat + (4 + 4 * words.length) := by
      rw [payStart, extStart_eq, extSize_some, BitVec.toNat_ofNat, Nat.mod_eq_of_lt (hext _ hx)]
    simp only [hx, hcc] at hfit
    refine ⟨_, _, _, _, exec_fixed (by omega), exec_csrc (.inr ?_), ⟨exec_ext ?_, exec_payload (.inr ?_)⟩, ?_⟩
    · rw [State.laid_wireSize]; omega
    · rw [State.laid_wireSize, State.laid_wireSize]; omega
    · simp only [State.laid_wireSize]; omega
    · rw [emitted_wire, TxPacket.bytes, hx]
      exact (Memory.writeN_append4 _ rfl (by simp [hcc]) (by simp [hpay, hcc])).symm

end Sys2Proof.Machine
end

section
/-! SUPPORT. The four Word Codec primitives run by themselves: what each answers, once as an equation and once as an inversion, how a 32-bit value falls into its two halves, and that reads and writes are inverse to each other (40_word_codec.md R90 to R94). -/

namespace Sys2Proof

/-! ## A word is its two halves -/

/-- Four bytes make the word whose halves the first two and the last two make (R92). -/
theorem ofBe32_eq_append (b0 b1 b2 b3 : Byte) : ofBe32 b0 b1 b2 b3 = (ofBe16 b0 b1 ++ ofBe16 b2 b3 : Word) :=
  BitVec.append_assoc

/-- The image of a word is the image of its upper half, then that of its lower half (R93). -/
theorem be32_append (h l : Half) : be32 (h ++ l : Word) = be16 h ++ be16 l := by
  obtain ⟨b0, b1, rfl⟩ : ∃ b0 b1, h = ofBe16 b0 b1 := ⟨_, _, (ofBe16_be16 h).symm⟩
  obtain ⟨b2, b3, rfl⟩ : ∃ b2 b3, l = ofBe16 b2 b3 := ⟨_, _, (ofBe16_be16 l).symm⟩
  rw [← ofBe32_eq_append, be32_ofBe32, be16_ofBe16, be16_ofBe16]; rfl

namespace Machine

/-- `rdBE16` at `a` and at `a + 2` gives the halves of what `rdBE32` gives at `a` (R92). -/
theorem Memory.readBE16_halves {m : Memory Byte} {a : Nat} {v : Word} (h : m.readBE32 a = some v) :
    m.readBE16 a = some (v.extractLsb' 16 16) ∧ m.readBE16 (a + 2) = some (v.extractLsb' 0 16) := by
  obtain ⟨b0, b1, b2, b3, h0, h1, h2, h3, rfl⟩ := Memory.readBE32_eq_some.1 h
  rw [ofBe32_eq_append, BitVec.extractLsb'_append_eq_left, BitVec.extractLsb'_append_eq_right]
  exact ⟨Memory.readBE16_eq_some.2 ⟨b0, b1, h0, h1, rfl⟩, Memory.readBE16_eq_some.2 ⟨b2, b3, h2, h3, rfl⟩⟩

/-! ## Runs of bytes on `WIRE` -/

/-- A run of bytes laid in two pieces, one behind the other. -/
theorem State.laid_append {off : Nat} {bytes later : List Byte} {s : State} :
    (s.laid off bytes).laid (off + bytes.length) later = s.laid off (bytes ++ later) := by
  simp only [State.laid, Memory.writeN_append]; rfl

/-- Laying the bytes that stand there is no change of the machine. -/
theorem State.laid_of_readN {off n : Nat} {bytes : List Byte} {s : State} (hwf : Memory.wf s.codec.wire = true)
    (h : s.codec.wire.readN off n = some bytes) : s.laid off bytes = s := by
  rw [State.laid, Memory.writeN_of_readN hwf h]; rfl

/-- `rdBE32` of the cells a word was laid on gives the word. -/
theorem State.laid_readBE32 {a : Nat} {v : Word} {s : State} :
    (s.laid a (be32 v)).codec.wire.readBE32 a = some v :=
  Memory.readBE32_of_image v fun _ hi => State.laid_read hi

/-- `rdBE16` of the cells a half was laid on gives the half. -/
theorem State.laid_readBE16 {a : Nat} {h : Half} {s : State} :
    (s.laid a (be16 h)).codec.wire.readBE16 a = some h :=
  Memory.readBE16_of_image h fun _ hi => State.laid_read hi

/-! ## What each primitive answers -/

section

variable {s t : State} {a : Nat}

/-- A reading primitive is refused where its cells exist and one of them holds no value (R33). -/
theorem handOut_unwritten {w n : Nat} {o : Option (BitVec w)} (hfit : a + n ≤ s.codec.wireSize) (h : o = none) :
    handOut (s.codec.wireHas a n) o s = .refused .unwrittenRead := by
  have : s.codec.wireHas a n = true := Codec.wireHas_iff.2 (.inr hfit)
  simp [handOut, this, h]

/-- All `rdBE32` can do (R90). -/
theorem exec_rdBE32_eq_next : exec (.rdBE32 a) s = .next t ↔
    a + 4 ≤ s.codec.wireSize ∧ ∃ v, s.codec.wire.readBE32 a = some v ∧ t = s.withReadData v.toNat :=
  handOut_eq_next.trans (by simp [Codec.wireHas_iff])

/-- All `rdBE16` can do (R92). -/
theorem exec_rdBE16_eq_next : exec (.rdBE16 a) s = .next t ↔
    a + 2 ≤ s.codec.wireSize ∧ ∃ h, s.codec.wire.readBE16 a = some h ∧ t = s.withReadData h.toNat :=
  handOut_eq_next.trans (by simp [Codec.wireHas_iff])

/-- All `wrBE32` can do (R91). -/
theorem exec_wrBE32_eq_next {v : Word} :
    exec (.wrBE32 v a) s = .next t ↔ a + 4 ≤ s.codec.wireSize ∧ t = s.laid a (be32 v) :=
  layOnWire_eq_next.trans (by simp [State.laid, State.rewired])

/-- All `wrBE16` can do (R93). -/
theorem exec_wrBE16_eq_next {h : Half} :
    exec (.wrBE16 h a) s = .next t ↔ a + 2 ≤ s.codec.wireSize ∧ t = s.laid a (be16 h) :=
  layOnWire_eq_next.trans (by simp [State.laid, State.rewired])

end

/-! ## The obligations -/

/-- Settles O8: the value is that of the four bytes, and a missing cell leaves `rdBE32` without one. -/
theorem rdBE32HandsOutTheWord : Obligations.RdBE32HandsOutTheWord := by
  intro s a hfit
  refine ⟨fun b0 b1 b2 b3 h0 h1 h2 h3 => ?_, fun i hi hnone => ?_⟩
  · rw [← ofBe32_toNat]
    have hread := Memory.readBE32_eq_some.2 ⟨b0, b1, b2, b3, h0, h1, h2, h3, rfl⟩
    exact exec_rdBE32_eq_next.2 ⟨hfit, _, hread, rfl⟩
  · exact handOut_unwritten hfit (Memory.readBE32_eq_none (by omega) (by omega) hnone)

/-- Settles O9: as for `rdBE32`, and the halves are those of the bytes' word. -/
theorem rdBE16HandsOutTheHalf : Obligations.RdBE16HandsOutTheHalf := by
  intro s a hfit
  refine ⟨fun b0 b1 h0 h1 => ?_, fun v hv => Memory.readBE16_halves hv, fun i hi hnone => ?_⟩
  · rw [← ofBe16_toNat]
    have hread := Memory.readBE16_eq_some.2 ⟨b0, b1, h0, h1, rfl⟩
    exact exec_rdBE16_eq_next.2 ⟨hfit, _, hread, rfl⟩
  · exact handOut_unwritten hfit (Memory.readBE16_eq_none (by omega) (by omega) hnone)

/-- Settles O10: the run of the value's four bytes. -/
theorem wrBE32WritesFourCells : Obligations.WrBE32WritesFourCells := by
  intro s v a hfit
  have hread : ∀ j, j < 4 → (s.laid a (be32 v)).codec.wire.read (a + j) = (be32 v)[j]? :=
    fun _ hj => State.laid_read hj
  exact ⟨_, exec_wrBE32_eq_next.2 ⟨hfit, rfl⟩, onlyWireCells_laid (be32_length v),
    hread 0 (by decide), hread 1 (by decide), hread 2 (by decide), hread 3 (by decide)⟩

/-- Settles O11: the run of the value's two bytes; two such runs in a row are the run of the word's four. -/
theorem wrBE16WritesTwoCells : Obligations.WrBE16WritesTwoCells := by
  intro s h l a
  refine ⟨fun hfit => ?_, fun hfit => ?_⟩
  · have hread : ∀ j, j < 2 → (s.laid a (be16 h)).codec.wire.read (a + j) = (be16 h)[j]? :=
      fun _ hj => State.laid_read hj
    exact ⟨_, exec_wrBE16_eq_next.2 ⟨hfit, rfl⟩, onlyWireCells_laid (be16_length h),
      hread 0 (by decide), hread 1 (by decide)⟩
  · have hlow : a + 2 + 2 ≤ (s.laid a (be16 h)).codec.wireSize := by rw [State.laid_wireSize]; omega
    have hboth : (s.laid a (be16 h)).laid (a + 2) (be16 l) = s.laid a (be32 (h ++ l : Word)) := by
      rw [be32_append]; exact State.laid_append
    exact ⟨_, _, exec_wrBE16_eq_next.2 ⟨by omega, rfl⟩, exec_wrBE16_eq_next.2 ⟨hlow, rfl⟩,
      exec_wrBE32_eq_next.2 ⟨hfit, hboth⟩⟩

/-- Settles O12: a read finds the image that was laid, and what is read is the image that stands there. -/
theorem wordCodecPairsAreInverse : Obligations.WordCodecPairsAreInverse := by
  intro s a
  refine ⟨fun v t hwr => ?_, fun h t hwr => ?_, fun hwf v t hrd hv => ?_, fun hwf h t hrd hh => ?_⟩
  · obtain ⟨hfit, rfl⟩ := exec_wrBE32_eq_next.1 hwr
    exact exec_rdBE32_eq_next.2 ⟨hfit, v, State.laid_readBE32, rfl⟩
  · obtain ⟨hfit, rfl⟩ := exec_wrBE16_eq_next.1 hwr
    exact exec_rdBE16_eq_next.2 ⟨hfit, h, State.laid_readBE16, rfl⟩
  · obtain ⟨hfit, v', hread, rfl⟩ := exec_rdBE32_eq_next.1 hrd
    obtain rfl : v' = v := BitVec.eq_of_toNat_eq hv
    exact exec_wrBE32_eq_next.2 ⟨hfit, (State.laid_of_readN hwf (Memory.readN_of_readBE32 hread)).symm⟩
  · obtain ⟨hfit, h', hread, rfl⟩ := exec_rdBE16_eq_next.1 hrd
    obtain rfl : h' = h := BitVec.eq_of_toNat_eq hh
    exact exec_wrBE16_eq_next.2 ⟨hfit, (State.laid_of_readN hwf (Memory.readN_of_readBE16 hread)).symm⟩

end Machine
end Sys2Proof
end

section
/-! SUPPORT. INIT with the context present and with it absent, and that a machine a successful INIT has left is one it leaves as it is (41_init.md R101, R102). -/

namespace Sys2Proof.Machine

/-- INIT with its context present (R101). -/
theorem exec_init_of_present {p : Present} (hc : p.c = true) (s : State) :
    exec (.init p) s = .next s.setInit.done :=
  (execInit_next p s).trans (by simp [hc])

/-- INIT with its context absent (R101). -/
theorem exec_init_of_absent {p : Present} (hc : p.c = false) (s : State) :
    exec (.init p) s = .next (s.raise .badParam) :=
  (execInit_next p s).trans (by simp [hc])

/-- Both writes of a successful INIT store constants, so a second one stores what stands there (R102). -/
theorem State.setInit_done_idem (s : State) : s.setInit.done.setInit.done = s.setInit.done := rfl

/-- Settles O18: the two cases of `C`. -/
theorem initResult : Obligations.InitResult := by
  intro s p
  exact ⟨fun hc => exec_init_of_present hc s, fun hc => exec_init_of_absent hc s⟩

/-- Settles O19: a second success repeats its two writes, and a failure writes `RESULT` alone. -/
theorem initIsIdempotent : Obligations.InitIsIdempotent := by
  intro s t p q hp hfirst
  rw [exec_init_of_present hp, next_eq_next] at hfirst
  subst hfirst
  refine ⟨fun hq => ?_, fun hq => ⟨_, exec_init_of_absent hq _, ?_⟩⟩
  · rw [exec_init_of_present hq, State.setInit_done_idem]
  · rw [State.raise_ctxInit, State.done_ctxInit, State.setInit_ctxInit]

end Sys2Proof.Machine
end

section
/-! SUPPORT. SERIALIZE and its sizing query: what each answers once its parameter checks are passed, with and without a buffer, the packet an emission is made of, and where that packet stands on `WIRE` (42_serialize.md R110 to R124). -/

namespace Sys2Proof.Machine

/-! ## The operands of an emission -/

/-- Without an extension the extension registers play no part (R112). -/
theorem Pkt.extOperand_of_absent {p : Pkt} (hx : p.x.read = some false) : p.extOperand = some none :=
  Pkt.extOperand_eq_some.2 (.inl ⟨hx, rfl⟩)

/-- With an extension its length is read (R112). -/
theorem Pkt.extOperand_of_present {p : Pkt} {n : Half} (hx : p.x.read = some true) (hn : p.extLen.read = some n) :
    p.extOperand = some (some n) :=
  Pkt.extOperand_eq_some.2 (.inr ⟨hx, n, hn, rfl⟩)

/-- Settles O22: the two values of `PKT.X`. -/
theorem requiredLengthFormula : Obligations.RequiredLengthFormula := by
  intro r cc len hcc hlen
  refine ⟨fun n hx hn => ?_, fun hx => ?_⟩
  · exact Pkt.requiredLength_eq_some.2 ⟨some n, cc, len, Pkt.extOperand_of_present hx hn, hcc, hlen, rfl⟩
  · exact Pkt.requiredLength_eq_some.2 ⟨none, cc, len, Pkt.extOperand_of_absent hx, hcc, hlen, rfl⟩

/-- The first cells of a memory are read together when each holds its value. -/
theorem Memory.readN_zero_eq_some {α : Type} {m : Memory α} {n : Nat} {vs : List α} :
    m.readN 0 n = some vs ↔ vs.length = n ∧ ∀ i, i < n → m.read i = vs[i]? := by
  simpa using Memory.readN_eq_some m 0 n vs

/-- A packet without an extension is one whose `PKT.X` is 0 (R118). -/
theorem Codec.extPacket_eq_absent {c : Codec} : c.extPacket = some none ↔ c.pkt.x.read = some false := by
  rw [Codec.extPacket_eq_some]
  constructor
  · rintro (⟨hop, -⟩ | ⟨n, profile, words, -, -, -, hne⟩)
    · obtain ⟨hx, -⟩ | ⟨-, n, -, hne⟩ := Pkt.extOperand_eq_some.1 hop
      · exact hx
      · cases hne
    · cases hne
  · exact fun hx => .inl ⟨Pkt.extOperand_of_absent hx, rfl⟩

/-- A packet's extension is its registers and as many cells of `TXEXT` as `PKT.EXT_LEN` says (R118). -/
theorem Codec.extPacket_eq_present {c : Codec} {profile : Half} {words : List Word} :
    c.extPacket = some (some (profile, words)) ↔ c.pkt.x.read = some true ∧ c.pkt.extProfile.read = some profile
      ∧ (∃ n : Half, c.pkt.extLen.read = some n ∧ words.length = n.toNat)
      ∧ ∀ i, i < words.length → c.txext.read i = words[i]? := by
  rw [Codec.extPacket_eq_some]
  constructor
  · rintro (⟨-, hne⟩ | ⟨n, profile, words, hop, hprofile, hwords, heq⟩)
    · cases hne
    · cases heq
      obtain ⟨hlen, hcells⟩ := Memory.readN_zero_eq_some.1 hwords
      obtain ⟨-, hne⟩ | ⟨hx, m, hm, heq⟩ := Pkt.extOperand_eq_some.1 hop
      · cases hne
      · cases heq
        exact ⟨hx, hprofile, ⟨n, hm, hlen⟩, fun i hi => hcells i (hlen ▸ hi)⟩
  · rintro ⟨hx, hprofile, ⟨n, hn, hlen⟩, hcells⟩
    exact .inr ⟨n, profile, words, Pkt.extOperand_of_present hx hn, hprofile,
      Memory.readN_zero_eq_some.2 ⟨hlen, fun i hi => hcells i (hlen ▸ hi)⟩, rfl⟩

/-- Settles O25: the header's registers, the identifiers, the payload, and the extension by the two lemmas above. -/
theorem emissionOperands : Obligations.EmissionOperands := by
  rintro c ⟨h, ids, ext, bytes⟩
  rw [Codec.txPacket_eq_some, Pkt.header_eq_some, Memory.readN_zero_eq_some, Memory.readN_zero_eq_some]
  cases ext with
  | none =>
    rw [Codec.extPacket_eq_absent]
    constructor
    · rintro ⟨⟨hp, hx, hcc, hm, hpt, hseq, hts, hssrc⟩, hx0, hlen, ⟨hn, hids⟩, -, hbytes⟩
      exact ⟨hp, hx, hcc, hm, hpt, hseq, hts, hssrc, hn, hids, hlen, hbytes, Option.some.inj (hx.symm.trans hx0)⟩
    · rintro ⟨hp, hx, hcc, hm, hpt, hseq, hts, hssrc, hn, hids, hlen, hbytes, hx0⟩
      exact ⟨⟨hp, hx, hcc, hm, hpt, hseq, hts, hssrc⟩, hx.trans (congrArg some hx0), hlen, ⟨hn, hids⟩, rfl, hbytes⟩
  | some e =>
    obtain ⟨profile, words⟩ := e
    rw [Codec.extPacket_eq_present]
    constructor
    · rintro ⟨⟨hp, hx, hcc, hm, hpt, hseq, hts, hssrc⟩, ⟨hx1, hext⟩, hlen, ⟨hn, hids⟩, -, hbytes⟩
      exact ⟨hp, hx, hcc, hm, hpt, hseq, hts, hssrc, hn, hids, hlen, hbytes, Option.some.inj (hx.symm.trans hx1), hext⟩
    · rintro ⟨hp, hx, hcc, hm, hpt, hseq, hts, hssrc, hn, hids, hlen, hbytes, hx1, hext⟩
      exact ⟨⟨hp, hx, hcc, hm, hpt, hseq, hts, hssrc⟩, ⟨hx.trans (congrArg some hx1), hext⟩, hlen, ⟨hn, hids⟩, rfl,
        hbytes⟩

/-! ## Past the parameter checks -/

/-- With its references present and, where there is a buffer, a capacity that is not 0, SERIALIZE comes to stage 2 (R110). -/
theorem serializeCommand_ready {p : Present} {s : State} (hrace : s.initRace = false) (hc : p.c = true)
    (hk : p.k = true) (hl : p.l = true) (hcap : p.b = true → ∃ cap, s.codec.cap.read = some cap ∧ cap ≠ 0) :
    serializeCommand p s = serializeReady p.b s := by
  rw [serializeCommand, if_neg (by simp [hrace]), if_pos ⟨hc, hk, hl⟩]
  cases hb : p.b with
  | true =>
    obtain ⟨cap, hread, h0⟩ := hcap hb
    rw [if_pos rfl, hread, need_some, if_neg h0]
  | false => rfl

/-- SIZEQ has no buffer, so it comes to stage 2 whatever `CAP` holds (R114). -/
theorem exec_sizeq_ready {s : State} (hrace : s.initRace = false) : exec .sizeq s = serializeReady false s :=
  serializeCommand_ready hrace rfl rfl rfl fun h => by cases h

/-- With all references present and a capacity that is not 0 SERIALIZE comes to stage 2 (R110). -/
theorem exec_serialize_ready {s : State} {cap : Nat} (hrace : s.initRace = false)
    (hcap : s.codec.cap.read = some cap) (h0 : cap ≠ 0) :
    exec (.serialize { c := true, k := true, b := true, l := true }) s = serializeReady true s :=
  serializeCommand_ready hrace rfl rfl rfl fun _ => ⟨cap, hcap, h0⟩

/-- With its references present and an input no shorter than a header DESERIALIZE comes to stage 2 (43_deserialize.md R130). -/
theorem exec_deserialize_ready {p : Present} {s : State} {n : Nat} (hrace : s.initRace = false) (hc : p.c = true)
    (hk : p.k = true) (hb : p.b = true) (hn : s.codec.inLen.read = some n) (hmin : 12 ≤ n) :
    exec (.deserialize p) s = deserializeReady n s := by
  simp only [exec, execDeserialize]
  rw [if_neg (by simp [hrace]), if_pos ⟨hc, hb, hk⟩, hn, need_some, if_neg (by simpa using hmin)]

/-! ## A sizing query -/

/-- All a sizing query can do past its parameter checks (R111 to R114). -/
theorem serializeReady_sizing {s t : State} : serializeReady false s = .next t ↔
    s.ctxInit = true ∧ ∃ req, s.codec.pkt.requiredLength = some req ∧ req ≤ s.params.maxLen ∧ t = sized req s := by
  rw [serializeReady_eq_next]
  simp

/-- A SIZEQ that ends has reported the required length (R114). -/
theorem exec_sizeq_next {s t : State} (h : exec .sizeq s = .next t) :
    s.ctxInit = true ∧ ∃ req, s.codec.pkt.requiredLength = some req ∧ t = sized req s := by
  have hrace : s.initRace = false := (serializeCommand_eq_next.1 h).1
  rw [exec_sizeq_ready hrace] at h
  obtain ⟨hinit, req, hreq, -, ht⟩ := serializeReady_sizing.1 h
  exact ⟨hinit, req, hreq, ht⟩

/-- Settles O23: both spellings come to `serializeReady` without a buffer. -/
theorem sizingQueryReportsTheLength : Obligations.SizingQueryReportsTheLength := by
  intro s i req hi hinit hreq hmax
  have hready : exec i s = serializeReady false s := by
    obtain rfl | rfl := hi <;> exact exec_sizeq_ready (initRace_of_init hinit)
  rw [hready]
  exact serializeReady_sizing.2 ⟨hinit, req, hreq, hmax, rfl⟩

/-! ## What is refused -/

/-- Stage 2 of SERIALIZE (R111). -/
theorem serializeReady_useBeforeInit {b : Bool} {s : State} (h : s.ctxInit = false) :
    serializeReady b s = .refused .useBeforeInit := by
  rw [serializeReady, if_neg (by simp [h])]

/-- Stage 2 of DESERIALIZE (43_deserialize.md R131). -/
theorem deserializeReady_useBeforeInit {n : Nat} {s : State} (h : s.ctxInit = false) :
    deserializeReady n s = .refused .useBeforeInit := by
  rw [deserializeReady, if_neg (by simp [h])]

/-- Stage 3a: a required length no length register holds (R113). -/
theorem serializeReady_lengthOverflow {b : Bool} {s : State} {req : Nat} (hinit : s.ctxInit = true)
    (hreq : s.codec.pkt.requiredLength = some req) (hmax : s.params.maxLen < req) :
    serializeReady b s = .refused .lengthOverflow := by
  rw [serializeReady, if_pos hinit, hreq, need_some, if_pos hmax]

/-- A SERIALIZE whose capacity is large enough comes to stage 6 (R115). -/
theorem serialize_past {i : Instr} {s : State} {req cap : Nat} (h : SerializePast i s req cap) (hroom : req ≤ cap) :
    exec i s = serializeChecked req s := by
  obtain ⟨rfl, hinit, hcap, h0, hreq, hmax⟩ := h
  rw [exec_serialize_ready (initRace_of_init hinit) hcap h0, serializeReady, if_pos hinit, hreq, need_some,
    if_neg (by omega), if_pos rfl, hcap, need_some, if_neg (by omega)]

/-- Settles O24: each refusal is that of the stage its hypotheses lead to. -/
theorem commandsRefuseWhatTheSpecLeavesOpen : Obligations.CommandsRefuseWhatTheSpecLeavesOpen := by
  intro s
  refine ⟨fun i hrace hinit hi => ?context, fun req hinit hreq hmax => ⟨?sizing, fun cap hcap h0 => ?emission⟩,
    fun i req cap len hpast hroom hlen hbound => ?serializeBound,
    fun p n hc hk hb hinit hn hmin hbound => ?deserializeBound⟩
  case context =>
    obtain rfl | ⟨p, rfl, hc, hk, hl, hcap⟩ | ⟨p, n, rfl, hc, hk, hb, hn, hmin⟩ := hi
    · rw [exec_sizeq_ready hrace, serializeReady_useBeforeInit hinit]
    · exact (serializeCommand_ready hrace hc hk hl hcap).trans (serializeReady_useBeforeInit hinit)
    · rw [exec_deserialize_ready hrace hc hk hb hn hmin, deserializeReady_useBeforeInit hinit]
  case sizing => rw [exec_sizeq_ready (initRace_of_init hinit), serializeReady_lengthOverflow hinit hreq hmax]
  case emission =>
    rw [exec_serialize_ready (initRace_of_init hinit) hcap h0, serializeReady_lengthOverflow hinit hreq hmax]
  case serializeBound => rw [serialize_past hpast hroom, serializeChecked, hlen, need_some, if_pos hbound]
  case deserializeBound =>
    rw [exec_deserialize_ready (initRace_of_init hinit) hc hk hb hn hmin, deserializeReady, if_pos hinit,
      if_pos hbound]

/-! ## An emission -/

/-- An emission writes `WIRE`, `CAP` and `RESULT` (R120). -/
theorem emitted_frame (pk : TxPacket) (s : State) : emitted pk s = { s with codec := { s.codec with
    wire := (emitted pk s).codec.wire, cap := Reg.holding pk.bytes.length, result := Reg.holding .ok } } := rfl

/-- An emission puts the packet's bytes from cell 0 on (R117). -/
theorem emitted_read {pk : TxPacket} {s : State} {a : Nat} (ha : a < pk.bytes.length) :
    (emitted pk s).codec.wire.read a = pk.bytes[a]? := by
  rw [emitted_wire, Memory.read_writeN, if_pos (by omega), Nat.sub_zero]

/-- Behind the packet an emission leaves `WIRE` as it is (R120). -/
theorem emitted_read_behind {pk : TxPacket} {s : State} {a : Nat} (ha : pk.bytes.length ≤ a) :
    (emitted pk s).codec.wire.read a = s.codec.wire.read a := by
  rw [emitted_wire, Memory.read_writeN_outside _ _ _ _ (by omega)]

/-- Every cell of the packet holds a value after its emission (R119). -/
theorem emitted_written {pk : TxPacket} {s : State} {a : Nat} (ha : a < pk.bytes.length) :
    ∃ b, (emitted pk s).codec.wire.read a = some b :=
  ⟨_, (emitted_read ha).trans (List.getElem?_eq_getElem ha)⟩

/-- Settles O26: an open SERIALIZE with consistent padding comes to its emission, and the packet has the required length. -/
theorem emissionCompletes : Obligations.EmissionCompletes := by
  intro s i req cap len pk hopen hpad hpk
  have hexec : exec i s = .next (emitted pk s) := by
    rw [serialize_open_consistent hopen hpad]
    exact serializeEmit_eq_next.2 ⟨pk, hpk, rfl⟩
  obtain ⟨⟨-, -, -, -, hreq, -⟩, -⟩ := hopen
  obtain rfl := Codec.txPacket_length hpk hreq
  exact ⟨_, hexec.trans (congrArg _ (emitted_frame pk s)), fun _ ha => emitted_written ha,
    fun _ ha => emitted_read_behind ha⟩

/-! ## Where an emission puts its operands -/

/-- Cells that hold two runs of values, one behind the other, hold each of them. -/
theorem Memory.cells_append {α : Type} {m : Memory α} {off : Nat} {vs ws : List α}
    (h : ∀ j, j < (vs ++ ws).length → m.read (off + j) = (vs ++ ws)[j]?) :
    (∀ j, j < vs.length → m.read (off + j) = vs[j]?)
    ∧ ∀ j, j < ws.length → m.read (off + vs.length + j) = ws[j]? := by
  rw [List.length_append] at h
  refine ⟨fun j hj => ?_, fun j hj => ?_⟩
  · rw [h j (by omega), List.getElem?_append_left hj]
  · rw [Nat.add_assoc, h _ (by omega), List.getElem?_append_right (by omega), Nat.add_sub_cancel_left]

/-- Two places that both show an element of a list hold the same value. -/
theorem exists_value_of_getElem? {α : Type} {vs : List α} {i : Nat} {a b : Option α} (hi : i < vs.length)
    (ha : a = vs[i]?) (hb : b = vs[i]?) : ∃ v, a = some v ∧ b = some v := by
  rw [List.getElem?_eq_getElem hi] at ha hb
  exact ⟨_, ha, hb⟩

/-- Settles O27: the run of the packet's bytes, cut into its sections, each read back by the lemma of its format. -/
theorem emissionLayout : Obligations.EmissionLayout := by
  intro s t i req cap len pk hopen hpad hpk hexec
  obtain ⟨rfl, -⟩ := serialize_emits hopen hpad hpk hexec
  obtain ⟨-, -, -, hlen, -⟩ := hopen
  obtain ⟨hp, hx, hcc, hm, hpt, hseq, hts, hssrc, hn, hids, hpay, hbytes, hext⟩ := (emissionOperands _ _).1 hpk
  obtain rfl : len = pk.payload.length := Option.some.inj (hlen.symm.trans hpay)
  have hcells : ∀ j, j < pk.bytes.length → (emitted pk s).codec.wire.read (0 + j) = pk.bytes[j]? :=
    fun j hj => by rw [Nat.zero_add, emitted_read hj]
  obtain ⟨hfixed, hcells⟩ := Memory.cells_append hcells
  obtain ⟨hcsrc, hcells⟩ := Memory.cells_append hcells
  obtain ⟨hsection, hpayload⟩ := Memory.cells_append hcells
  simp only [Nat.zero_add, Header.bytes_length, wordBytes_length, hn] at hfixed hcsrc hsection hpayload
  refine ⟨pk.header, hp, hx, hcc, hm, hpt, hseq, hts, hssrc, wireHolds_of_bytes hfixed,
    fun k hk => exists_value_of_getElem? (hn.symm ▸ hk) (hids k hk)
      (Memory.readBE32_of_wordBytes (by rwa [hn]) k (hn.symm ▸ hk)), ?_⟩
  cases he : pk.ext with
  | none =>
    rw [he] at hext hpayload
    refine ⟨fun _ j hj => exists_value_of_getElem? hj (hbytes j hj) (hpayload j hj), fun h1 => ?_⟩
    exact absurd (h1.symm.trans hext) (by decide)
  | some e =>
    obtain ⟨profile, words⟩ := e
    rw [he] at hext hsection hpayload
    obtain ⟨hx1, hprofile, ⟨n, hextLen, hwords⟩, htxext⟩ := hext
    simp only [extBytes_length] at hsection hpayload
    obtain ⟨hrdProfile, hrdLen, hrdWords⟩ := Memory.reads_of_extBytes hsection
    rw [ofNat_length_of_lengthField hwords] at hrdLen
    refine ⟨fun h0 => absurd (h0.symm.trans hx1) (by decide), fun _ => ⟨profile, n, hprofile, hextLen, hrdProfile,
      hrdLen, fun k hk => ?_, fun j hj => exists_value_of_getElem? hj (hbytes j hj) ?_⟩⟩
    · exact exists_value_of_getElem? (hwords.symm ▸ hk) (htxext k (hwords.symm ▸ hk)) (hrdWords k (hwords.symm ▸ hk))
    · rw [← hpayload j hj, hwords, ← Nat.add_assoc]

/-! ## The outcomes of a SERIALIZE -/

/-- The three ends of a SERIALIZE with a buffer past its parameter checks, and the packet it emits (R115 to R119). -/
theorem serializeReady_buffer {s t : State} (h : serializeReady true s = .next t) :
    ∃ req cap, s.codec.pkt.requiredLength = some req ∧ s.codec.cap.read = some cap
      ∧ ((cap < req ∧ t = s.raise .outOfMemory)
        ∨ (req ≤ cap ∧ (t = s.raise .malformedPacket
            ∨ ∃ pk, s.codec.txPacket = some pk ∧ pk.bytes.length = req ∧ t = emitted pk s))) := by
  obtain ⟨-, req, hreq, -, ⟨hb, -⟩ | ⟨-, cap, hcap, hcase⟩⟩ := serializeReady_eq_next.1 h
  · cases hb
  refine ⟨req, cap, hreq, hcap, ?_⟩
  obtain hfull | ⟨hroom, hcheck⟩ := hcase
  · exact .inl hfull
  obtain ⟨len, p, -, -, -, -, ⟨-, -, last, -, -, rfl⟩ | ⟨-, pk, hpk, rfl⟩⟩ := serializeChecked_eq_next.1 hcheck
  · exact .inr ⟨hroom, .inl rfl⟩
  · exact .inr ⟨hroom, .inr ⟨pk, hpk, Codec.txPacket_length hpk hreq, rfl⟩⟩

/-- Settles O29: the rows of the table are the outcomes of SERIALIZE's stages. -/
theorem serializeWritesPerOutcome : Obligations.SerializeWritesPerOutcome := by
  intro s t i hi hexec
  obtain ⟨p, hcmd, hi⟩ : ∃ p, serializeCommand p s = .next t ∧ (i = .serialize p ∨ i = .sizeq ∧ p.b = false) := by
    obtain rfl | ⟨p, rfl⟩ := hi
    · exact ⟨_, hexec, .inr ⟨rfl, rfl⟩⟩
    · exact ⟨p, hexec, .inl rfl⟩
  obtain ⟨-, ⟨-, rfl⟩ | ⟨-, -, -, -, -, rfl⟩ | ⟨-, -, -, hb, -, h⟩ | ⟨-, -, -, hb, h⟩⟩ :=
    serializeCommand_eq_next.1 hcmd
  · exact .inl rfl
  · exact .inl rfl
  · obtain ⟨req, cap, hreq, -, ⟨-, rfl⟩ | ⟨-, rfl | ⟨pk, -, rfl, rfl⟩⟩⟩ := serializeReady_buffer h
    · exact .inr (.inl rfl)
    · exact .inr (.inr (.inl rfl))
    · have hi : i = .serialize p := hi.resolve_right (by simp [hb])
      exact .inr (.inr (.inr (.inr ⟨_, hreq, emitted_frame pk s, ⟨p, hi, hb⟩, fun _ ha => emitted_written ha,
        fun _ ha => emitted_read_behind ha⟩)))
  · obtain ⟨-, req, hreq, -, rfl⟩ := serializeReady_sizing.1 h
    have hi : i = .sizeq ∨ ∃ p : Present, i = .serialize p ∧ p.b = false :=
      hi.elim (fun h => .inr ⟨p, h, hb⟩) (fun h => .inl h.1)
    exact .inr (.inr (.inr (.inl ⟨req, hreq, rfl, hi⟩)))

/-- Settles O30: the sizing query and the SERIALIZE have the same required length, and only one outcome has too small a capacity. -/
theorem sizingAgreesWithEmission : Obligations.SizingAgreesWithEmission := by
  intro s t u n cap hsize hn hcap h0 hexec
  obtain ⟨hinit, req, hreq, rfl⟩ := exec_sizeq_next hsize
  obtain rfl : req = n := Option.some.inj hn
  rw [exec_serialize_ready (initRace_of_init hinit) hcap h0] at hexec
  obtain ⟨req', cap', hreq', hcap', hcase⟩ := serializeReady_buffer hexec
  obtain rfl : req' = req := Option.some.inj (hreq'.symm.trans hreq)
  obtain rfl : cap' = cap := Option.some.inj (hcap'.symm.trans hcap)
  obtain ⟨hfull, rfl⟩ | ⟨hroom, rfl | ⟨pk, hpk, rfl, rfl⟩⟩ := hcase
  · exact ⟨fun hok => absurd hok (State.raise_not_ok (by decide)), iff_of_true rfl hfull⟩
  · exact ⟨fun hok => absurd hok (State.raise_not_ok (by decide)), iff_of_false (by simp) (by omega)⟩
  · refine ⟨fun _ => ⟨rfl, hroom, pk, hpk, rfl, fun _ ha => emitted_read ha, fun _ ha => emitted_read_behind ha⟩, ?_⟩
    exact iff_of_false (by simp) (by omega)

end Sys2Proof.Machine
end

section
/-! SUPPORT. What DESERIALIZE makes of a frame (43_deserialize.md R143): every end it can come to, with what the frame declares and the pad count taken at the successful one, and the frame that a SERIALIZE has put on `WIRE` (R146). -/

namespace Sys2Proof.Machine

/-! ## The payload region -/

/-- The pad count that is taken lies inside the region (43_deserialize.md R139). -/
theorem PadTaken.le {m : Memory Byte} {h : Header} {payOff n d : Nat} (hd : PadTaken m h payOff n d) :
    d ≤ n - payOff := by
  unfold PadTaken at hd
  split at hd
  · obtain ⟨pad, -, -, hle, rfl⟩ := hd
    exact hle
  · omega

theorem padConsistent_iff {pad : Byte} {region : Nat} :
    padConsistent pad region = true ↔ 1 ≤ pad.toNat ∧ pad.toNat ≤ region := by
  simp [padConsistent]

/-- Stages 8 to 10 commit the packet with its pad count taken off, or find the pad count outside the region (R138 to R140). -/
theorem deserializePayload_cases {h : Header} {profile extLen : Half} {extOff n : Nat} {s t : State}
    (hx : deserializePayload h profile extLen extOff n s = .next t) :
    t = s.raise .malformedPacket
    ∨ ∃ d, PadTaken s.codec.wire h (extOff + 4 * extLen.toNat) n d
        ∧ t = decodedState h profile extLen extOff (extOff + 4 * extLen.toNat) (n - (extOff + 4 * extLen.toNat) - d) s := by
  obtain ⟨payOff, rfl, ⟨hno, rfl⟩ | ⟨hp, hlt, pad, hread, ⟨hpad, rfl⟩ | ⟨-, rfl⟩⟩⟩ := deserializePayload_eq_next.1 hx
  · exact .inr ⟨0, by rw [PadTaken, if_neg hno], rfl⟩
  · obtain ⟨hlo, hhi⟩ := padConsistent_iff.1 hpad
    exact .inr ⟨pad.toNat, by rw [PadTaken, if_pos ⟨hp, hlt⟩]; exact ⟨pad, hread, hlo, hhi, rfl⟩, rfl⟩
  · exact .inl rfl

/-- Where a pad count can be taken, stages 8 to 10 commit the packet (R138 to R140). -/
theorem deserializePayload_of_padTaken {h : Header} {profile extLen : Half} {extOff n d : Nat} {s : State}
    (hd : PadTaken s.codec.wire h (extOff + 4 * extLen.toNat) n d) :
    deserializePayload h profile extLen extOff n s = .next
      (decodedState h profile extLen extOff (extOff + 4 * extLen.toNat) (n - (extOff + 4 * extLen.toNat) - d) s) := by
  refine deserializePayload_eq_next.2 ⟨_, rfl, ?_⟩
  unfold PadTaken at hd
  split at hd
  · next hc =>
    obtain ⟨pad, hread, hlo, hhi, rfl⟩ := hd
    exact .inr ⟨hc.1, hc.2, pad, hread, .inl ⟨padConsistent_iff.2 ⟨hlo, hhi⟩, rfl⟩⟩
  · next hc =>
    subst hd
    exact .inl ⟨hc, rfl⟩

/-- Settles O31: a well-framed input comes to its payload region, where the pad count can be taken. -/
theorem deserializeDecodes : Obligations.DeserializeDecodes := by
  intro s i n extOff d h profile extLen hpast hm hdecl hroom hd
  rw [deserialize_declared hpast hm hdecl hroom, deserializePayload_of_padTaken hd]
  rfl

/-! ## The ends of a DESERIALIZE -/

/-- `t` is `s` with a frame of `n` bytes decoded: the header `h`, what its extension declares, and `d` pad bytes taken off what is left (R134 to R140). -/
def Decoded (s t : State) (n : Nat) : Prop :=
  ∃ h profile extLen extOff d, ExtDeclared s.codec.wire h profile extLen extOff ∧ extOff + 4 * extLen.toNat ≤ n
    ∧ PadTaken s.codec.wire h (extOff + 4 * extLen.toNat) n d
    ∧ t = decodedState h profile extLen extOff (extOff + 4 * extLen.toNat) (n - (extOff + 4 * extLen.toNat) - d) s

/-- From a cursor behind the contributing sources on, DESERIALIZE decodes the frame or finds it malformed (R136 to R140). -/
theorem deserializeExt_cases {h : Header} {n : Nat} {s t : State} (hcur : 12 + 4 * h.cc.toNat ≤ n)
    (hx : deserializeExt h (12 + 4 * h.cc.toNat) n s = .next t) : t = s.raise .malformedPacket ∨ Decoded s t n := by
  obtain ⟨hxb, hx⟩ | ⟨hxb, ⟨-, rfl⟩ | ⟨hroom, profile, extLen, hprofile, hlen, ⟨-, rfl⟩ | ⟨hdata, hx⟩⟩⟩ :=
    deserializeExt_eq_next.1 hx
  · refine (deserializePayload_cases hx).imp_right fun ⟨d, hd, ht⟩ => ⟨h, 0, 0, _, d, ?_, by simpa using hcur, hd, ht⟩
    rw [ExtDeclared, if_neg (by simp [hxb])]
    exact ⟨rfl, rfl, rfl⟩
  · exact .inl rfl
  · exact .inl rfl
  · refine (deserializePayload_cases hx).imp_right fun ⟨d, hd, ht⟩ =>
      ⟨h, profile, extLen, _, d, ?_, by omega, hd, ht⟩
    rw [ExtDeclared, if_pos hxb]
    exact ⟨hprofile, hlen, rfl⟩

/-- A DESERIALIZE that ends has failed with one of three kinds or has decoded the frame (R142). -/
theorem execDeserialize_cases {p : Present} {s t : State} (hx : execDeserialize p s = .next t) :
    t = s.raise .badParam ∨ t = s.raise .wrongVersion ∨ t = s.raise .malformedPacket
    ∨ ∃ n, s.codec.inLen.read = some n ∧ Decoded s t n := by
  obtain ⟨-, ⟨-, rfl⟩ | ⟨-, -, -, n, hn, ⟨-, rfl⟩ | ⟨hmin, hx⟩⟩⟩ := execDeserialize_eq_next.1 hx
  · exact .inl rfl
  · exact .inl rfl
  obtain ⟨-, -, b0, -, ⟨-, rfl⟩ | ⟨-, h, -, hx⟩⟩ := deserializeReady_eq_next.1 hx
  · exact .inr (.inl rfl)
  obtain ⟨-, -, rfl⟩ | ⟨hids, hx⟩ := deserializeCsrc_eq_next.1 hx
  · exact .inr (.inr (.inl rfl))
  obtain rfl | hdec := deserializeExt_cases (by omega) hx
  · exact .inr (.inr (.inl rfl))
  · exact .inr (.inr (.inr ⟨n, hn, hdec⟩))

/-- Settles O32: the rows of the table are the ends of a DESERIALIZE. -/
theorem deserializeWritesPerOutcome : Obligations.DeserializeWritesPerOutcome := by
  intro s t p hexec
  obtain rfl | rfl | rfl | ⟨n, -, h, profile, extLen, extOff, d, -, -, -, rfl⟩ := execDeserialize_cases hexec
  · exact .inl rfl
  · exact .inr (.inl rfl)
  · exact .inr (.inr (.inl rfl))
  · exact .inr (.inr (.inr ⟨rfl, rfl, rfl, rfl, rfl, rfl, rfl, rfl, rfl, rfl, rfl, rfl, rfl, rfl, rfl⟩))

/-- A DESERIALIZE that ends with OK has decoded the frame (R140). -/
theorem decoded_of_ok {p : Present} {s t : State} {n : Nat} (hx : execDeserialize p s = .next t)
    (hok : t.codec.result.read = some .ok) (hn : s.codec.inLen.read = some n) : Decoded s t n := by
  obtain rfl | rfl | rfl | ⟨m, hm, hdec⟩ := execDeserialize_cases hx
  · exact absurd hok (State.raise_not_ok (by decide))
  · exact absurd hok (State.raise_not_ok (by decide))
  · exact absurd hok (State.raise_not_ok (by decide))
  · obtain rfl : m = n := Option.some.inj (hm.symm.trans hn)
    exact hdec

/-- The offset and the size of what a header and its extension declare (R135 to R137). -/
theorem ExtDeclared.offset {m : Memory Byte} {h : Header} {profile extLen : Half} {extOff : Nat}
    (hdecl : ExtDeclared m h profile extLen extOff) :
    extOff = 12 + 4 * h.cc.toNat + (if h.x then 4 else 0)
    ∧ extOff + 4 * extLen.toNat = 12 + 4 * h.cc.toNat + (if h.x then 4 + 4 * extLen.toNat else 0) := by
  unfold ExtDeclared at hdecl
  split at hdecl
  · next hx =>
    obtain ⟨-, -, rfl⟩ := hdecl
    rw [if_pos hx, if_pos hx]
    exact ⟨rfl, by omega⟩
  · next hx =>
    obtain ⟨-, rfl, rfl⟩ := hdecl
    rw [if_neg hx, if_neg hx]
    exact ⟨rfl, rfl⟩

/-- Without an extension the declared profile and length are 0, the spec's choice D10. -/
theorem ExtDeclared.absent {m : Memory Byte} {h : Header} {profile extLen : Half} {extOff : Nat}
    (hdecl : ExtDeclared m h profile extLen extOff) (hx : h.x = false) : profile = 0 ∧ extLen = 0 := by
  rw [ExtDeclared, if_neg (by simp [hx])] at hdecl
  obtain ⟨hprofile, hlen, -⟩ := hdecl
  exact ⟨hprofile, hlen⟩

/-- Settles O33: the declared offsets add up to the start of the payload region, of which the pad count is a part. -/
theorem decodedLengthsAddUp : Obligations.DecodedLengthsAddUp := by
  intro s t p n hexec hok hn
  obtain ⟨h, profile, extLen, extOff, d, hdecl, hroom, hd, rfl⟩ := decoded_of_ok hexec hok hn
  obtain ⟨hoff, hstart⟩ := hdecl.offset
  have hle := hd.le
  have hsum : extOff + 4 * extLen.toNat + (n - (extOff + 4 * extLen.toNat) - d) + d = n := by omega
  refine ⟨d, ?_, rfl, hoff, rfl, hsum, ?_⟩
  · change n = 12 + 4 * h.cc.toNat + (if h.x then 4 + 4 * extLen.toNat else 0)
      + (n - (extOff + 4 * extLen.toNat) - d) + d
    rw [← hstart, hsum]
  · change if h.p = true ∧ extOff + 4 * extLen.toNat < n then _ else _
    unfold PadTaken at hd
    split at hd
    · next hc =>
      obtain ⟨pad, hread, hlo, -, rfl⟩ := hd
      rw [if_pos hc]
      exact ⟨pad, hread, rfl, hlo⟩
    · next hc =>
      rw [if_neg hc]
      exact hd

/-! ## The frame a SERIALIZE has put on `WIRE` -/

/-- A SERIALIZE with a buffer that ends with OK was open, its padding consistent, and has emitted its packet (42_serialize.md R110 to R119). -/
theorem serialize_ok {s t : State} (hexec : exec (.serialize { c := true, k := true, b := true, l := true }) s = .next t)
    (hok : t.codec.result.read = some .ok) : ∃ req cap len pk,
      SerializeOpen (.serialize { c := true, k := true, b := true, l := true }) s req cap len
      ∧ PaddingConsistent s len ∧ s.codec.txPacket = some pk ∧ t = emitted pk s := by
  obtain ⟨-, ⟨href, -⟩ | ⟨-, -, -, -, -, rfl⟩ | ⟨-, -, -, -, ⟨cap, hcap, h0⟩, hx⟩ | ⟨-, -, -, hb, -⟩⟩ :=
    serializeCommand_eq_next.1 hexec
  · exact absurd ⟨rfl, rfl, rfl⟩ href
  · exact absurd hok (State.raise_not_ok (by decide))
  · obtain ⟨hinit, req, hreq, hmax, ⟨hb, -⟩ | ⟨-, cap', hcap', ⟨-, rfl⟩ | ⟨hroom, hx⟩⟩⟩ := serializeReady_eq_next.1 hx
    · cases hb
    · exact absurd hok (State.raise_not_ok (by decide))
    obtain rfl : cap' = cap := Option.some.inj (hcap'.symm.trans hcap)
    obtain ⟨len, p, hlen, hwire, htx, hp, ⟨-, -, last, -, -, rfl⟩ | ⟨hpad, pk, hpk, rfl⟩⟩ :=
      serializeChecked_eq_next.1 hx
    · exact absurd hok (State.raise_not_ok (by decide))
    refine ⟨req, cap', len, pk, ⟨⟨rfl, hinit, hcap, h0, hreq, hmax⟩, hroom, hwire, hlen, htx⟩,
      ⟨p, hp, fun hpt hpos => ?_⟩, hpk, rfl⟩
    obtain ⟨last, hread, hc⟩ := hpad hpt hpos
    exact ⟨last, hread, padConsistent_iff.1 hc⟩
  · cases hb


/-- `t` holds on `WIRE` the packet that the registers and operand memories of `s` describe: the header `h`, the contributing sources, the extension with its data from `extOff` on, and behind it a payload of `len` bytes (42_serialize.md R112, R117, R118). -/
structure PacketOnWire (s t : State) (h : Header) (profile extLen : Half) (extOff len : Nat) : Prop where
  header : s.codec.pkt.header = some h
  wireHolds : WireHolds t.codec.wire h
  csrc : ∀ k, k < h.cc.toNat → t.codec.wire.readBE32 (12 + 4 * k) = s.codec.txcsrc.read k
  declared : ExtDeclared t.codec.wire h profile extLen extOff
  extRegs : h.x = true → s.codec.pkt.extProfile.read = some profile ∧ s.codec.pkt.extLen.read = some extLen
  ext : ∀ k, k < extLen.toNat → t.codec.wire.readBE32 (extOff + 4 * k) = s.codec.txext.read k
  payload : ∀ j, j < len → t.codec.wire.read (extOff + 4 * extLen.toNat + j) = s.codec.txpay.read j
  length : s.codec.pkt.requiredLength = some (extOff + 4 * extLen.toNat + len)

/-- Two places that hold the same value read alike. -/
theorem eq_of_exists_value {α : Type} {a b : Option α} (h : ∃ v, a = some v ∧ b = some v) : b = a := by
  obtain ⟨v, ha, hb⟩ := h
  rw [ha, hb]

/-- An emission leaves its packet on `WIRE`, with an extension or without one (42_serialize.md R117, R118). -/
theorem packetOnWire_of_emission {i : Instr} {s t : State} {req cap len : Nat} {pk : TxPacket}
    (hopen : SerializeOpen i s req cap len) (hpad : PaddingConsistent s len) (hpk : s.codec.txPacket = some pk)
    (hexec : exec i s = .next t) : ∃ h profile extLen extOff, PacketOnWire s t h profile extLen extOff len := by
  obtain ⟨h, hp, hx, hcc, hm, hpt, hseq, hts, hssrc, hholds, hcsrc, habsent, hpresent⟩ :=
    emissionLayout s t i req cap len pk hopen hpad hpk hexec
  obtain ⟨-, -, -, hlen, -⟩ := hopen
  have hheader := Pkt.header_eq_some.2 ⟨hp, hx, hcc, hm, hpt, hseq, hts, hssrc⟩
  obtain ⟨hwith, hwithout⟩ := requiredLengthFormula s.codec.pkt h.cc len hcc hlen
  cases hb : h.x with
  | false =>
    refine ⟨h, 0, 0, 12 + 4 * h.cc.toNat, hheader, hholds, fun k hk => eq_of_exists_value (hcsrc k hk), ?_,
      fun h1 => absurd (h1.symm.trans hb) (by decide), fun _ hk => absurd hk (Nat.not_lt_zero _),
      fun j hj => eq_of_exists_value (habsent hb j hj), hwithout (hx.trans (congrArg some hb))⟩
    rw [ExtDeclared, if_neg (by simp [hb])]
    exact ⟨rfl, rfl, rfl⟩
  | true =>
    obtain ⟨profile, n, hprofile, hn, hrdProfile, hrdLen, hext, hpay⟩ := hpresent hb
    refine ⟨h, profile, n, 12 + 4 * h.cc.toNat + 4, hheader, hholds, fun k hk => eq_of_exists_value (hcsrc k hk), ?_,
      fun _ => ⟨hprofile, hn⟩, fun k hk => eq_of_exists_value (hext k hk),
      fun j hj => eq_of_exists_value (hpay j hj), ?_⟩
    · rw [ExtDeclared, if_pos hb]
      exact ⟨hrdProfile, hrdLen, rfl⟩
    · rw [hwith n (hx.trans (congrArg some hb)) hn, ← Nat.add_assoc]

/-- Consistent padding of the operands is a pad count that can be taken off the payload they are emitted as (43_deserialize.md R146). -/
theorem PacketOnWire.padTaken {s t : State} {h : Header} {profile extLen : Half} {extOff len : Nat}
    (hw : PacketOnWire s t h profile extLen extOff len) (hpad : PaddingConsistent s len) :
    ∃ d, PadTaken t.codec.wire h (extOff + 4 * extLen.toNat) (extOff + 4 * extLen.toNat + len) d
      ∧ (if s.codec.pkt.p.read = some true ∧ 0 < len
         then ∃ b, s.codec.txpay.read (len - 1) = some b ∧ d = b.toNat
         else d = 0) := by
  obtain ⟨hp, -⟩ := Pkt.header_eq_some.1 hw.header
  obtain ⟨p, hp', hlast⟩ := hpad
  obtain rfl : h.p = p := Option.some.inj (hp.symm.trans hp')
  by_cases hc : h.p = true ∧ 0 < len
  · obtain ⟨hset, hpos⟩ := hc
    obtain ⟨last, hread, hlo, hhi⟩ := hlast hset hpos
    have hcell := hw.payload (len - 1) (by omega)
    rw [← Nat.add_sub_assoc hpos, hread] at hcell
    refine ⟨last.toNat, ?_, ?_⟩
    · rw [PadTaken, if_pos ⟨hset, by omega⟩]
      exact ⟨last, hcell, hlo, by omega, rfl⟩
    · rw [if_pos ⟨hp.trans (congrArg some hset), hpos⟩]
      exact ⟨last, hread, rfl⟩
  · refine ⟨0, ?_, ?_⟩
    · rw [PadTaken, if_neg (fun hd => hc ⟨hd.1, by omega⟩)]
    · rw [if_neg (fun hd => hc ⟨Option.some.inj (hp.symm.trans hd.1), hd.2⟩)]

/-- A packet on `WIRE` whose length the host has written to `IN_LEN` comes past DESERIALIZE's checks (43_deserialize.md R130 to R132, R146). -/
theorem PacketOnWire.deserializePast {s t : State} {h : Header} {profile extLen : Half} {extOff len : Nat}
    (hw : PacketOnWire s t h profile extLen extOff len) (hinit : t.ctxInit = true)
    (hwire : extOff + 4 * extLen.toNat + len ≤ t.codec.wireSize) :
    DeserializePast (.deserialize { c := true, k := true, b := true, l := false })
      { t with codec := { t.codec with inLen := Reg.holding (extOff + 4 * extLen.toNat + len) } }
      (extOff + 4 * extLen.toNat + len) := by
  obtain ⟨hoff, -⟩ := hw.declared.offset
  exact ⟨⟨_, rfl, rfl, rfl, rfl⟩, rfl, by omega, hinit, hwire⟩

/-- Settles O36: the emitted frame is well-framed, so `deserializeDecodes` applies, and its sections are the operands. -/
theorem deserializeOfSerializeIsThePacket : Obligations.DeserializeOfSerializeIsThePacket := by
  intro s t n hexec hok hcap
  obtain ⟨req, cap, len, pk, hopen, hpad, hpk, ht⟩ := serialize_ok hexec hok
  obtain ⟨h, profile, extLen, extOff, hw⟩ := packetOnWire_of_emission hopen hpad hpk hexec
  obtain ⟨d, hd, hcount⟩ := hw.padTaken hpad
  obtain ⟨⟨-, hinit, -, -, hreq, -⟩, -, hwire, hlen, -⟩ := hopen
  obtain ⟨hp, hx, hcc, hm, hpt, hseq, hts, hssrc⟩ := Pkt.header_eq_some.1 hw.header
  obtain rfl : req = extOff + 4 * extLen.toNat + len := Option.some.inj (hreq.symm.trans hw.length)
  obtain rfl : n = extOff + 4 * extLen.toNat + len := by
    rw [ht, emitted_cap, Reg.holding_read, Codec.txPacket_length hpk hreq] at hcap
    exact (Option.some.inj hcap).symm
  have hpast := hw.deserializePast (by rw [ht, emitted_ctxInit, hinit]) (by rw [ht, emitted_wireSize]; exact hwire)
  have hle := hd.le
  have hrest : extOff + 4 * extLen.toNat + len - (extOff + 4 * extLen.toNat) - d = len - d := by omega
  refine ⟨_, d, len, deserializeDecodes _ _ _ extOff d h profile extLen hpast hw.wireHolds hw.declared
      (Nat.le_add_right _ _) hd, rfl,
    hp.symm, hx.symm, hm.symm, hcc.symm, hpt.symm, hseq.symm, hts.symm, hssrc.symm, fun hset => ?present,
    fun hclear => ?absent, hw.csrc, hw.ext, hlen, by omega, congrArg some hrest, hcount,
    fun j hj => hw.payload j (by omega)⟩
  case present =>
    obtain ⟨hprofile, hn⟩ := hw.extRegs (Option.some.inj (hx.symm.trans hset))
    exact ⟨hprofile.symm, hn.symm⟩
  case absent =>
    obtain ⟨rfl, rfl⟩ := hw.declared.absent (Option.some.inj (hx.symm.trans hclear))
    exact ⟨rfl, rfl⟩

end Sys2Proof.Machine
end

section
/-! SUPPORT. How the commands fail (60_exceptions.md R150 to R157): that each cause makes the command write its failure kind and nothing else, and, the other way, that a command which does not end with OK has failed with a kind whose cause holds. -/

namespace Sys2Proof.Machine

/-! ## Causes -/

/-- Causes (a) to (d) of MALFORMED_PACKET in a frame of `n` bytes that starts with the header `h` (R154). -/
def FrameMalformed (m : Memory Byte) (h : Header) (n : Nat) : Prop :=
  (0 < h.cc.toNat ∧ n < 12 + 4 * h.cc.toNat)
  ∨ (12 + 4 * h.cc.toNat ≤ n ∧ h.x = true ∧ n < 12 + 4 * h.cc.toNat + 4)
  ∨ (∃ profile extLen extOff, ExtDeclared m h profile extLen extOff ∧ h.x = true ∧ extOff ≤ n
      ∧ n < extOff + 4 * extLen.toNat)
  ∨ (∃ profile extLen extOff pad, ExtDeclared m h profile extLen extOff ∧ h.p = true
      ∧ extOff + 4 * extLen.toNat < n ∧ m.read (n - 1) = some pad
      ∧ (pad.toNat < 1 ∨ n - (extOff + 4 * extLen.toNat) < pad.toNat))

/-- The causes of MALFORMED_PACKET, those of DESERIALIZE and that of SERIALIZE (R154). -/
theorem malformedCause_iff {i : Instr} {s : State} : MalformedCause i s ↔
    (∃ n h, DeserializePast i s n ∧ WireHolds s.codec.wire h ∧ FrameMalformed s.codec.wire h n)
    ∨ ∃ req cap len, SerializeOpen i s req cap len ∧ PaddingInconsistent s len := Iff.rfl

/-- The causes of each failure kind (R151 to R154); OK is none. -/
def FailureCause (i : Instr) (s : State) : ResultKind → Prop
  | .ok => False
  | .badParam => BadParamCause i s
  | .outOfMemory => ∃ req cap, SerializePast i s req cap ∧ cap < req
  | .wrongVersion => ∃ n b0, DeserializePast i s n ∧ s.codec.wire.read 0 = some b0 ∧ b0.toNat / 64 ≠ 2
  | .malformedPacket => MalformedCause i s

/-- `t` is how a command ends in `s` that succeeds, or that fails with a kind whose cause holds and writes it and nothing else (R155). -/
def EndsWithCause (i : Instr) (s t : State) : Prop :=
  t.codec.result.read = some .ok ∨ ∃ k, FailureCause i s k ∧ t = s.raise k

/-! ## Pad counts, headers and extensions -/

/-- A pad count is inconsistent when it is 0 or larger than its region (90_conflicts.md C1). -/
theorem padConsistent_eq_false {pad : Byte} {region : Nat} :
    padConsistent pad region = false ↔ pad.toNat < 1 ∨ region < pad.toNat := by
  rw [← Bool.not_eq_true, padConsistent_iff]
  omega

/-- What is read as a header of version 2 is a header of version 2. -/
theorem wireHolds_of_readHeader {m : Memory Byte} {b0 : Byte} {h : Header} (hb0 : m.read 0 = some b0)
    (hv : versionOf b0 = rtpVersion) (hh : readHeader m = some h) : WireHolds m h := by
  obtain ⟨c0, b1, seq, ts, ssrc, hc0, hb1, hseq, hts, hssrc, rfl⟩ := readHeader_eq_some.1 hh
  obtain rfl : c0 = b0 := Option.some.inj (hc0.symm.trans hb0)
  refine ⟨c0, b1, hb0, hb1, ?_, ?_, hseq, hts, hssrc⟩
  · rw [← byte0_toNat, Header.byte0_ofFields _ _ _ _ _ hv]
  · rw [← byte1_toNat, Header.byte1_ofFields]

/-- With the extension flag set the two halves behind the contributing sources declare the extension (43_deserialize.md R136). -/
theorem extDeclared_of_present {m : Memory Byte} {h : Header} {profile extLen : Half} {extOff : Nat}
    (hx : h.x = true) : ExtDeclared m h profile extLen extOff ↔
      m.readBE16 (12 + 4 * h.cc.toNat) = some profile ∧ m.readBE16 (12 + 4 * h.cc.toNat + 2) = some extLen
        ∧ extOff = 12 + 4 * h.cc.toNat + 4 := by
  rw [ExtDeclared, if_pos hx]

/-- With the extension flag clear nothing is read (the spec's choice D10). -/
theorem extDeclared_of_absent {m : Memory Byte} {h : Header} (hx : h.x = false) :
    ExtDeclared m h 0 0 (12 + 4 * h.cc.toNat) := by
  rw [ExtDeclared, if_neg (by simp [hx])]
  exact ⟨rfl, rfl, rfl⟩

/-- Of three references one is absent when not all are present. -/
theorem absent_of_not_present {a b c : Bool} (h : ¬ (a = true ∧ b = true ∧ c = true)) :
    a = false ∨ b = false ∨ c = false := by
  simpa only [not_and_or, Bool.not_eq_true] using h

/-! ## From the cause to the failure -/

section

variable {i : Instr} {s : State}

/-- A cause of BAD_PARAM, whatever else holds, outside the race of 70_reset_and_hazards.md R178 (R151). -/
theorem exec_of_badParamCause (hrace : meetsRace i s = false) (h : BadParamCause i s) :
    exec i s = .next (s.raise .badParam) := by
  cases i with
  | init p => exact exec_init_of_absent h s
  | serialize p =>
    refine serializeCommand_eq_next.2 ⟨hrace, ?_⟩
    by_cases href : p.c = true ∧ p.k = true ∧ p.l = true
    · obtain ⟨hc, hk, hl⟩ := href
      obtain ⟨hb, hcap⟩ : p.b = true ∧ s.codec.cap.read = some 0 := by simpa [BadParamCause, hc, hk, hl] using h
      exact .inr (.inl ⟨hc, hk, hl, hb, hcap, rfl⟩)
    · exact .inl ⟨href, rfl⟩
  | deserialize p =>
    refine execDeserialize_eq_next.2 ⟨hrace, ?_⟩
    by_cases href : p.c = true ∧ p.b = true ∧ p.k = true
    · obtain ⟨hc, hb, hk⟩ := href
      obtain ⟨n, hn, hshort⟩ : ∃ n, s.codec.inLen.read = some n ∧ n < 12 := by
        simpa [BadParamCause, hc, hb, hk] using h
      exact .inr ⟨hc, hb, hk, n, hn, .inl ⟨hshort, rfl⟩⟩
    · exact .inl ⟨href, rfl⟩
  | _ => exact h.elim

/-- A capacity below the required length (R152). -/
theorem exec_of_small_capacity {req cap : Nat} (h : SerializePast i s req cap) (hlt : cap < req) :
    exec i s = .next (s.raise .outOfMemory) := by
  obtain ⟨rfl, hinit, hcap, h0, hreq, hmax⟩ := h
  rw [exec_serialize_ready (initRace_of_init hinit) hcap h0]
  exact serializeReady_eq_next.2 ⟨hinit, req, hreq, hmax, .inr ⟨rfl, cap, hcap, .inl ⟨hlt, rfl⟩⟩⟩

/-- A version other than 2 (R153). -/
theorem exec_of_wrong_version {n : Nat} {b0 : Byte} (h : DeserializePast i s n)
    (hb0 : s.codec.wire.read 0 = some b0) (hv : b0.toNat / 64 ≠ 2) : exec i s = .next (s.raise .wrongVersion) := by
  rw [deserialize_past h, hb0, need_some, if_neg (mt versionOf_eq_rtpVersion.1 hv)]

/-- A section that does not fit the frame, or an inconsistent pad count at its end (R154 (a) to (d)). -/
theorem exec_of_frameMalformed {n : Nat} {h : Header} (hpast : DeserializePast i s n)
    (hm : WireHolds s.codec.wire h) (hbad : FrameMalformed s.codec.wire h n) :
    exec i s = .next (s.raise .malformedPacket) := by
  obtain ⟨hcc, hlt⟩ | ⟨hroom, hx, hlt⟩ | ⟨profile, extLen, extOff, hdecl, hx, hroom, hlt⟩
    | ⟨profile, extLen, extOff, pad, hdecl, hp, hroom, hread, hpad⟩ := hbad
  · obtain ⟨h0, hh⟩ := readHeader_of_wireHolds hm
    rw [deserialize_past hpast, h0, need_some, if_pos (versionOf_byte0 h), hh, need_some]
    exact deserializeCsrc_eq_next.2 (.inl ⟨hcc, by omega, rfl⟩)
  · rw [deserialize_holds hpast hm hroom]
    exact deserializeExt_eq_next.2 (.inr ⟨hx, .inl ⟨by omega, rfl⟩⟩)
  · obtain ⟨hprofile, hlen, rfl⟩ := (extDeclared_of_present hx).1 hdecl
    rw [deserialize_holds hpast hm (by omega)]
    exact deserializeExt_eq_next.2
      (.inr ⟨hx, .inr ⟨by omega, profile, extLen, hprofile, hlen, .inl ⟨by omega, rfl⟩⟩⟩)
  · rw [deserialize_declared hpast hm hdecl (by omega)]
    exact deserializePayload_eq_next.2
      ⟨_, rfl, .inr ⟨hp, hroom, pad, hread, .inr ⟨padConsistent_eq_false.2 hpad, rfl⟩⟩⟩

/-- An inconsistent pad count in the packet to be emitted (R154 (e)). -/
theorem exec_of_paddingInconsistent {req cap len : Nat} (h : SerializeOpen i s req cap len)
    (hbad : PaddingInconsistent s len) : exec i s = .next (s.raise .malformedPacket) := by
  obtain ⟨hp, hpos, last, hread, hpad⟩ := hbad
  rw [serialize_open h, hp, need_some, if_pos ⟨rfl, hpos⟩, hread, need_some,
    if_neg (by simp [padConsistent_eq_false.2 hpad])]

/-- Any cause of MALFORMED_PACKET (R154). -/
theorem exec_of_malformedCause (h : MalformedCause i s) : exec i s = .next (s.raise .malformedPacket) := by
  obtain ⟨n, hd, hpast, hm, hbad⟩ | ⟨req, cap, len, hopen, hbad⟩ := malformedCause_iff.1 h
  · exact exec_of_frameMalformed hpast hm hbad
  · exact exec_of_paddingInconsistent hopen hbad

end

/-! ## From the end to the cause -/

section

variable {p : Present} {s t : State}

/-- A SERIALIZE that ends has succeeded or failed with a cause (42_serialize.md R121). -/
theorem serialize_ends (hx : exec (.serialize p) s = .next t) : EndsWithCause (.serialize p) s t := by
  obtain ⟨-, ⟨href, rfl⟩ | ⟨-, -, -, hb, hcap, rfl⟩ | ⟨hc, hk, hl, hb, ⟨cap, hcap, h0⟩, hx⟩ | ⟨-, -, -, -, hx⟩⟩ :=
    serializeCommand_eq_next.1 hx
  · exact .inr ⟨.badParam, (absent_of_not_present href).imp_right (.imp_right .inl), rfl⟩
  · exact .inr ⟨.badParam, .inr (.inr (.inr ⟨hb, hcap⟩)), rfl⟩
  · obtain ⟨hinit, req, hreq, hmax, ⟨hno, -⟩ | ⟨-, cap', hcap', hcase⟩⟩ := serializeReady_eq_next.1 hx
    · cases hno
    obtain rfl : cap' = cap := Option.some.inj (hcap'.symm.trans hcap)
    obtain rfl : p = { c := true, k := true, b := true, l := true } := by
      cases p; simp only [Present.mk.injEq]; exact ⟨hc, hk, hb, hl⟩
    have hpast : SerializePast _ s req cap' := ⟨rfl, hinit, hcap, h0, hreq, hmax⟩
    obtain ⟨hlt, rfl⟩ | ⟨hroom, hx⟩ := hcase
    · exact .inr ⟨.outOfMemory, ⟨req, cap', hpast, hlt⟩, rfl⟩
    obtain ⟨len, p, hlen, hwire, htx, hp, ⟨rfl, hpos, last, hread, hpad, rfl⟩ | ⟨-, pk, -, rfl⟩⟩ :=
      serializeChecked_eq_next.1 hx
    · exact .inr ⟨.malformedPacket, .inr ⟨req, cap', len, ⟨hpast, hroom, hwire, hlen, htx⟩,
        hp, hpos, last, hread, padConsistent_eq_false.1 hpad⟩, rfl⟩
    · exact .inl rfl
  · obtain ⟨-, req, -, -, rfl⟩ := serializeReady_sizing.1 hx
    exact .inl rfl

/-- From the payload region on DESERIALIZE succeeds or finds the pad count inconsistent (43_deserialize.md R138 to R140). -/
theorem deserializePayload_ends {h : Header} {profile extLen : Half} {extOff n : Nat}
    (hdecl : ExtDeclared s.codec.wire h profile extLen extOff)
    (hx : deserializePayload h profile extLen extOff n s = .next t) :
    t.codec.result.read = some .ok ∨ FrameMalformed s.codec.wire h n ∧ t = s.raise .malformedPacket := by
  obtain ⟨payOff, rfl, ⟨-, rfl⟩ | ⟨hp, hlt, pad, hread, ⟨-, rfl⟩ | ⟨hpad, rfl⟩⟩⟩ := deserializePayload_eq_next.1 hx
  · exact .inl rfl
  · exact .inl rfl
  · exact .inr ⟨.inr (.inr (.inr
      ⟨profile, extLen, extOff, pad, hdecl, hp, hlt, hread, padConsistent_eq_false.1 hpad⟩)), rfl⟩

/-- From a cursor behind the contributing sources on DESERIALIZE succeeds or finds the frame malformed (R136 to R140). -/
theorem deserializeExt_ends {h : Header} {n : Nat} (hcur : 12 + 4 * h.cc.toNat ≤ n)
    (hx : deserializeExt h (12 + 4 * h.cc.toNat) n s = .next t) :
    t.codec.result.read = some .ok ∨ FrameMalformed s.codec.wire h n ∧ t = s.raise .malformedPacket := by
  obtain ⟨hxb, hx⟩ | ⟨hxb, ⟨hlt, rfl⟩ | ⟨hroom, profile, extLen, hprofile, hlen, hcase⟩⟩ := deserializeExt_eq_next.1 hx
  · exact deserializePayload_ends (extDeclared_of_absent hxb) hx
  · exact .inr ⟨.inr (.inl ⟨hcur, hxb, by omega⟩), rfl⟩
  have hdecl : ExtDeclared s.codec.wire h profile extLen (12 + 4 * h.cc.toNat + 4) :=
    (extDeclared_of_present hxb).2 ⟨hprofile, hlen, rfl⟩
  obtain ⟨hlt, rfl⟩ | ⟨-, hx⟩ := hcase
  · exact .inr ⟨.inr (.inr (.inl ⟨profile, extLen, _, hdecl, hxb, by omega, by omega⟩)), rfl⟩
  · exact deserializePayload_ends hdecl hx

/-- A DESERIALIZE that ends has succeeded or failed with a cause (43_deserialize.md R143). -/
theorem deserialize_ends (hx : exec (.deserialize p) s = .next t) : EndsWithCause (.deserialize p) s t := by
  obtain ⟨-, ⟨href, rfl⟩ | ⟨hc, hb, hk, n, hn, ⟨hlt, rfl⟩ | ⟨hmin, hx⟩⟩⟩ := execDeserialize_eq_next.1 hx
  · exact .inr ⟨.badParam, (absent_of_not_present href).imp_right (.imp_right .inl), rfl⟩
  · exact .inr ⟨.badParam, .inr (.inr (.inr ⟨n, hn, hlt⟩)), rfl⟩
  obtain ⟨hinit, hwire, b0, hb0, hcase⟩ := deserializeReady_eq_next.1 hx
  have hpast : DeserializePast (.deserialize p) s n := ⟨⟨p, rfl, hc, hb, hk⟩, hn, hmin, hinit, hwire⟩
  obtain ⟨hv, rfl⟩ | ⟨hv, h, hh, hx⟩ := hcase
  · exact .inr ⟨.wrongVersion, ⟨n, b0, hpast, hb0, mt versionOf_eq_rtpVersion.2 hv⟩, rfl⟩
  have malformed (hbad : FrameMalformed s.codec.wire h n) : FailureCause (.deserialize p) s .malformedPacket :=
    malformedCause_iff.2 (.inl ⟨n, h, hpast, wireHolds_of_readHeader hb0 hv hh, hbad⟩)
  obtain ⟨hcc, hlt, rfl⟩ | ⟨hroom, hx⟩ := deserializeCsrc_eq_next.1 hx
  · exact .inr ⟨.malformedPacket, malformed (.inl ⟨hcc, by omega⟩), rfl⟩
  · exact (deserializeExt_ends (by omega) hx).imp_right fun ⟨hbad, ht⟩ => ⟨.malformedPacket, malformed hbad, ht⟩

/-- Every command that ends has succeeded or failed with a cause. -/
theorem command_ends {i : Instr} (hi : isCommand i = true) (hx : exec i s = .next t) : EndsWithCause i s t := by
  cases i with
  | init p =>
    cases hc : p.c with
    | true =>
      obtain rfl := next_eq_next.1 ((exec_init_of_present hc s).symm.trans hx)
      exact .inl rfl
    | false => exact .inr ⟨.badParam, hc, next_eq_next.1 ((exec_init_of_absent hc s).symm.trans hx)⟩
  | serialize p => exact serialize_ends hx
  | sizeq =>
    obtain ⟨-, req, -, rfl⟩ := exec_sizeq_next hx
    exact .inl rfl
  | deserialize p => exact deserialize_ends hx
  | _ => cases hi

/-- A command that ends with a failure kind has a cause of that kind, and has written the kind and nothing else (R155). -/
theorem command_failure {i : Instr} {k : ResultKind} (hi : isCommand i = true) (hx : exec i s = .next t)
    (hk : t.codec.result.read = some k) (hne : k ≠ .ok) : FailureCause i s k ∧ t = s.raise k := by
  obtain hok | ⟨k', hcause, rfl⟩ := command_ends hi hx
  · exact absurd (Option.some.inj (hk.symm.trans hok)) hne
  · obtain rfl : k' = k := Option.some.inj hk
    exact ⟨hcause, rfl⟩

end

/-! ## The obligations -/

/-- Settles O37: a cause decides the first stage, and the other direction is `command_failure`. -/
theorem badParamExactly : Obligations.BadParamExactly := fun _ _ hi =>
  ⟨fun hrace hcause => ⟨_, exec_of_badParamCause hrace hcause, rfl⟩,
    fun _ hx hk => (command_failure hi hx hk (by decide)).1⟩

/-- Settles O38: the capacity check, and `command_failure`. -/
theorem outOfMemoryExactly : Obligations.OutOfMemoryExactly := fun _ _ hi =>
  ⟨fun _ _ hpast hlt => ⟨_, exec_of_small_capacity hpast hlt, rfl⟩,
    fun _ hx hk => (command_failure hi hx hk (by decide)).1⟩

/-- Settles O39: the version check, and `command_failure`. -/
theorem wrongVersionExactly : Obligations.WrongVersionExactly := fun _ _ hi =>
  ⟨fun _ _ hpast hb0 hv => ⟨_, exec_of_wrong_version hpast hb0 hv, rfl⟩,
    fun _ hx hk => (command_failure hi hx hk (by decide)).1⟩

/-- Settles O40: each of the five causes stops its stage, and the other direction is `command_failure`. -/
theorem malformedPacketExactly : Obligations.MalformedPacketExactly := fun _ _ hi =>
  ⟨fun hcause => ⟨_, exec_of_malformedCause hcause, rfl⟩,
    fun _ hx hk => (command_failure hi hx hk (by decide)).1⟩

/-- Settles O41: every failure goes through `State.raise`. -/
theorem failureWritesOnlyResult : Obligations.FailureWritesOnlyResult := fun _ _ _ _ hi hx hk hne =>
  (command_failure hi hx hk hne).2

end Sys2Proof.Machine
end

section
/-! SUPPORT. What an instruction leaves alone outside its own codec, the way to another codec and back (60_exceptions.md R166), and that a host which only writes `CMD` meets no fault (70_reset_and_hazards.md R187). -/

namespace Sys2Proof.Machine

/-! ## The frame of an instruction -/

/-- `t` is `s` but for the active codec, `CTX.INIT` and the value handed out. -/
def SameOutside (s t : State) : Prop :=
  t = { s with ctxInit := t.ctxInit, codec := t.codec, readData := t.readData }

/-- What is outside stays, field by field. -/
theorem SameOutside.fields {s t : State} (h : SameOutside s t) :
    t.params = s.params ∧ t.active = s.active ∧ t.parked = s.parked ∧ t.running = s.running ∧ t.host = s.host
      ∧ t.draws = s.draws := by
  rw [SameOutside] at h
  rw [h]
  exact ⟨rfl, rfl, rfl, rfl, rfl, rfl⟩

/-- Every instruction stays inside (R166). -/
theorem exec_sameOutside {i : Instr} {s t : State} (h : exec i s = .next t) : SameOutside s t := by
  have serialize (hi : i = .sizeq ∨ ∃ p, i = .serialize p) : SameOutside s t := by
    obtain ht | ht | ht | ⟨_, -, ht, -⟩ | ⟨_, -, ht, -⟩ := serializeWritesPerOutcome s t i hi h <;> rw [ht] <;> rfl
  have hand {w : Nat} {here : Bool} {o : Option (BitVec w)} (h : handOut here o s = .next t) : SameOutside s t := by
    obtain ⟨-, v, -, rfl⟩ := handOut_eq_next.1 h
    rfl
  have lay {off : Nat} {bytes : List Byte} (h : layOnWire off bytes s = .next t) : SameOutside s t := by
    obtain ⟨-, rfl⟩ := layOnWire_eq_next.1 h
    rfl
  cases i with
  | init p =>
    obtain rfl := next_eq_next.1 ((execInit_next p s).symm.trans h)
    split <;> rfl
  | serialize p => exact serialize (.inr ⟨p, rfl⟩)
  | sizeq => exact serialize (.inl rfl)
  | deserialize p =>
    obtain ht | ht | ht | ⟨ht, -⟩ := deserializeWritesPerOutcome s t p h <;> rw [ht] <;> rfl
  | reservedOp00 p => cases h
  | reservedHighBits w => cases h
  | rdBE32 a => exact hand h
  | rdBE16 a => exact hand h
  | wrBE32 v a => exact lay h
  | wrBE16 v a => exact lay h
  | fixed hd => exact lay h
  | csrc ids => exact lay h
  | ext cc profile words => exact lay h
  | payload cc n p bytes => exact lay h

/-- Settles O49: the fields outside, and `exec_ctxInit` for `CTX.INIT`. -/
theorem instancesAreIsolated : Obligations.InstancesAreIsolated := by
  intro s t i h
  obtain ⟨hparams, hactive, hparked, hrunning, hhost, hdraws⟩ := (exec_sameOutside h).fields
  refine ⟨hparams, hactive, hparked, hrunning, hhost, hdraws, ?_⟩
  exact (exec_ctxInit h).imp_right fun ⟨p, hi, hc, ht⟩ => ⟨by rw [ht]; rfl, p, hi, hc⟩

/-! ## Another codec and back -/

/-- The active codec has no entry among the parked ones. -/
theorem State.parked_read_active {s : State} (hs : s.sound = true) : s.parked.read s.active = none := by
  obtain ⟨-, -, hparked, -⟩ := State.sound_iff.1 hs
  refine Option.eq_none_iff_forall_ne_some.2 fun c hc => ?_
  obtain ⟨-, -, hne⟩ := hparked _ (Memory.mem_of_read hc)
  exact hne rfl

/-- An entry that gives way to a new one and takes its place again leaves a memory as it was. -/
theorem Memory.swap_back {α : Type} {m : Memory α} (hm : Memory.wf m = true) {k a : Nat} {c d : α}
    (hk : m.read k = some c) (ha : m.read a = none) :
    Memory.write (Memory.erase (Memory.write (m.erase k) a d) a) k c = m := by
  refine Memory.ext_of_read (Memory.wf_write (Memory.wf_erase (Memory.wf_write (Memory.wf_erase hm k) a d) a) k c) hm
    fun b => ?_
  simp only [Memory.read_write, Memory.read_erase]
  by_cases hbk : b = k
  · rw [if_pos hbk, hbk, hk]
  · by_cases hba : b = a
    · rw [if_neg hbk, if_pos hba, hba, ha]
    · rw [if_neg hbk, if_neg hba, if_neg hba, if_neg hbk]

/-- A step that addresses codec `k`. -/
theorem step_select {s : State} {k : Nat} {rest : List HostAction} (h : s.host = .select k :: rest) :
    step s = hostSelect k (s.withHost rest) := step_of_ended h rfl

/-- Settles O50: the second choice undoes the exchange the first has made; where the codec chosen is the active one, neither makes any. -/
theorem selectThereAndBack : Obligations.SelectThereAndBack := by
  intro s t u k rest hs hhost hst htu
  rw [step_select hhost] at hst
  obtain ⟨rfl, rfl⟩ | ⟨hne, c, hc, rfl⟩ := hostSelect_eq_next.1 hst
  · rw [step_select rfl] at htu
    obtain ⟨-, rfl⟩ | ⟨hna, -⟩ := hostSelect_eq_next.1 htu
    · exact ⟨rfl, fun hna => absurd rfl hna⟩
    · exact absurd rfl hna
  · rw [step_select rfl] at htu
    obtain ⟨heq, -⟩ | ⟨-, d, hd, rfl⟩ := hostSelect_eq_next.1 htu
    · exact absurd heq.symm hne
    obtain rfl : s.codec = d := Option.some.inj ((Memory.read_write_self _ _ _).symm.trans hd)
    obtain ⟨-, -, -, hwf, -⟩ := State.sound_iff.1 hs
    have hparked := Memory.swap_back (d := s.codec) hwf hc (State.parked_read_active hs)
    exact ⟨congrArg (fun m => { s with host := rest, parked := m }) hparked, fun _ => hc⟩

/-! ## Commands do not fault -/

section

variable {f : Fault}

theorem next_ne_fault (s : State) : (.next s : Out) ≠ .fault f := nofun

theorem refused_ne_fault (r : Refusal) : (.refused r : Out) ≠ .fault f := nofun

theorem ite_ne_fault {c : Prop} [Decidable c] {a b : Out} (ha : a ≠ .fault f) (hb : b ≠ .fault f) :
    (if c then a else b) ≠ .fault f := by
  split
  · exact ha
  · exact hb

/-- SERIALIZE and SIZEQ do not fault, stage by stage (42_serialize.md R121). -/
theorem serializeCommand_ne_fault (p : Present) (s : State) : serializeCommand p s ≠ .fault f := by
  have emit : serializeEmit s ≠ .fault f := need_ne_fault fun t => next_ne_fault _
  have checked (req : Nat) : serializeChecked req s ≠ .fault f :=
    need_ne_fault fun len => ite_ne_fault (refused_ne_fault _) <| need_ne_fault fun p =>
      ite_ne_fault (need_ne_fault fun last => ite_ne_fault emit (next_ne_fault _)) emit
  have ready (b : Bool) : serializeReady b s ≠ .fault f :=
    ite_ne_fault (need_ne_fault fun req => ite_ne_fault (refused_ne_fault _) <| ite_ne_fault
      (need_ne_fault fun cap => ite_ne_fault (next_ne_fault _) (checked req)) (next_ne_fault _)) (refused_ne_fault _)
  exact ite_ne_fault (refused_ne_fault _) <| ite_ne_fault
    (ite_ne_fault (need_ne_fault fun cap => ite_ne_fault (next_ne_fault _) (ready true)) (ready false))
    (next_ne_fault _)

/-- DESERIALIZE does not fault, stage by stage (43_deserialize.md R143). -/
theorem execDeserialize_ne_fault (p : Present) (s : State) : execDeserialize p s ≠ .fault f := by
  have payload {h : Header} {profile extLen : Half} {extOff n : Nat} :
      deserializePayload h profile extLen extOff n s ≠ .fault f :=
    ite_ne_fault (next_ne_fault _) <| ite_ne_fault
      (need_ne_fault fun pad => ite_ne_fault (next_ne_fault _) (next_ne_fault _)) (next_ne_fault _)
  have ext {h : Header} {cur n : Nat} : deserializeExt h cur n s ≠ .fault f :=
    ite_ne_fault (ite_ne_fault (next_ne_fault _) <| need_ne_fault fun profile => need_ne_fault fun extLen =>
      ite_ne_fault (next_ne_fault _) payload) payload
  have ready {n : Nat} : deserializeReady n s ≠ .fault f :=
    ite_ne_fault (ite_ne_fault (refused_ne_fault _) <| need_ne_fault fun b0 =>
      ite_ne_fault (need_ne_fault fun h => ite_ne_fault (next_ne_fault _) ext) (next_ne_fault _)) (refused_ne_fault _)
  exact ite_ne_fault (refused_ne_fault _) <| ite_ne_fault
    (need_ne_fault fun n => ite_ne_fault (next_ne_fault _) ready) (next_ne_fault _)

/-- What a command word encodes, reserved or not, does not fault: the faults are those of the primitives and of the formats. -/
theorem exec_decodeCmd_ne_fault (w : Byte) (s : State) : exec (decodeCmd w) s ≠ .fault f := by
  have hport := encode_decodeCmd w
  generalize decodeCmd w = i at hport
  cases i with
  | init p => rw [exec, execInit_next]; exact next_ne_fault _
  | serialize p => exact serializeCommand_ne_fault p s
  | sizeq => exact serializeCommand_ne_fault _ s
  | deserialize p => exact execDeserialize_ne_fault p s
  | reservedOp00 p => exact refused_ne_fault _
  | reservedHighBits w => exact refused_ne_fault _
  | _ => simp [encode] at hport

end

/-! ## Runs of a host that only writes `CMD` -/

/-- All the host has pending are writes of `CMD`. -/
def State.onlyCommands (s : State) : Prop := ∀ a ∈ s.host, ∃ v : Nat, a = .wr 0 v

/-- A write of `CMD` is refused or runs what its word encodes. -/
theorem step_cmd {s : State} {v : Nat} {rest : List HostAction} (h : s.host = .wr 0 v :: rest) :
    (∃ r, step s = .refused r) ∨ ∃ w, step s = exec (decodeCmd w) (s.withHost rest) := by
  cases hbusy : s.running.read s.active with
  | some w => exact .inl ⟨.codecBusy, step_of_ended h (by simp [hostAction, unlessBusy, hbusy])⟩
  | none =>
    by_cases hv : v < 256
    · exact .inr ⟨_, (stepRunsTheDecodedInstruction s rest).1 v hv h hbusy⟩
    · have hwide : 256 ≤ v := by omega
      exact .inl ⟨.valueTooWide, step_wr hbusy h (by simp [hostWrite, RegName.ofNumber, RegName.width, hwide])⟩

/-- A host that only writes `CMD` meets a next state in which it still does, or a refusal. -/
theorem State.onlyCommands_step {s : State} (hs : s.onlyCommands) :
    (∃ r, step s = .refused r) ∨ ∃ t, step s = .next t ∧ t.onlyCommands := by
  cases hhost : s.host with
  | nil => exact .inr ⟨s, step_idle hhost, hs⟩
  | cons a rest =>
    have hrest : ∀ b ∈ rest, ∃ v : Nat, b = .wr 0 v := fun b hb => hs b (by simp [hhost, hb])
    obtain ⟨v, rfl⟩ := hs a (by simp [hhost])
    obtain hrefused | ⟨w, hstep⟩ := step_cmd hhost
    · exact .inl hrefused
    rw [hstep]
    cases hx : exec (decodeCmd w) (s.withHost rest) with
    | next t =>
      obtain ⟨-, -, -, -, hqueue, -⟩ := (exec_sameOutside hx).fields
      exact .inr ⟨t, rfl, by rwa [State.onlyCommands, hqueue]⟩
    | fault f => exact absurd hx (exec_decodeCmd_ne_fault w _)
    | refused r => exact .inl ⟨r, rfl⟩

/-- What every step keeps holds in every state that is reached. -/
theorem Reaches.keeps {P : State → Prop} (hP : ∀ s t, P s → Machine.step s = .next t → P t) {s t : State}
    (h : Reaches s t) (hs : P s) : P t := by
  induction h with
  | here s => exact hs
  | step hx _ ih => exact ih (hP _ _ hs hx)

/-- Settles O52: what the host has pending stays writes of `CMD` all along the run, and from there no step faults. -/
theorem commandRunsNeverFault : Obligations.CommandRunsNeverFault := by
  intro s hs t hreach f hfault
  have keep (u v : State) (hu : u.onlyCommands) (huv : step u = .next v) : v.onlyCommands := by
    obtain ⟨r, hr⟩ | ⟨v', hv', hkeeps⟩ := u.onlyCommands_step hu
    · rw [hr] at huv; cases huv
    · obtain rfl : v = v' := next_eq_next.1 (hv'.symm.trans huv)
      exact hkeeps
  obtain ⟨r, hr⟩ | ⟨v, hv, -⟩ := t.onlyCommands_step (hreach.keeps keep hs)
  · rw [hr] at hfault; cases hfault
  · rw [hv] at hfault; cases hfault

end Sys2Proof.Machine
end

section
/-! SUPPORT. The reset and the hazards of a shared context: what the reset leaves, what a codec inside a command refuses, the race with the first INIT, and that once the host has done its duties no stage of a command finds a place without a value or a length that does not fit (70_reset_and_hazards.md R170 to R187). -/

namespace Sys2Proof.Machine

/-! ## Reset -/

/-- A step that applies the reset (R170). -/
theorem step_reset {s : State} {rest : List HostAction} (h : s.host = .reset :: rest) :
    step s = hostReset (s.withHost rest) := step_of_ended h rfl

/-- While an INIT runs the reset has no defined effect (R170, log 19). -/
theorem hostReset_refused {s : State} (h : s.running ≠ []) : hostReset s = .refused .resetInCommand := if_neg h

/-- Settles O2: every codec becomes one as after power-on, with the buffer size it has. -/
theorem resetActionBringsResetValues : Obligations.ResetActionBringsResetValues := by
  intro s rest hhost
  rw [step_reset hhost]
  refine ⟨fun hidle => ⟨_, hostReset_eq_next.2 ⟨hidle, rfl⟩, rfl, holdsNothing_reset _, fun k c hc => ?parked,
    ?sizes, rfl, rfl, rfl, rfl, hidle⟩, hostReset_refused (s := s.withHost rest)⟩
  case parked =>
    obtain ⟨e, -, he⟩ := List.mem_map.1 hc
    cases he
    exact holdsNothing_reset _
  case sizes => exact List.map_map

/-! ## Inside a command -/

/-- An action that needs the codec free is refused while a command runs there (R186). -/
theorem unlessBusy_busy {s : State} {f : Fetched} {w : Byte} (h : s.running.read s.active = some w) :
    unlessBusy s f = .ended (.refused .codecBusy) := by
  simp [unlessBusy, h]

/-- Settles O45: every action but three goes through `unlessBusy`, and the reset asks for no running INIT at all. -/
theorem instanceInsideACommandIsClosed : Obligations.InstanceInsideACommandIsClosed := by
  intro s a rest w hhost hbusy
  have closed {f : Fetched} (ha : hostAction a (s.withHost rest) = unlessBusy (s.withHost rest) f) :
      step s = .refused .codecBusy := step_of_ended hhost (ha.trans (unlessBusy_busy hbusy))
  cases a with
  | select k => exact .inr (.inl ⟨k, rfl⟩)
  | endInit => exact .inr (.inr (.inl rfl))
  | reset =>
    have hrunning : s.running ≠ [] := fun hnil => by rw [hnil] at hbusy; cases hbusy
    exact .inr (.inr (.inr ⟨rfl, (step_reset hhost).trans (hostReset_refused hrunning)⟩))
  | wr | rd | ldBytes | ldWords | rdByte | rdWord | rdView | image | repoint | beginInit => exact .inl (closed rfl)

/-! ## The race with the first INIT -/

/-- The race is an INIT on another codec while `CTX.INIT = 0` (R178). -/
theorem initRace_of_running {s : State} {k : Nat} {w : Byte} (hinit : s.ctxInit = false) (hk : (k, w) ∈ s.running)
    (hother : k ≠ s.active) : s.initRace = true := by
  rw [State.initRace, hinit, Bool.not_false, Bool.true_and, List.any_eq_true]
  exact ⟨(k, w), hk, decide_eq_true hother⟩

/-- Settles O48: each of the three commands asks for the race first. -/
theorem initRaceIsRefused : Obligations.InitRaceIsRefused := by
  intro s
  refine ⟨fun i k w hinit hk hother hi => ?_, initRace_of_init⟩
  have hrace := initRace_of_running hinit hk hother
  obtain rfl | ⟨p, rfl⟩ | ⟨p, rfl⟩ := hi
  · exact if_pos hrace
  · exact if_pos hrace
  · exact if_pos hrace

/-! ## Commands that end with a result -/

/-- An outcome that is a next state whose `RESULT` holds a kind. -/
def HasResult (o : Out) : Prop := ∃ t k, o = .next t ∧ t.codec.result.read = some k

namespace HasResult

theorem raise (s : State) (k : ResultKind) : HasResult (.next (s.raise k)) := ⟨_, k, rfl, rfl⟩

theorem done (s : State) : HasResult (.next s.done) := ⟨_, .ok, rfl, rfl⟩

theorem ite {c : Prop} [Decidable c] {a b : Out} (ha : c → HasResult a) (hb : ¬ c → HasResult b) :
    HasResult (if c then a else b) := by
  split
  · next h => exact ha h
  · next h => exact hb h

theorem need {α : Type} {o : Option α} {k : α → Out} (ho : o ≠ none) (h : ∀ v, o = some v → HasResult (k v)) :
    HasResult (need o k) := by
  obtain ⟨v, rfl⟩ := Option.ne_none_iff_exists'.1 ho
  exact h v rfl

end HasResult

/-- INIT reads nothing, so it ends with a result in every state (41_init.md R100). -/
theorem init_hasResult (p : Present) (s : State) : HasResult (exec (.init p) s) :=
  .ite (fun _ => .done _) fun _ => .raise _ _

/-! ## SERIALIZE with its read set written -/

/-- The required length is there when its registers are (42_serialize.md R112). -/
theorem LengthWritten.requiredLength {r : Pkt} {req : Nat} (h : LengthWritten r req) : r.requiredLength = some req := by
  obtain ⟨x, cc, len, n, hx, hcc, hlen, hn, rfl⟩ := h
  obtain ⟨present, absent⟩ := requiredLengthFormula r cc len hcc hlen
  cases x with
  | true => exact present n hx (hn rfl)
  | false => exact absent hx

section

variable {c : Codec} {req : Nat}

/-- The fixed header can be read (R117). -/
theorem SerializeReadSetWritten.header (h : SerializeReadSetWritten c) (hlen : LengthWritten c.pkt req) :
    c.pkt.header ≠ none := by
  simp only [SerializeReadSetWritten, Option.ne_none_iff_exists'] at h
  obtain ⟨-, ⟨p, hp⟩, ⟨m, hm⟩, ⟨pt, hpt⟩, ⟨seq, hseq⟩, ⟨ts, hts⟩, ⟨ssrc, hssrc⟩, -⟩ := h
  obtain ⟨x, cc, len, n, hx, hcc, -⟩ := hlen
  simp [Pkt.header, hp, hx, hcc, hm, hpt, hseq, hts, hssrc]

/-- The extension section can be read, or there is none (R118). -/
theorem SerializeReadSetWritten.extPacket (h : SerializeReadSetWritten c) (hlen : LengthWritten c.pkt req) :
    c.extPacket ≠ none := by
  obtain ⟨-, -, -, -, -, -, -, -, -, hext⟩ := h
  obtain ⟨x, cc, len, n, hx, -, -, hn, -⟩ := hlen
  cases x with
  | false => simp [Codec.extPacket_eq_absent.2 hx]
  | true =>
    obtain ⟨hprofile, hcells⟩ := hext hx
    obtain ⟨profile, hprofile⟩ := Option.ne_none_iff_exists'.1 hprofile
    obtain ⟨words, hwords⟩ := Memory.readN_of_forall (a := 0) fun i hi => by
      rw [Nat.zero_add]; exact hcells n i (hn rfl) hi
    simp [Codec.extPacket, Pkt.extOperand_of_present hx (hn rfl), hprofile, hwords]

/-- Every operand of the emission can be read (R122). -/
theorem SerializeReadSetWritten.txPacket (h : SerializeReadSetWritten c) (hlen : LengthWritten c.pkt req) :
    c.txPacket ≠ none := by
  obtain ⟨hdr, hhdr⟩ := Option.ne_none_iff_exists'.1 (h.header hlen)
  obtain ⟨ext, hext⟩ := Option.ne_none_iff_exists'.1 (h.extPacket hlen)
  obtain ⟨-, -, -, -, -, -, -, hcsrc, hpay, -⟩ := h
  obtain ⟨x, cc, len, n, -, -, hpayLen, -⟩ := hlen
  obtain ⟨-, -, hcc, -⟩ := Pkt.header_eq_some.1 hhdr
  obtain ⟨ids, hids⟩ := Memory.readN_of_forall (a := 0) fun i hi => by
    rw [Nat.zero_add]; exact hcsrc hdr.cc i hcc hi
  obtain ⟨bytes, hbytes⟩ := Memory.readN_of_forall (a := 0) fun i hi => by
    rw [Nat.zero_add]; exact hpay len i hpayLen hi
  simp [Codec.txPacket, hhdr, hext, hpayLen, hids, hbytes]

end

section

variable {p : Present} {s : State} {req : Nat}

/-- Stage 6 and the emission (R116 to R119). -/
theorem serializeChecked_hasResult (hlen : LengthWritten s.codec.pkt req) (hset : SerializeReadSetWritten s.codec)
    (hwire : req ≤ s.codec.wireSize) (htx : ∀ len, s.codec.pkt.payLen.read = some len → len ≤ s.params.txpaySize) :
    HasResult (serializeChecked req s) := by
  have emit : HasResult (serializeEmit s) := .need (hset.txPacket hlen) fun pk _ => .done _
  obtain ⟨-, hp, -, -, -, -, -, -, hpay, -⟩ := hset
  obtain ⟨x, cc, len, n, -, -, hpayLen, -⟩ := hlen
  have hbound : ¬ (s.codec.wireSize < req ∨ s.params.txpaySize < len) := by have := htx len hpayLen; omega
  rw [serializeChecked, hpayLen, need_some, if_neg hbound]
  exact .need hp fun padded _ => .ite
    (fun ⟨_, hpos⟩ => .need (hpay len (len - 1) hpayLen (by omega)) fun last _ =>
      .ite (fun _ => emit) fun _ => .raise _ _)
    fun _ => emit

/-- Stages 2 to 5, and with a large enough buffer what comes after them (R111 to R115). -/
theorem serializeReady_hasResult {b : Bool} (hinit : s.ctxInit = true) (hlen : LengthWritten s.codec.pkt req)
    (hfit : req < 2 ^ s.params.lenW) (hcap : b = true → s.codec.cap.read ≠ none)
    (hchecked : ∀ cap, b = true → s.codec.cap.read = some cap → req ≤ cap → HasResult (serializeChecked req s)) :
    HasResult (serializeReady b s) := by
  rw [serializeReady, if_pos hinit, hlen.requiredLength, need_some, if_neg (Params.le_maxLen hfit).not_gt]
  exact .ite
    (fun hb => .need (hcap hb) fun cap hread =>
      .ite (fun _ => .raise _ _) fun hroom => hchecked cap hb hread (Nat.le_of_not_lt hroom))
    fun _ => .done _

/-- Stage 1, and with every reference present what comes after it (R110). -/
theorem serializeCommand_hasResult (hrace : s.initRace = false) (hcap : p.b = true → s.codec.cap.read ≠ none)
    (hready : HasResult (serializeReady p.b s)) : HasResult (serializeCommand p s) := by
  rw [serializeCommand, if_neg (by simp [hrace])]
  refine .ite (fun _ => .ite (fun hb => ?_) fun hb => ?_) fun _ => .raise _ _
  · rw [hb] at hready
    exact .need (hcap hb) fun cap _ => .ite (fun _ => .raise _ _) fun _ => hready
  · rwa [Bool.eq_false_iff.2 hb] at hready

/-- Without a buffer nothing but the required length is read (R114). -/
theorem serialize_hasResult_of_sizing (hinit : s.ctxInit = true) (hlen : LengthWritten s.codec.pkt req)
    (hfit : req < 2 ^ s.params.lenW) (hb : p.b = false) : HasResult (exec (.serialize p) s) := by
  have habsent : p.b ≠ true := by simp [hb]
  exact serializeCommand_hasResult (initRace_of_init hinit) (fun h => absurd h habsent)
    (serializeReady_hasResult hinit hlen hfit (fun h => absurd h habsent) fun _ h => absurd h habsent)

/-- With its read set written and its lengths true SERIALIZE ends (R172, R173, R183). -/
theorem serialize_hasResult (hinit : s.ctxInit = true) (hlen : LengthWritten s.codec.pkt req)
    (hfit : req < 2 ^ s.params.lenW) (hset : SerializeReadSetWritten s.codec)
    (hwire : ∀ cap, s.codec.cap.read = some cap → cap ≤ s.codec.wireSize)
    (htx : ∀ len, s.codec.pkt.payLen.read = some len → len ≤ s.params.txpaySize) :
    HasResult (exec (.serialize p) s) :=
  serializeCommand_hasResult (initRace_of_init hinit) (fun _ => hset.1)
    (serializeReady_hasResult hinit hlen hfit (fun _ => hset.1) fun cap _ hcap hroom =>
      serializeChecked_hasResult hlen hset (hroom.trans (hwire cap hcap)) htx)

end

/-! ## DESERIALIZE with its input written -/

/-- `rdBE16` answers where both its cells hold values (40_word_codec.md R92). -/
theorem Memory.readBE16_ne_none {m : Memory Byte} {a : Nat} (h : ∀ b, a ≤ b → b < a + 2 → m.read b ≠ none) :
    m.readBE16 a ≠ none := by
  simp only [Option.ne_none_iff_exists'] at h
  obtain ⟨b0, h0⟩ := h a (by omega) (by omega)
  obtain ⟨b1, h1⟩ := h (a + 1) (by omega) (by omega)
  simp [Memory.readBE16, h0, h1]

/-- `rdBE32` answers where all four cells hold values (R90). -/
theorem Memory.readBE32_ne_none {m : Memory Byte} {a : Nat} (h : ∀ b, a ≤ b → b < a + 4 → m.read b ≠ none) :
    m.readBE32 a ≠ none := by
  simp only [Option.ne_none_iff_exists'] at h
  obtain ⟨b0, h0⟩ := h a (by omega) (by omega)
  obtain ⟨b1, h1⟩ := h (a + 1) (by omega) (by omega)
  obtain ⟨b2, h2⟩ := h (a + 2) (by omega) (by omega)
  obtain ⟨b3, h3⟩ := h (a + 3) (by omega) (by omega)
  simp [Memory.readBE32, h0, h1, h2, h3]

/-- The fixed header can be read where its twelve cells hold values (43_deserialize.md R134). -/
theorem readHeader_ne_none {m : Memory Byte} (h : ∀ a, a < 12 → m.read a ≠ none) : readHeader m ≠ none := by
  have hseq : m.readBE16 2 ≠ none := Memory.readBE16_ne_none fun b _ hb => h b (by omega)
  have hts : m.readBE32 4 ≠ none := Memory.readBE32_ne_none fun b _ hb => h b (by omega)
  have hssrc : m.readBE32 8 ≠ none := Memory.readBE32_ne_none fun b _ hb => h b (by omega)
  simp only [Option.ne_none_iff_exists'] at h hseq hts hssrc
  obtain ⟨b0, h0⟩ := h 0 (by omega)
  obtain ⟨b1, h1⟩ := h 1 (by omega)
  obtain ⟨seq, hseq⟩ := hseq
  obtain ⟨ts, hts⟩ := hts
  obtain ⟨ssrc, hssrc⟩ := hssrc
  simp [readHeader, h0, h1, hseq, hts, hssrc]

section

variable {s : State} {n : Nat} (hcells : ∀ a, a < n → s.codec.wire.read a ≠ none)
include hcells

/-- Stages 8 to 10: the pad count is the frame's last cell (R138 to R140). -/
theorem deserializePayload_hasResult {h : Header} {profile extLen : Half} {extOff : Nat} :
    HasResult (deserializePayload h profile extLen extOff n s) :=
  .ite (fun _ => .done _) fun hrem => .ite
    (fun _ => .need (hcells _ (by omega)) fun pad _ => .ite (fun _ => .done _) fun _ => .raise _ _)
    fun _ => .done _

/-- Stages 6 and 7: the extension header is read only where it fits the frame (R136, R137). -/
theorem deserializeExt_hasResult {h : Header} {cur : Nat} : HasResult (deserializeExt h cur n s) := by
  refine .ite (fun _ => .ite (fun _ => .raise _ _) fun hroom => ?_) fun _ => deserializePayload_hasResult hcells
  rw [Config.extHdr] at hroom
  exact .need (Memory.readBE16_ne_none fun b _ hb => hcells b (by omega)) fun profile _ =>
    .need (Memory.readBE16_ne_none fun b _ hb => hcells b (by omega)) fun extLen _ =>
      .ite (fun _ => .raise _ _) fun _ => deserializePayload_hasResult hcells

/-- Stages 2 to 5: the fixed header lies inside the frame (R131 to R135). -/
theorem deserializeReady_hasResult (hinit : s.ctxInit = true) (hwire : n ≤ s.codec.wireSize) (hmin : 12 ≤ n) :
    HasResult (deserializeReady n s) := by
  rw [deserializeReady, if_pos hinit, if_neg hwire.not_gt]
  exact .need (hcells 0 (by omega)) fun b0 _ => .ite
    (fun _ => .need (readHeader_ne_none fun a ha => hcells a (by omega)) fun h _ =>
      .ite (fun _ => .raise _ _) fun _ => deserializeExt_hasResult hcells)
    fun _ => .raise _ _

/-- With its input written and the input's length true DESERIALIZE ends (R172, R173, R183). -/
theorem deserialize_hasResult {p : Present} (hinit : s.ctxInit = true) (hn : s.codec.inLen.read = some n)
    (hwire : n ≤ s.codec.wireSize) : HasResult (exec (.deserialize p) s) := by
  rw [exec, execDeserialize, if_neg (by simp [initRace_of_init hinit]), hn, need_some]
  exact .ite (fun _ => .ite (fun _ => .raise _ _) fun hmin =>
    deserializeReady_hasResult hcells hinit hwire (Nat.le_of_not_lt hmin)) fun _ => .raise _ _

end

/-- Settles O58: the duties give every stage of a command the values it reads and the bounds it asks for. -/
theorem commandsEndOnceTheHostHasDoneItsDuties : Obligations.CommandsEndOnceTheHostHasDoneItsDuties := by
  intro s p
  refine ⟨init_hasResult p s, fun req hinit hlen hfit => ⟨?sizeq, serialize_hasResult_of_sizing hinit hlen hfit,
    serialize_hasResult hinit hlen hfit⟩, fun n hinit hn hwire hcells => deserialize_hasResult hcells hinit hn hwire⟩
  case sizeq =>
    exact ⟨_, sizingQueryReportsTheLength s .sizeq req (.inl rfl) hinit hlen.requiredLength
      (Params.le_maxLen hfit), rfl⟩

end Sys2Proof.Machine
end
